-- ==== Sys2Proof/Word.lean ====
section
/-! DEFINITION. The two word types of the block: bytes of `Mem` and of the encoded stream, and 32-bit values and
registers (00_scope.md R6, R8; 10_state.md R17). -/

namespace Sys2Proof

/-- One byte, 0..255 (R8). -/
abbrev Byte := BitVec 8

/-- One 32-bit unsigned integer: a value of the IntegerSequence, or a register (R6 VALUE_BITS, R7 register width). -/
abbrev Word := BitVec 32

/-- A LengthCode, 0..3, meaning a byte count of code + 1 (R6 LENGTH_CODE_BITS). -/
abbrev LengthCode := BitVec 2

end Sys2Proof
end

