-- ==== Sys2Proof/Config.lean ====
section
/-! DEFINITION. What an implementation fixes (00_scope.md R6, R7) and the free values of the model. -/

namespace Sys2Proof

/-- BASIC_FF_POLICY: what ENCODE does when the descriptor of a full BASIC4 coded group is 0xFF (R7, R77). -/
inductive FFPolicy where
  /-- The group is not written: ENCODE ends with ERR_COLLISION. The default. -/
  | fault
  /-- The colliding block is written. -/
  | emit
  deriving DecidableEq, Repr

/-- The parameters a model takes as arguments (R7; 92_eei_decisions.md D2, D13, both OPEN). No step changes them. -/
structure Config where
  /-- REG_BASE, the host address of the register window (R17). -/
  regBase : Nat
  /-- BASIC_FF_POLICY (R77). -/
  ffPolicy : FFPolicy
  deriving DecidableEq, Repr

namespace Config

/-- The configuration at `State.reset`. DESIGN CHOICE (log 5): REG_BASE 0; the policy is the spec's default (R7). -/
def default : Config := { regBase := 0, ffPolicy := .fault }

/-- ADDR_WIDTH = 32: addresses of `Mem` are 0 .. 2^32 - 1 (R7, R37). -/
def memSize : Nat := 2 ^ 32

/-- The size in bytes of the register window (R17). -/
def windowSize : Nat := 0x100

/-- RAW_COUNT: every raw block covers 4 values (R6). -/
def rawCount : Nat := 4

/-- The longest block of any variant, 17 bytes: a BASIC4 coded block with all codes 3 (R59, R68). -/
def maxBlock : Nat := 17

/-- BASIC_MARKER (R6). -/
def basicMarker : Byte := 0xFF

/-- NIBBLE_MARKER (R6). -/
def nibbleMarker : Byte := 0xF0

/-- HEADERLESS_THRESHOLD (R6). -/
def headerlessThreshold : Byte := 0x40

/-- ZERO_MARK, the pattern byte meaning "produce zero" (R7, R107). -/
def zeroMark : Byte := 0x80

/-- A free byte, one for every draw and address: the bytes an abandoned command could have written (R131, log 9). -/
opaque freeByte : Nat → Nat → Byte

/-- A free bit, one for every draw and address: whose byte stays where host and engine both write it (R51, log 7). -/
opaque freeBit : Nat → Nat → Bool

/-- A free index, one for every draw and address: which of the values of a raced byte the engine reads, and which of
the values R51 admits a host read returns (R51, log 7, log 8). -/
opaque freePick : Nat → Nat → Nat

/-- A free draw number, one for every draw and address: where the free values start of the run to completion that a host
read or a reset looks ahead to (R51, R131, log 8, log 9). -/
opaque freeRun : Nat → Nat → Nat

end Config

end Sys2Proof
end

