-- ==== Sys2Proof/Syntax.lean ====
section
/-! DEFINITION. The two instruction sets of the block as data: the command words the host writes to CMD, and the header
classes of the four wire formats, one constructor per row of spec/opcode_table.json (30_encoding.md R56 to R65). -/

namespace Sys2Proof

/-- The four wire-format variants, numbered as the VARIANT field numbers them (00_scope.md R3). -/
inductive Variant where
  /-- 0: BASIC4. -/
  | basic4
  /-- 1: HEADERLESS_NIB. -/
  | headerlessNib
  /-- 2: SENTINEL_NIB. -/
  | sentinelNib
  /-- 3: TABLE_NIB. -/
  | tableNib
  deriving DecidableEq, Repr

/-- GROUP, the values one descriptor covers: G(V) is 4 for BASIC4 and 2 for the nibble variants (R3, R59). -/
def Variant.group : Variant → Nat
  | .basic4 => 4
  | .headerlessNib => 2
  | .sentinelNib => 2
  | .tableNib => 2

/-- The class of a block header in its variant's opcode map (R65). -/
inductive HdrClass where
  | raw
  | coded
  | malformed
  deriving DecidableEq, Repr

/-- Every row of the opcode table. The operands of a command are the registers; the operands of a header are its own
fields and the payload bytes after it. -/
inductive Instr where
  /-- ENCODE.B4, word 0x00000001 (R104). -/
  | encodeB4
  /-- ENCODE.HN, word 0x00000011 (R104). -/
  | encodeHn
  /-- ENCODE.SN, word 0x00000021 (R104). -/
  | encodeSn
  /-- ENCODE.TN, word 0x00000031 (R104). -/
  | encodeTn
  /-- DECODE.B4, word 0x00000002 (R105). -/
  | decodeB4
  /-- DECODE.B4.SIMD, word 0x00000042 (R105, R110). -/
  | decodeB4Simd
  /-- DECODE.HN, word 0x00000012 (R105). -/
  | decodeHn
  /-- DECODE.HN.SIMD, word 0x00000052 (R105, R110). -/
  | decodeHnSimd
  /-- DECODE.SN, word 0x00000022 (R105). -/
  | decodeSn
  /-- DECODE.SN.SIMD, word 0x00000062 (R105, R110). -/
  | decodeSnSimd
  /-- DECODE.TN, word 0x00000032 (R105, R111). -/
  | decodeTn
  /-- DECODE.TN.SIMD, word 0x00000072 (R105, R111). -/
  | decodeTnSimd
  /-- CLASSIFY, word 0x00000003 (R73). -/
  | classify
  /-- TABLE_INIT.B4, word 0x00000004 (R109). -/
  | tableInitB4
  /-- TABLE_INIT.HN, word 0x00000014 (R109). -/
  | tableInitHn
  /-- TABLE_INIT.SN, word 0x00000024 (R109). -/
  | tableInitSn
  /-- TABLE_INIT.TN, word 0x00000034 (R109). -/
  | tableInitTn
  /-- ILLEGAL: the command word `w`, which no other row matches (R58). -/
  | illegal (w : Word)
  /-- B4.RAW, header 0xFF (R79). -/
  | b4Raw
  /-- B4.CODED, a descriptor of four LengthCodes, `c0` in bits [1:0] (R61, R80). -/
  | b4Coded (c0 c1 c2 c3 : LengthCode)
  /-- HN.RAW.LO, a header 0x40..0x7F, the first literal; `x` is its bits [5:0] (R87). -/
  | hnRawLo (x : BitVec 6)
  /-- HN.RAW.HI, a header 0x80..0xFF, the first literal; `x` is its bits [6:0] (R87). -/
  | hnRawHi (x : BitVec 7)
  /-- HN.CODED, `c0` in bits [1:0] and `c1` in bits [5:4] (R62, R83). -/
  | hnCoded (c0 c1 : LengthCode)
  /-- HN.MALFORMED, a header `h` below 0x40 with a bit of [3:2] set (R65, R86). -/
  | hnMalformed (h : Byte)
  /-- SN.RAW, header 0xF0 (R93). -/
  | snRaw
  /-- SN.CODED, `c0` in bits [1:0] and `c1` in bits [5:4] (R62, R83). -/
  | snCoded (c0 c1 : LengthCode)
  /-- SN.MALFORMED, every other header `h` (R65, R92). -/
  | snMalformed (h : Byte)
  /-- TN.RAW, header 0xF0 (R93). -/
  | tnRaw
  /-- TN.CODED, `c0` in bits [1:0] and `c1` in bits [5:4] (R62, R113). -/
  | tnCoded (c0 c1 : LengthCode)
  /-- TN.MALFORMED, every other header `h` (R65, R92). -/
  | tnMalformed (h : Byte)
  deriving DecidableEq, Repr

/-- The bits of one instruction with the opcode map they belong to: a command word (format CMD32), or a block header read
under a variant (formats HDR8-V0 to HDR8-V3). The variant is not in the stream (R68). -/
inductive Code where
  | cmd (w : Word)
  | hdr (v : Variant) (h : Byte)
  deriving DecidableEq, Repr

end Sys2Proof
end

