-- ==== Sys2Proof/WellFormed.lean ====
section
/-! DEFINITION. Which terms of `Instr` stand for an encoding: the operand checks of 30_encoding.md R58 and R65. -/

namespace Sys2Proof

/-- The match and mask rows of R58: whether a command word is legal. -/
def cmdWordLegal (w : Word) : Bool :=
  (w &&& 0xFFFFFFCF == 0x00000001) || (w &&& 0xFFFFFF8F == 0x00000002) || (w == 0x00000003) ||
    (w &&& 0xFFFFFFCF == 0x00000004)

/-- An instruction is well-formed when some bits encode it: ILLEGAL holds a word no row of R58 matches, B4.CODED is not
the marker 0xFF, and a MALFORMED header lies in its variant's MALFORMED class (R65). -/
def Instr.wellFormed : Instr → Bool
  | .encodeB4 => true
  | .encodeHn => true
  | .encodeSn => true
  | .encodeTn => true
  | .decodeB4 => true
  | .decodeB4Simd => true
  | .decodeHn => true
  | .decodeHnSimd => true
  | .decodeSn => true
  | .decodeSnSimd => true
  | .decodeTn => true
  | .decodeTnSimd => true
  | .classify => true
  | .tableInitB4 => true
  | .tableInitHn => true
  | .tableInitSn => true
  | .tableInitTn => true
  | .illegal w => !cmdWordLegal w
  | .b4Raw => true
  | .b4Coded c0 c1 c2 c3 => !(c0 == 3 && c1 == 3 && c2 == 3 && c3 == 3)
  | .hnRawLo _ => true
  | .hnRawHi _ => true
  | .hnCoded _ _ => true
  | .hnMalformed h => decide (h < 0x40) && (h &&& 0x0C != 0)
  | .snRaw => true
  | .snCoded _ _ => true
  | .snMalformed h => (h != 0xF0) && (h &&& 0xCC != 0)
  | .tnRaw => true
  | .tnCoded _ _ => true
  | .tnMalformed h => (h != 0xF0) && (h &&& 0xCC != 0)

end Sys2Proof
end

