-- ==== Sys2Proof/Decode.lean ====
section
/-! DEFINITION. The decoder, total on every command word and every header byte, and after it the encoder
(30_encoding.md R56 to R65; spec/opcode_table.json). ILLEGAL and the three MALFORMED rows are the decoder's rejections by
name. -/

namespace Sys2Proof

/-- The LengthCode fields of a BASIC4 descriptor: slot k in bits [2k+1:2k] (R61). -/
def codesB4 (d : Byte) : List LengthCode :=
  [d.extractLsb' 0 2, d.extractLsb' 2 2, d.extractLsb' 4 2, d.extractLsb' 6 2]

/-- The LengthCode fields of a nibble descriptor: slot 0 in bits [1:0], slot 1 in bits [5:4] (R62). -/
def codesNib (d : Byte) : List LengthCode :=
  [d.extractLsb' 0 2, d.extractLsb' 4 2]

/-- The opcode map of the wire format: the class of header `h` in variant `v` (R65). -/
def hdrClass (v : Variant) (h : Byte) : HdrClass :=
  match v with
  | .basic4 => if h = 0xFF then .raw else .coded
  | .headerlessNib => if 0x40 ≤ h then .raw else if h &&& 0xCC = 0 then .coded else .malformed
  | .sentinelNib => if h = 0xF0 then .raw else if h &&& 0xCC = 0 then .coded else .malformed
  | .tableNib => if h = 0xF0 then .raw else if h &&& 0xCC = 0 then .coded else .malformed

/-- The command a word written to CMD selects: the rows of format CMD32 in the table's order, ILLEGAL last (R57, R58). -/
def decodeCmd (w : Word) : Instr :=
  if w = 0x00000001 then .encodeB4
  else if w = 0x00000011 then .encodeHn
  else if w = 0x00000021 then .encodeSn
  else if w = 0x00000031 then .encodeTn
  else if w = 0x00000002 then .decodeB4
  else if w = 0x00000042 then .decodeB4Simd
  else if w = 0x00000012 then .decodeHn
  else if w = 0x00000052 then .decodeHnSimd
  else if w = 0x00000022 then .decodeSn
  else if w = 0x00000062 then .decodeSnSimd
  else if w = 0x00000032 then .decodeTn
  else if w = 0x00000072 then .decodeTnSimd
  else if w = 0x00000003 then .classify
  else if w = 0x00000004 then .tableInitB4
  else if w = 0x00000014 then .tableInitHn
  else if w = 0x00000024 then .tableInitSn
  else if w = 0x00000034 then .tableInitTn
  else .illegal w

/-- The block kind a header byte selects under a variant (R64, R65, R78, R86, R92). -/
def decodeHdr (v : Variant) (h : Byte) : Instr :=
  match v with
  | .basic4 =>
    if h = 0xFF then .b4Raw
    else .b4Coded (h.extractLsb' 0 2) (h.extractLsb' 2 2) (h.extractLsb' 4 2) (h.extractLsb' 6 2)
  | .headerlessNib =>
    if h &&& 0x80 = 0x80 then .hnRawHi (h.extractLsb' 0 7)
    else if h &&& 0xC0 = 0x40 then .hnRawLo (h.extractLsb' 0 6)
    else if h &&& 0xCC = 0 then .hnCoded (h.extractLsb' 0 2) (h.extractLsb' 4 2)
    else .hnMalformed h
  | .sentinelNib =>
    if h = 0xF0 then .snRaw
    else if h &&& 0xCC = 0 then .snCoded (h.extractLsb' 0 2) (h.extractLsb' 4 2)
    else .snMalformed h
  | .tableNib =>
    if h = 0xF0 then .tnRaw
    else if h &&& 0xCC = 0 then .tnCoded (h.extractLsb' 0 2) (h.extractLsb' 4 2)
    else .tnMalformed h

/-- The decoder of both opcode maps. -/
def decode : Code → Instr
  | .cmd w => decodeCmd w
  | .hdr v h => decodeHdr v h

/-- Decoding at the front of a stream: the header's instruction and the bytes after the header, none where no byte is
left (R78, R86, R92). -/
def decodeStreamHeader (v : Variant) : List Byte → Option (Instr × List Byte)
  | [] => none
  | h :: rest => some (decodeHdr v h, rest)

/-- The descriptor of a BASIC4 coded block (R60). -/
def b4Descriptor (c0 c1 c2 c3 : LengthCode) : Byte :=
  c0.setWidth 8 ||| (c1.setWidth 8 <<< 2) ||| (c2.setWidth 8 <<< 4) ||| (c3.setWidth 8 <<< 6)

/-- The descriptor of a nibble coded block (R60). -/
def nibDescriptor (c0 c1 : LengthCode) : Byte :=
  c0.setWidth 8 ||| (c1.setWidth 8 <<< 4)

/-- The encoder: the bits of a well-formed instruction, from the match words of the opcode table. -/
def encode : Instr → Code
  | .encodeB4 => .cmd 0x00000001
  | .encodeHn => .cmd 0x00000011
  | .encodeSn => .cmd 0x00000021
  | .encodeTn => .cmd 0x00000031
  | .decodeB4 => .cmd 0x00000002
  | .decodeB4Simd => .cmd 0x00000042
  | .decodeHn => .cmd 0x00000012
  | .decodeHnSimd => .cmd 0x00000052
  | .decodeSn => .cmd 0x00000022
  | .decodeSnSimd => .cmd 0x00000062
  | .decodeTn => .cmd 0x00000032
  | .decodeTnSimd => .cmd 0x00000072
  | .classify => .cmd 0x00000003
  | .tableInitB4 => .cmd 0x00000004
  | .tableInitHn => .cmd 0x00000014
  | .tableInitSn => .cmd 0x00000024
  | .tableInitTn => .cmd 0x00000034
  | .illegal w => .cmd w
  | .b4Raw => .hdr .basic4 0xFF
  | .b4Coded c0 c1 c2 c3 => .hdr .basic4 (b4Descriptor c0 c1 c2 c3)
  | .hnRawLo x => .hdr .headerlessNib (0x40 ||| x.setWidth 8)
  | .hnRawHi x => .hdr .headerlessNib (0x80 ||| x.setWidth 8)
  | .hnCoded c0 c1 => .hdr .headerlessNib (nibDescriptor c0 c1)
  | .hnMalformed h => .hdr .headerlessNib h
  | .snRaw => .hdr .sentinelNib 0xF0
  | .snCoded c0 c1 => .hdr .sentinelNib (nibDescriptor c0 c1)
  | .snMalformed h => .hdr .sentinelNib h
  | .tnRaw => .hdr .tableNib 0xF0
  | .tnCoded c0 c1 => .hdr .tableNib (nibDescriptor c0 c1)
  | .tnMalformed h => .hdr .tableNib h

/-- The variant a bare header byte of the opcode table is read under. DESIGN CHOICE (log 12): an 8-bit row's word does
not say its variant, so the markers 0xFF and 0xF0 are read as BASIC4's and SENTINEL_NIB's, every other byte as
HEADERLESS_NIB's. -/
def tableVariant (h : Byte) : Variant :=
  if h = 0xFF then .basic4 else if h = 0xF0 then .sentinelNib else .headerlessNib

/-- The instruction the decoder reads from the bits `w` of a table row of `nbits` bits: a command word, or a header byte
under `tableVariant`. -/
def decodeTableWord (nbits w : Nat) : Option Instr :=
  if nbits = 32 then some (decode (.cmd (BitVec.ofNat 32 w)))
  else if nbits = 8 then some (decode (.hdr (tableVariant (BitVec.ofNat 8 w)) (BitVec.ofNat 8 w)))
  else none

end Sys2Proof
end

