-- ==== Sys2Proof/Machine/State.lean ====
section
/-! DEFINITION. The state of the block and of its two agents as plain data (10_state.md R14 to R36, 20_memory.md R37),
the reasons a step can stop, and the state after reset (70_reset_and_hazards.md R131). -/

namespace Sys2Proof.Machine

/-- The outcome of a command: NONE or one of the nine error codes of STATUS.ERRCODE (60_exceptions.md R117). -/
inductive ErrCode where
  | none
  | illegalCmd
  | align
  | range
  | overlap
  | tableNotReady
  | dstOverflow
  | collision
  | truncated
  | malformed
  deriving DecidableEq, Repr

/-- The fields of STATUS (R20); `Status.word` of Flags.lean is the 32-bit register. -/
structure Status where
  busy : Bool
  done : Bool
  err : Bool
  errcode : ErrCode
  tableValid : Bool
  tableG2 : Bool
  deriving DecidableEq, Repr

/-- ENG.phase (R35). -/
inductive Phase where
  | idle
  | start
  | run
  deriving DecidableEq, Repr

/-- ENG.op (R35). -/
inductive EngOp where
  | encode
  | decode
  | classify
  | tableInit
  | illegal
  deriving DecidableEq, Repr

/-- The engine's state (R35). The cursors are counts that never wrap (R16), so they are natural numbers. -/
structure Engine where
  phase : Phase
  op : EngOp
  /-- ENG.w, the command word accepted. -/
  w : Word
  /-- ENG.V. -/
  variant : Variant
  simd : Bool
  /-- Cursor i: values consumed (ENCODE) or produced (DECODE). -/
  i : Nat
  /-- Cursor p: bytes written (ENCODE) or consumed (DECODE). -/
  p : Nat
  deriving DecidableEq, Repr

/-- One entry T[d] of the shuffle table (R34). -/
structure Entry where
  pat : Vector Byte 16
  len : Nat
  evalid : Bool
  deriving DecidableEq, Repr

/-- The shuffle table, one entry per descriptor byte (R34). -/
abbrev Table := Vector Entry 256

/-- `Mem` (R37) as the bytes that differ from what an unlisted address reads as, addresses strictly rising. -/
abbrev Memory := List Host.Cell

/-- The width of a host access. DESIGN CHOICE (log 20): R41 speaks of host accesses to `Mem` of another width than 32 bits
and no rule lists the widths or an alignment; the model has 1, 2 and 4 bytes, at every address. -/
inductive AccessSize where
  | byte
  | half
  | word
  deriving DecidableEq, Repr

/-- What reaches the block from outside, one entry for one access of the host, one reset pulse or one turn of the
engine. A list of them is one interleaving of the agents (R14, R138; log 1). -/
inductive Input where
  /-- A host write of the low bytes of `v` to the host address `addr` of the register window (R18). -/
  | regWrite (size : AccessSize) (addr : Nat) (v : Word)
  /-- A host read at the host address `addr` of the register window (R18). -/
  | regRead (size : AccessSize) (addr : Nat)
  /-- A host write of the low bytes of `v` to `Mem`, little-endian (R49, R51). -/
  | memWrite (size : AccessSize) (addr : Nat) (v : Word)
  /-- A host read of `Mem`, little-endian and zero-extended (R41, R50, R51). -/
  | memRead (size : AccessSize) (addr : Nat)
  /-- WAIT: the host polls STATUS until BUSY = 0 (R69, R133). -/
  | wait
  /-- The engine takes one step. -/
  | engine
  /-- The platform's reset input (R131). -/
  | reset
  deriving DecidableEq, Repr

/-- The whole state: the configuration, the register window (R17), the table (R34), the engine (R35), `Mem` (R37), and
the model's own fields for the agents. -/
structure State where
  cfg : Config
  status : Status
  valBase : Word
  valCount : Word
  byteBase : Word
  byteCap : Word
  result : Word
  vdone : Word
  classIn : Word
  /-- CLASS_OUT bits [1:0]; bits [31:2] read 0 (R28). -/
  classOut : LengthCode
  /-- TBL_SEL.INDEX; bits [31:8] read 0 (R29). -/
  tblSel : Byte
  table : Table
  eng : Engine
  mem : Memory
  /-- The model's own: the pending entries of the interleaving, oldest first (log 1). -/
  inputs : List Input
  /-- The model's own: what the most recent host read returned (log 3). -/
  hostData : Word
  /-- The model's own: for each byte of VB or BB the host has written since the running command was accepted, the value it
  held just before and every value the host or the engine has written to it since, newest first (R51, log 7). -/
  race : List Host.Cell
  /-- The model's own: `Mem` as it stood when the running command was accepted (R51, log 8). -/
  before : Memory
  /-- The model's own: the draw the next step's free values are taken from (log 17). -/
  draws : Nat
  deriving DecidableEq, Repr

/-- Why the machine stops. No instruction raises one. -/
inductive Fault where
  /-- Raised by a host access to `Mem` that passes address 2^32 - 1, where the spec says there is no memory (R37, log 11).
  Safe: the model stops where the spec gives nothing. -/
  | outsideMem
  deriving DecidableEq, Repr

/-- Why an entry is given no step. No instruction is refused. -/
inductive Refusal where
  /-- An instruction whose arm of `exec` has no meaning yet; no arm raises it. Safe. -/
  | notModelled (mnemonic : String)
  /-- Raised by a host access to the register window of another width than 32 bits, or at an address that is not a
  multiple of 4 from REG_BASE: R18 item 1 says that a model gives it no step. Safe. -/
  | accessNotAdmitted
  /-- Raised by a register access at a host address outside the window, which is no access to this block (R17, log 10).
  Safe. -/
  | outsideWindow
  deriving DecidableEq, Repr

/-- An entry of the table as it stands after reset. DESIGN CHOICE (log 6): the spec leaves it unspecified, and no rule
reads it while TABLE_VALID = 0 (R34). -/
def Entry.atReset : Entry := { pat := Vector.replicate 16 0, len := 0, evalid := false }

/-- STATUS after reset: 0x00000000 (R131). -/
def Status.atReset : Status :=
  { busy := false, done := false, err := false, errcode := .none, tableValid := false, tableG2 := false }

/-- The engine after reset: IDLE (R131). DESIGN CHOICE for the other fields (log 6): unspecified, and not read while
ENG.phase = IDLE. -/
def Engine.atReset : Engine :=
  { phase := .idle, op := .illegal, w := 0, variant := .basic4, simd := false, i := 0, p := 0 }

/-- The machine right after reset (R131), with nothing pending and no byte of memory written. -/
def State.reset : State :=
  { cfg := Config.default
    status := Status.atReset
    valBase := 0
    valCount := 0
    byteBase := 0
    byteCap := 0
    result := 0
    vdone := 0
    classIn := 0
    classOut := 0
    tblSel := 0
    table := Vector.replicate 256 Entry.atReset
    eng := Engine.atReset
    mem := []
    inputs := []
    hostData := 0
    race := []
    before := []
    draws := 0 }

end Sys2Proof.Machine
end

