-- ==== Sys2Proof/Machine/Ops.lean ====
section
/-! DEFINITION. The named operations over memory, registers and the engine: the primitives of 00_scope.md R10 to R12, the
two buffers (20_memory.md R38), the engine's and the host's byte accesses with the races of R51, acceptance of a command
(44_engine.md R96), completion with or without an error (R102), and reset (70_reset_and_hazards.md R131). -/

namespace Sys2Proof.Machine

/-! ### Byte lists (R10) -/

/-- `le_bytes(v, L)`: the `L` low-order bytes of `v`, least significant first (R10). -/
def leBytes (v : Word) : Nat → List Byte
  | 0 => []
  | k + 1 => v.extractLsb' 0 8 :: leBytes (v >>> 8) k

/-- `le_value(B)`: the little-endian value of a byte list, zero-extended to 32 bits (R10, R39). -/
def leValue : List Byte → Word
  | [] => 0
  | b :: bs => b.setWidth 32 ||| (leValue bs <<< 8)

/-! ### Memory (R11, R37, R44) -/

/-- What an address nothing has written reads as. DESIGN CHOICE (log 4): 0x00. -/
def unwrittenByte : Byte := 0

/-- The byte at address `a`: the byte last written to it (R44). -/
def Memory.read : Memory → Nat → Byte
  | [], _ => unwrittenByte
  | (b, v) :: m, a => if a = b then v else Memory.read m a

/-- Write one byte; the list stays sorted and lists no byte that equals `unwrittenByte`. -/
def Memory.write : Memory → Nat → Byte → Memory
  | [], a, v => if v = unwrittenByte then [] else [(a, v)]
  | (b, w) :: m, a, v =>
    if a < b then (if v = unwrittenByte then (b, w) :: m else (a, v) :: (b, w) :: m)
    else if a = b then (if v = unwrittenByte then m else (a, v) :: m)
    else (b, w) :: Memory.write m a v

/-- Every address of the list lies above `a`. -/
def Memory.above (a : Nat) : Memory → Bool
  | [] => true
  | (b, _) :: m => decide (a < b) && Memory.above a m

/-- The canonical form: addresses strictly rising, and no entry equal to what an unlisted address reads as. -/
def Memory.wf : Memory → Bool
  | [] => true
  | (a, v) :: m => (v != unwrittenByte) && Memory.above a m && Memory.wf m

/-- Every listed address lies in `Mem` (R37). -/
def Memory.inSpace : Memory → Bool
  | [] => true
  | (a, _) :: m => decide (a < Config.memSize) && Memory.inSpace m

/-- `MemRead(a, k)` (R11). -/
def Memory.readBytes (m : Memory) (a : Nat) : Nat → List Byte
  | 0 => []
  | k + 1 => Memory.read m a :: Memory.readBytes m (a + 1) k

/-- `MemRead32(a)` (R11). -/
def Memory.read32 (m : Memory) (a : Nat) : Word := leValue (Memory.readBytes m a 4)

/-- `MemWrite(a, B)` (R11). -/
def Memory.writeBytes (m : Memory) (a : Nat) : List Byte → Memory
  | [] => m
  | b :: bs => Memory.writeBytes (Memory.write m a b) (a + 1) bs

/-! ### The operands of the running command -/

/-- n, the count of values (R22). -/
def State.n (s : State) : Nat := s.valCount.toNat

/-- The values still to consume or produce, rem = n - i (R64). -/
def State.rem (s : State) : Nat := s.n - s.eng.i

/-- Address `a` lies in VB = [VAL_BASE, VAL_BASE + 4*VAL_COUNT) (R38). -/
def State.inVB (s : State) (a : Nat) : Bool :=
  decide (s.valBase.toNat ≤ a) && decide (a < s.valBase.toNat + 4 * s.n)

/-- Address `a` lies in BB = [BYTE_BASE, BYTE_BASE + BYTE_CAP) (R38). -/
def State.inBB (s : State) (a : Nat) : Bool :=
  decide (s.byteBase.toNat ≤ a) && decide (a < s.byteBase.toNat + s.byteCap.toNat)

/-- What an ENCODE or DECODE word selects: the operation, the variant and the SIMD bit w[6]; none for every other
instruction (R56, R57). -/
def codecOp : Instr → Option (EngOp × Variant × Bool)
  | .encodeB4 => some (.encode, .basic4, false)
  | .encodeHn => some (.encode, .headerlessNib, false)
  | .encodeSn => some (.encode, .sentinelNib, false)
  | .encodeTn => some (.encode, .tableNib, false)
  | .decodeB4 => some (.decode, .basic4, false)
  | .decodeB4Simd => some (.decode, .basic4, true)
  | .decodeHn => some (.decode, .headerlessNib, false)
  | .decodeHnSimd => some (.decode, .headerlessNib, true)
  | .decodeSn => some (.decode, .sentinelNib, false)
  | .decodeSnSimd => some (.decode, .sentinelNib, true)
  | .decodeTn => some (.decode, .tableNib, false)
  | .decodeTnSimd => some (.decode, .tableNib, true)
  | .classify => none
  | .tableInitB4 => none
  | .tableInitHn => none
  | .tableInitSn => none
  | .tableInitTn => none
  | .illegal _ => none
  | .b4Raw => none
  | .b4Coded _ _ _ _ => none
  | .hnRawLo _ => none
  | .hnRawHi _ => none
  | .hnCoded _ _ => none
  | .hnMalformed _ => none
  | .snRaw => none
  | .snCoded _ _ => none
  | .snMalformed _ => none
  | .tnRaw => none
  | .tnCoded _ _ => none
  | .tnMalformed _ => none

/-- The running command owns VB and BB: it is an ENCODE or a DECODE that has not completed (R51). -/
def State.ownsBuffers (s : State) : Bool := s.status.busy && (codecOp (decodeCmd s.eng.w)).isSome

/-- Address `a` lies in the buffer the running command writes: BB for ENCODE, VB for DECODE (R38). -/
def State.inOutputBuffer (s : State) (a : Nat) : Bool :=
  match codecOp (decodeCmd s.eng.w) with
  | some (.encode, _, _) => s.inBB a
  | some (.decode, _, _) => s.inVB a
  | _ => false

/-- Address `a` has been written by the running command: BB[0 .. p) for ENCODE, value words 0 .. i-1 for DECODE (R45). -/
def State.engineWrote (s : State) (a : Nat) : Bool :=
  decide (s.eng.phase = .run) &&
    match codecOp (decodeCmd s.eng.w) with
    | some (.encode, _, _) => decide (s.byteBase.toNat ≤ a) && decide (a < s.byteBase.toNat + s.eng.p)
    | some (.decode, _, _) => decide (s.valBase.toNat ≤ a) && decide (a < s.valBase.toNat + 4 * s.eng.i)
    | _ => false

/-! ### The engine's accesses to `Mem` (R43 to R46, R51) -/

/-- What byte `a` held before the host raced it, and what either agent has written to it since (R51); none for a byte the
host has not raced. -/
def State.racedBytes (s : State) (a : Nat) : List Byte :=
  (s.race.filter fun c => c.1 == a).map fun c => c.2

/-- `m`, or, where `others` may stand instead, one of them all, drawn (log 7, log 8). -/
def State.drawByte (s : State) (a : Nat) (m : Byte) (others : List Byte) : Byte :=
  match others with
  | [] => m
  | o :: os => (m :: o :: os).getD (Config.freePick s.draws a % (os.length + 2)) o

/-- The byte the engine reads at `a`: the byte in `Mem`, or, where the host has raced, one of the old and new bytes, drawn
(R51, log 7). -/
def State.engRead (s : State) (a : Nat) : Byte := s.drawByte a (Memory.read s.mem a) (s.racedBytes a)

/-- The engine's MemRead(a, k). -/
def State.engReadBytes (s : State) (a : Nat) : Nat → List Byte
  | 0 => []
  | k + 1 => s.engRead a :: s.engReadBytes (a + 1) k

/-- The engine's reads of `k` value words from address `a` on (R40). -/
def State.engReadWords (s : State) (a : Nat) : Nat → List Word
  | 0 => []
  | k + 1 => leValue (s.engReadBytes a 4) :: s.engReadWords (a + 4) k

/-- The byte that stands at `a` after the engine writes `v` over the byte `m` holds: the engine's, or, where the host has
raced, the host's or the engine's, drawn (R51, log 7). -/
def State.engStore (s : State) (m : Memory) (a : Nat) (v : Byte) : Byte :=
  if (s.racedBytes a).isEmpty then v else if Config.freeBit s.draws a then Memory.read m a else v

/-- The engine's MemWrite(a, B). -/
def State.engWriteBytes (s : State) (m : Memory) (a : Nat) : List Byte → Memory
  | [] => m
  | b :: bs => s.engWriteBytes (Memory.write m a (s.engStore m a b)) (a + 1) bs

/-- The race record after the engine's MemWrite(a, B): a byte the engine writes over a raced one is kept, whichever of the
two stands in `Mem`, so that the host may still read it (R51, log 8). -/
def State.engRaceBytes (s : State) (a : Nat) : List Byte → List Host.Cell
  | [] => s.race
  | b :: bs => if (s.racedBytes a).isEmpty then s.engRaceBytes (a + 1) bs else (a, b) :: s.engRaceBytes (a + 1) bs

/-- The address of the next byte of BB: BYTE_BASE + p. -/
def State.byteAddr (s : State) : Nat := s.byteBase.toNat + s.eng.p

/-- The address of the next value word: VAL_BASE + 4*i (R40). -/
def State.valAddr (s : State) : Nat := s.valBase.toNat + 4 * s.eng.i

/-- S, the bytes of BB from cursor p on. DEDUCED (log 13): no block is longer than 17 bytes (R68), so the first 17 bytes
decide a block step, and only they are taken. -/
def State.stream (s : State) : List Byte :=
  s.engReadBytes s.byteAddr (min Config.maxBlock (s.byteCap.toNat - s.eng.p))

/-- The value words an ENCODE step reads: i .. i + min(4, n - i) - 1 (R46, R99). -/
def State.nextValues (s : State) : List Word :=
  s.engReadWords s.valAddr (min Config.rawCount s.rem)

/-! ### The host's accesses to `Mem` (R49 to R51) -/

/-- A host write of one byte. While a command owns the byte's buffer the write races: the old byte and the new one are kept
for the reads of either agent, and over a byte the engine has written the host's or the engine's stays, drawn (R51,
log 7). -/
def State.hostWriteByte (s : State) (a : Nat) (v : Byte) : State :=
  if s.ownsBuffers && (s.inVB a || s.inBB a) then
    { s with
      mem := Memory.write s.mem a
        (if s.engineWrote a && Config.freeBit s.draws a then Memory.read s.mem a else v)
      race := (a, v) :: (a, Memory.read s.mem a) :: s.race }
  else { s with mem := Memory.write s.mem a v }

/-- A host write of a byte list. -/
def State.hostWriteBytes (s : State) (a : Nat) : List Byte → State
  | [] => s
  | b :: bs => (s.hostWriteByte a b).hostWriteBytes (a + 1) bs

/-! ### Taking a command, and ending one -/

/-- Each step draws from its own number (log 17). -/
def State.tick (s : State) : State := { s with draws := s.draws + 1 }

/-- STATUS at acceptance: BUSY <- 1, and DONE, ERR and ERRCODE cleared (R96). -/
def Status.accepted (st : Status) : Status :=
  { st with busy := true, done := false, err := false, errcode := .none }

/-- STATUS at completion with outcome `e` (R102). -/
def Status.completed (e : ErrCode) (st : Status) : Status :=
  { st with busy := false, done := true, err := decide (e ≠ .none), errcode := e }

/-- The host writes the word `w` to CMD: accepted while BUSY = 0, without effect while BUSY = 1 (R96, R18 item 4). It
clears what the last error left (R122). What `Mem` holds is kept for the host's reads while BUSY = 1 (R51, log 8). -/
def State.accept (w : Word) (s : State) : State :=
  if s.status.busy then s
  else
    { s with
      status := s.status.accepted
      eng := { s.eng with w := w, phase := .start }
      race := []
      before := s.mem }

/-- ENG.op is ENCODE or DECODE. -/
def EngOp.isCodec : EngOp → Bool
  | .encode => true
  | .decode => true
  | .classify => false
  | .tableInit => false
  | .illegal => false

/-- `complete(e)`, the one way a command ends, and the block's form of taking an exception (R102, R118, R121): RESULT and
VDONE record the cursors of an ENCODE or DECODE, STATUS records the outcome, the engine goes IDLE. -/
def State.complete (e : ErrCode) (s : State) : State :=
  { s with
    result := if s.eng.op.isCodec then BitVec.ofNat 32 s.eng.p else s.result
    vdone := if s.eng.op.isCodec then BitVec.ofNat 32 s.eng.i else s.vdone
    status := s.status.completed e
    eng := { s.eng with phase := .idle }
    race := [] }

/-- The START step's writes of ENG.op, ENG.V, ENG.simd and the cursors for a legal word; `bit6` is w[6], and ENG.simd is
simd_eff(w) = w[6] OR (w[5:4] = 3) (R98, R110). -/
def State.load (op : EngOp) (v : Variant) (bit6 : Bool) (s : State) : State :=
  { s with eng := { s.eng with op := op, variant := v, simd := bit6 || v == .tableNib, i := 0, p := 0 } }

/-- The START step's writes for an illegal word: ENG.V and ENG.simd stay (R98). -/
def State.loadIllegal (s : State) : State :=
  { s with eng := { s.eng with op := .illegal, i := 0, p := 0 } }

/-- Each command is a START step and, for ENCODE and DECODE, RUN steps; which one is due, ENG.phase says. With no command
running the engine takes no step and holds its state (R35, R98 to R100, R130; log 16). -/
def runCommand (start run : State → State) (s : State) : Host.Outcome State Fault Refusal :=
  match s.eng.phase with
  | .idle => .next s
  | .start => .next (start s)
  | .run => .next (run s)

end Sys2Proof.Machine
end

