-- ==== Sys2Proof/Machine/Operands.lean ====
section
/-! DEFINITION. Operand forms of the wire format: LengthCodes and payload assembly (30_encoding.md R61 to R64), descriptor
and payload building (R60). The Length Classifier (40_classifier.md R71) is the leaf both sides use. -/

namespace Sys2Proof.Machine

/-- The Length Classifier: the LengthCode of a value (R71). -/
def classify (v : Word) : LengthCode :=
  if v ≤ 0xFF then 0 else if v ≤ 0xFFFF then 1 else if v ≤ 0xFFFFFF then 2 else 3

/-- The byte count a LengthCode stands for: code + 1 (R6). -/
def codeBytes (c : LengthCode) : Nat := c.toNat + 1

/-- The payload length of a coded block: the sum of the slots' byte counts (R64). -/
def payloadLen : List LengthCode → Nat
  | [] => 0
  | c :: cs => codeBytes c + payloadLen cs

/-- o_k, the payload offset of slot k: the byte counts of the slots before it (R63). -/
def slotOffset : List LengthCode → Nat → Nat
  | _, 0 => 0
  | [], _ + 1 => 0
  | c :: cs, k + 1 => codeBytes c + slotOffset cs k

/-- Operand assembly of a coded block: each slot takes its bytes off the front of the payload (R63). -/
def slotValues : List LengthCode → List Byte → List Word
  | [], _ => []
  | c :: cs, bytes => leValue (bytes.take (codeBytes c)) :: slotValues cs (bytes.drop (codeBytes c))

/-- The descriptor of the values of a coded block, slot k's LengthCode at bit `stride * k`: stride 2 for BASIC4, 4 for the
nibble variants (R60, R61, R62). -/
def descriptor (stride : Nat) : List Word → Byte
  | [] => 0
  | v :: vs => (classify v).setWidth 8 ||| (descriptor stride vs <<< stride)

/-- The payload of a coded block: each value in classify(v) + 1 little-endian bytes (R39, R60). -/
def payload : List Word → List Byte
  | [] => []
  | v :: vs => leBytes v (codeBytes (classify v)) ++ payload vs

/-- The literals of a raw block: v[7:0] of each value (R39, R60). -/
def literals (vs : List Word) : List Byte := vs.map fun v => v.extractLsb' 0 8

/-- The values of raw literals, zero-extended (R63). -/
def literalValues (bytes : List Byte) : List Word := bytes.map fun b => b.setWidth 32

/-- The fast-path test: at least 4 values remain and the next 4 are all <= 255 (R74, R84, R90). -/
def rawTest (vs : List Word) : Bool :=
  decide (Config.rawCount ≤ vs.length) && (vs.take Config.rawCount).all fun v => decide (v ≤ 0xFF)

end Sys2Proof.Machine
end

