-- ==== Sys2Proof/Machine/Framer.lean ====
section
/-! DEFINITION. The Group Framer of every variant as pure functions: `enc_block_V` and `dec_block_V` (41_basic4.md,
42_headerless_nibble.md, 43_sentinel_nibble.md). An encode function takes the values from cursor i on (an engine step
gives it the next min(4, n - i)) and answers the block's bytes and how many values it covers. A decode function takes the
bytes S from cursor p on and rem, and answers the values and the bytes consumed. -/

namespace Sys2Proof.Machine

/-! ### Encode -/

/-- The raw block of the first 4 values (R75, R85, R91). -/
def encRaw (v : Variant) (vs : List Word) : List Byte :=
  match v with
  | .basic4 => Config.basicMarker :: literals (vs.take 4)
  | .headerlessNib => literals (vs.take 4)
  | .sentinelNib => Config.nibbleMarker :: literals (vs.take 4)
  | .tableNib => Config.nibbleMarker :: literals (vs.take 4)

/-- `enc_coded_0` on the values it covers, at most 4 (R76), with the marker collision of R77. -/
def encCodedB4 (policy : FFPolicy) (group : List Word) : Except ErrCode (List Byte × Nat) :=
  if group.length = 4 ∧ descriptor 2 group = Config.basicMarker ∧ policy = .fault then .error .collision
  else .ok (descriptor 2 group :: payload group, group.length)

/-- `enc_nib_coded` on the values it covers, at most 2 (R82). -/
def encCodedNib (group : List Word) : Except ErrCode (List Byte × Nat) :=
  .ok (descriptor 4 group :: payload group, group.length)

/-- The coded block of the first min(GROUP, rem) values. -/
def encCoded (policy : FFPolicy) (v : Variant) (vs : List Word) : Except ErrCode (List Byte × Nat) :=
  match v with
  | .basic4 => encCodedB4 policy (vs.take 4)
  | .headerlessNib => encCodedNib (vs.take 2)
  | .sentinelNib => encCodedNib (vs.take 2)
  | .tableNib => encCodedNib (vs.take 2)

/-- `enc_block_V`: the raw block when the fast-path test holds, else the coded block (R74, R84, R90). -/
def encBlock (policy : FFPolicy) (v : Variant) (vs : List Word) : Except ErrCode (List Byte × Nat) :=
  if rawTest vs then .ok (encRaw v vs, Config.rawCount) else encCoded policy v vs

/-! ### Decode -/

/-- A marked raw block: 4 literals after the header; MALFORMED is checked before TRUNCATED (R79, R93). -/
def decRawMarked (S : List Byte) (rem : Nat) : Except ErrCode (List Word × Nat) :=
  if rem < 4 then .error .malformed
  else if S.length < 5 then .error .truncated
  else .ok (literalValues ((S.drop 1).take 4), 5)

/-- A headerless raw block: the header byte `h` is itself the first literal (R87). -/
def decRawHeaderless (h : Byte) (S : List Byte) (rem : Nat) : Except ErrCode (List Word × Nat) :=
  if rem < 4 then .error .malformed
  else if S.length < 4 then .error .truncated
  else .ok (literalValues (h :: (S.drop 1).take 3), 4)

/-- A coded block with the descriptor's LengthCodes `codes`, of which the first r = min(GROUP, rem) count (R80, R83). -/
def decCoded (codes : List LengthCode) (S : List Byte) (rem : Nat) : Except ErrCode (List Word × Nat) :=
  if S.length < 1 + payloadLen (codes.take rem) then .error .truncated
  else .ok (slotValues (codes.take rem) (S.drop 1), 1 + payloadLen (codes.take rem))

/-- A MALFORMED header ends DECODE (R65, R86, R92). -/
def decMalformed (_S : List Byte) (_rem : Nat) : Except ErrCode (List Word × Nat) := .error .malformed

/-- `dec_raw_V`. -/
def decRaw (v : Variant) (S : List Byte) (rem : Nat) : Except ErrCode (List Word × Nat) :=
  match v with
  | .basic4 => decRawMarked S rem
  | .headerlessNib => decRawHeaderless (S.headD 0) S rem
  | .sentinelNib => decRawMarked S rem
  | .tableNib => decRawMarked S rem

/-- The LengthCode fields of a descriptor under a variant (R61, R62). -/
def codesOf (v : Variant) (h : Byte) : List LengthCode :=
  match v with
  | .basic4 => codesB4 h
  | .headerlessNib => codesNib h
  | .sentinelNib => codesNib h
  | .tableNib => codesNib h

/-- `dec_block_V`: no header byte is ERR_TRUNCATED, else the header's class decides (R78, R86, R92). -/
def decBlock (v : Variant) (S : List Byte) (rem : Nat) : Except ErrCode (List Word × Nat) :=
  match S with
  | [] => .error .truncated
  | h :: _ =>
    match hdrClass v h with
    | .raw => decRaw v S rem
    | .coded => decCoded (codesOf v h) S rem
    | .malformed => decMalformed S rem

end Sys2Proof.Machine
end

