-- ==== Sys2Proof/Machine/Simd.lean ====
section
/-! DEFINITION. The SIMD Decode Accelerator as pure functions: the shuffle table's contents, the gather, and the decode of
one block by the table (45_simd.md R107 to R115). -/

namespace Sys2Proof.Machine

/-- Pattern byte of a lane: lane 4k + b takes payload byte o_k + b when b <= c_k, else ZERO_MARK; lanes of absent slots are
ZERO_MARK (R107, R108). -/
def patternByte (codes : List LengthCode) (lane : Nat) : Byte :=
  match codes[lane / 4]? with
  | none => Config.zeroMark
  | some c =>
    if lane % 4 ≤ c.toNat then BitVec.ofNat 8 (slotOffset codes (lane / 4) + lane % 4) else Config.zeroMark

/-- The entry of a legal descriptor (R108). -/
def validEntry (codes : List LengthCode) : Entry :=
  { pat := Vector.ofFn fun lane => patternByte codes lane.val, len := payloadLen codes, evalid := true }

/-- The entry of a byte that is no descriptor of the group width (R108). -/
def invalidEntry : Entry := { pat := Vector.replicate 16 Config.zeroMark, len := 0, evalid := false }

/-- `build_entry(g, d)` (R108), g = 4 or 2. -/
def buildEntry (g : Nat) (d : Byte) : Entry :=
  if g = 4 then validEntry (codesB4 d)
  else if d &&& 0xCC = 0 then validEntry (codesNib d)
  else invalidEntry

/-- The table TABLE_INIT builds for group width g (R109). -/
def buildTable (g : Nat) : Table := Vector.ofFn fun d => buildEntry g (BitVec.ofNat 8 d.val)

/-- The entry T[d]. -/
def Table.entry (t : Table) (d : Byte) : Entry := t[d.toNat]

/-- One gathered output byte: 0x00 for a zero marker, else the payload byte at the pattern's offset (R107, R112). -/
def gatherByte (x : Byte) (payloadBytes : List Byte) : Byte :=
  if x.getLsbD 7 then 0 else payloadBytes.getD (x.extractLsb' 0 4).toNat 0

/-- The pattern byte of lane `k`, 0 past the last lane. -/
def Entry.lane (e : Entry) (k : Nat) : Byte := e.pat.toList.getD k 0

/-- The gathered value of slot k: lanes 4k .. 4k+3 in little-endian order (R112). -/
def gatherValue (e : Entry) (payloadBytes : List Byte) (k : Nat) : Word :=
  leValue [gatherByte (e.lane (4 * k)) payloadBytes, gatherByte (e.lane (4 * k + 1)) payloadBytes,
    gatherByte (e.lane (4 * k + 2)) payloadBytes, gatherByte (e.lane (4 * k + 3)) payloadBytes]

/-- `gather(E, Q, G)` (R112). -/
def gather (e : Entry) (payloadBytes : List Byte) (g : Nat) : List Word :=
  (List.range g).map fun k => gatherValue e payloadBytes k

/-- A full coded group decoded by its table entry (R113). -/
def decGather (e : Entry) (g : Nat) (S : List Byte) : Except ErrCode (List Word × Nat) :=
  if S.length < 1 + e.len then .error .truncated
  else .ok (gather e ((S.drop 1).take e.len) g, 1 + e.len)

/-- `dec_block_simd_V` (R113): raw and malformed headers and the terminal partial group by the scalar rules, a full coded
group by the table. -/
def decBlockSimd (t : Table) (v : Variant) (S : List Byte) (rem : Nat) : Except ErrCode (List Word × Nat) :=
  match S with
  | [] => .error .truncated
  | h :: _ =>
    match hdrClass v h with
    | .raw => decRaw v S rem
    | .malformed => decMalformed S rem
    | .coded =>
      if rem < v.group then decCoded (codesOf v h) S rem else decGather (Table.entry t h) v.group S

end Sys2Proof.Machine
end

