-- ==== Sys2Proof/Machine/Engine.lean ====
section
/-! DEFINITION. The Scalar Encode/Decode Engine: the START checks (44_engine.md R97, R98) and the block steps (R99, R100)
that every ENCODE and DECODE shares. -/

namespace Sys2Proof.Machine

/-- `range_bad` on unbounded integers (R97). -/
def State.rangeBad (s : State) : Bool :=
  decide (Config.memSize < s.valBase.toNat + 4 * s.n) ||
    decide (Config.memSize < s.byteBase.toNat + s.byteCap.toNat)

/-- `overlap` (R97). -/
def State.overlap (s : State) : Bool :=
  decide (0 < s.n) && decide (0 < s.byteCap.toNat) &&
    decide (s.valBase.toNat < s.byteBase.toNat + s.byteCap.toNat) &&
    decide (s.byteBase.toNat < s.valBase.toNat + 4 * s.n)

/-- The table holds a build for the group width of `v`: TABLE_VALID = 1 and TABLE_G2 = (G(V) = 2) (R98, R110). -/
def State.tableReady (s : State) (v : Variant) : Bool :=
  s.status.tableValid && (s.status.tableG2 == decide (v.group = 2))

/-- The first START check that fails for an ENCODE or DECODE with ENG.op, ENG.V and ENG.simd as given, NONE when all pass
(R98, R119 item 1). -/
def State.startError (s : State) (op : EngOp) (v : Variant) (simd : Bool) : ErrCode :=
  if s.valBase.toNat % 4 ≠ 0 then .align
  else if s.rangeBad then .range
  else if s.overlap then .overlap
  else if op = .decode ∧ simd ∧ ¬s.tableReady v then .tableNotReady
  else .none

/-- The START step of ENCODE or DECODE after ENG is loaded: the checks, then RUN (R98). -/
def startCodec (s : State) : State :=
  match s.startError s.eng.op s.eng.variant s.eng.simd with
  | .none => { s with eng := { s.eng with phase := .run } }
  | e => s.complete e

/-- The write of an encoded block at cursor p and the advance of both cursors (R99). -/
def State.putBlock (s : State) (block : List Byte) (k : Nat) : State :=
  { s with
    mem := s.engWriteBytes s.mem s.byteAddr block
    race := s.engRaceBytes s.byteAddr block
    eng := { s.eng with p := s.eng.p + block.length, i := s.eng.i + k } }

/-- The ENCODE RUN step (R99): COLLISION before DST_OVERFLOW, and no byte is written before the capacity check. -/
def encodeRun (s : State) : State :=
  if s.eng.i = s.n then s.complete .none
  else
    match encBlock s.cfg.ffPolicy s.eng.variant s.nextValues with
    | .error e => s.complete e
    | .ok (block, k) =>
      if s.byteCap.toNat < s.eng.p + block.length then s.complete .dstOverflow else s.putBlock block k

/-- The writes of a decoded block's values as little-endian words from cursor i on and the advance of both cursors
(R100). -/
def State.putValues (s : State) (values : List Word) (len : Nat) : State :=
  { s with
    mem := s.engWriteBytes s.mem s.valAddr (values.flatMap fun v => leBytes v 4)
    race := s.engRaceBytes s.valAddr (values.flatMap fun v => leBytes v 4)
    eng := { s.eng with i := s.eng.i + values.length, p := s.eng.p + len } }

/-- One DECODE block step with the block function `dec` (R100). -/
def decodeBlock (dec : List Byte → Nat → Except ErrCode (List Word × Nat)) (s : State) : State :=
  match dec s.stream s.rem with
  | .error e => s.complete e
  | .ok (values, len) => s.putValues values len

/-- The block function ENG.V and ENG.simd select (R100, R113). -/
def State.blockDecoder (s : State) : List Byte → Nat → Except ErrCode (List Word × Nat) :=
  if s.eng.simd then decBlockSimd s.table s.eng.variant else decBlock s.eng.variant

/-- The DECODE RUN step (R100). -/
def decodeRun (s : State) : State :=
  if s.eng.i = s.n then s.complete .none else decodeBlock s.blockDecoder s

/-- The block function of a CODED header `h` with LengthCodes `codes`: the table for a full group when ENG.simd = 1, else
the scalar rule (R80, R83, R113). -/
def State.codedDecoder (s : State) (v : Variant) (h : Byte) (codes : List LengthCode) (S : List Byte) (rem : Nat) :
    Except ErrCode (List Word × Nat) :=
  if s.eng.simd ∧ v.group ≤ rem then decGather (Table.entry s.table h) v.group S else decCoded codes S rem

/-- ENCODE with variant `v` (R104). -/
def encodeCommand (v : Variant) (s : State) : Host.Outcome State Fault Refusal :=
  runCommand (fun s => startCodec (s.load .encode v false)) encodeRun s

/-- DECODE with variant `v` and SIMD bit `bit6` (R105). -/
def decodeCommand (v : Variant) (bit6 : Bool) (s : State) : Host.Outcome State Fault Refusal :=
  runCommand (fun s => startCodec (s.load .decode v bit6)) decodeRun s

/-- TABLE_INIT for the group width of `v` (R109): one step builds all 256 entries (log 15). -/
def tableInitCommand (v : Variant) (s : State) : Host.Outcome State Fault Refusal :=
  runCommand
    (fun s =>
      let s := s.load .tableInit v false
      State.complete .none
        { s with
          table := buildTable v.group
          status := { s.status with tableG2 := decide (v.group = 2), tableValid := true } })
    (fun s => s) s

end Sys2Proof.Machine
end

