-- ==== Sys2Proof/Machine/Basic4.lean ====
section
/-! DEFINITION. The header instructions of variant 0, BASIC4 (41_basic4.md R78 to R80; 45_simd.md R113): what a DECODE RUN
step does with the block it finds at cursor p. -/

namespace Sys2Proof.Machine

/-- B4.RAW: four literals after the marker (R79). -/
def execB4Raw (s : State) : Host.Outcome State Fault Refusal := .next (decodeBlock decRawMarked s)

/-- B4.CODED: the payload of up to four slots (R80, R113). -/
def execB4Coded (c0 c1 c2 c3 : LengthCode) (s : State) : Host.Outcome State Fault Refusal :=
  .next (decodeBlock (s.codedDecoder .basic4 (b4Descriptor c0 c1 c2 c3) [c0, c1, c2, c3]) s)

end Sys2Proof.Machine
end

