-- ==== Sys2Proof/Machine/DecodeCmd.lean ====
section
/-! DEFINITION. The eight DECODE commands (44_engine.md R98, R100, R105; 45_simd.md R110, R111, R113). -/

namespace Sys2Proof.Machine

/-- DECODE.B4 (R105, R78). -/
def execDecodeB4 (s : State) : Host.Outcome State Fault Refusal := decodeCommand .basic4 false s

/-- DECODE.B4.SIMD (R105, R113). -/
def execDecodeB4Simd (s : State) : Host.Outcome State Fault Refusal := decodeCommand .basic4 true s

/-- DECODE.HN (R105, R86). -/
def execDecodeHn (s : State) : Host.Outcome State Fault Refusal := decodeCommand .headerlessNib false s

/-- DECODE.HN.SIMD (R105, R113). -/
def execDecodeHnSimd (s : State) : Host.Outcome State Fault Refusal := decodeCommand .headerlessNib true s

/-- DECODE.SN (R105, R92). -/
def execDecodeSn (s : State) : Host.Outcome State Fault Refusal := decodeCommand .sentinelNib false s

/-- DECODE.SN.SIMD (R105, R113). -/
def execDecodeSnSimd (s : State) : Host.Outcome State Fault Refusal := decodeCommand .sentinelNib true s

/-- DECODE.TN, which takes the SIMD path without the SIMD bit (R105, R111). -/
def execDecodeTn (s : State) : Host.Outcome State Fault Refusal := decodeCommand .tableNib false s

/-- DECODE.TN.SIMD (R105, R111). -/
def execDecodeTnSimd (s : State) : Host.Outcome State Fault Refusal := decodeCommand .tableNib true s

end Sys2Proof.Machine
end

