-- ==== Sys2Proof/Machine/EncodeCmd.lean ====
section
/-! DEFINITION. The four ENCODE commands (44_engine.md R98, R99, R104). -/

namespace Sys2Proof.Machine

/-- ENCODE.B4 (R104, R74 to R77). -/
def execEncodeB4 (s : State) : Host.Outcome State Fault Refusal := encodeCommand .basic4 s

/-- ENCODE.HN (R104, R82, R84, R85). -/
def execEncodeHn (s : State) : Host.Outcome State Fault Refusal := encodeCommand .headerlessNib s

/-- ENCODE.SN (R104, R82, R90, R91). -/
def execEncodeSn (s : State) : Host.Outcome State Fault Refusal := encodeCommand .sentinelNib s

/-- ENCODE.TN (R104, R82, R90, R91, R111). -/
def execEncodeTn (s : State) : Host.Outcome State Fault Refusal := encodeCommand .tableNib s

end Sys2Proof.Machine
end

