-- ==== Sys2Proof/Machine/HeaderlessNib.lean ====
section
/-! DEFINITION. The header instructions of variant 1, HEADERLESS_NIB (42_headerless_nibble.md R83, R86, R87; 45_simd.md
R113). -/

namespace Sys2Proof.Machine

/-- HN.RAW.LO: a raw block whose first literal is 0x40..0x7F (R87). -/
def execHnRawLo (x : BitVec 6) (s : State) : Host.Outcome State Fault Refusal :=
  .next (decodeBlock (decRawHeaderless (0x40 ||| x.setWidth 8)) s)

/-- HN.RAW.HI: a raw block whose first literal is 0x80..0xFF (R87). -/
def execHnRawHi (x : BitVec 7) (s : State) : Host.Outcome State Fault Refusal :=
  .next (decodeBlock (decRawHeaderless (0x80 ||| x.setWidth 8)) s)

/-- HN.CODED: the payload of up to two slots (R83, R113). -/
def execHnCoded (c0 c1 : LengthCode) (s : State) : Host.Outcome State Fault Refusal :=
  .next (decodeBlock (s.codedDecoder .headerlessNib (nibDescriptor c0 c1) [c0, c1]) s)

/-- HN.MALFORMED: ends DECODE with ERR_MALFORMED (R65, R86). -/
def execHnMalformed (_h : Byte) (s : State) : Host.Outcome State Fault Refusal :=
  .next (decodeBlock decMalformed s)

end Sys2Proof.Machine
end

