-- ==== Sys2Proof/Machine/SentinelNib.lean ====
section
/-! DEFINITION. The header instructions of variant 2, SENTINEL_NIB (43_sentinel_nibble.md R92, R93;
42_headerless_nibble.md R83; 45_simd.md R113). -/

namespace Sys2Proof.Machine

/-- SN.RAW: four literals after the marker 0xF0 (R93). -/
def execSnRaw (s : State) : Host.Outcome State Fault Refusal := .next (decodeBlock decRawMarked s)

/-- SN.CODED: the payload of up to two slots (R83, R113). -/
def execSnCoded (c0 c1 : LengthCode) (s : State) : Host.Outcome State Fault Refusal :=
  .next (decodeBlock (s.codedDecoder .sentinelNib (nibDescriptor c0 c1) [c0, c1]) s)

/-- SN.MALFORMED: ends DECODE with ERR_MALFORMED (R65, R92). -/
def execSnMalformed (_h : Byte) (s : State) : Host.Outcome State Fault Refusal :=
  .next (decodeBlock decMalformed s)

end Sys2Proof.Machine
end

