-- ==== Sys2Proof/Machine/SystemCmd.lean ====
section
/-! DEFINITION. CLASSIFY (40_classifier.md R73), the four TABLE_INIT commands (45_simd.md R109) and ILLEGAL
(30_encoding.md R58, 44_engine.md R98). -/

namespace Sys2Proof.Machine

/-- CLASSIFY: CLASS_OUT <- classify(CLASS_IN) (R73). -/
def execClassify (s : State) : Host.Outcome State Fault Refusal :=
  runCommand
    (fun s => State.complete .none { s.load .classify .basic4 false with classOut := classify s.classIn })
    (fun s => s) s

/-- TABLE_INIT.B4, group width 4 (R109). -/
def execTableInitB4 (s : State) : Host.Outcome State Fault Refusal := tableInitCommand .basic4 s

/-- TABLE_INIT.HN, group width 2 (R109). -/
def execTableInitHn (s : State) : Host.Outcome State Fault Refusal := tableInitCommand .headerlessNib s

/-- TABLE_INIT.SN, group width 2 (R109). -/
def execTableInitSn (s : State) : Host.Outcome State Fault Refusal := tableInitCommand .sentinelNib s

/-- TABLE_INIT.TN, group width 2 (R109). -/
def execTableInitTn (s : State) : Host.Outcome State Fault Refusal := tableInitCommand .tableNib s

/-- ILLEGAL: the command ends with ERR_ILLEGAL_CMD whatever the word (R58, R67, R98). -/
def execIllegal (_w : Word) (s : State) : Host.Outcome State Fault Refusal :=
  runCommand (fun s => s.loadIllegal.complete .illegalCmd) (fun s => s) s

end Sys2Proof.Machine
end

