-- ==== Sys2Proof/Machine/TableNib.lean ====
section
/-! DEFINITION. The header instructions of variant 3, TABLE_NIB: the framing of SENTINEL_NIB, with full coded groups
decoded by the shuffle table (43_sentinel_nibble.md R92, R93; 45_simd.md R111, R113). -/

namespace Sys2Proof.Machine

/-- TN.RAW: four literals after the marker 0xF0 (R93). -/
def execTnRaw (s : State) : Host.Outcome State Fault Refusal := .next (decodeBlock decRawMarked s)

/-- TN.CODED: a full group by the table, the terminal partial group by the scalar rule (R113, R83). -/
def execTnCoded (c0 c1 : LengthCode) (s : State) : Host.Outcome State Fault Refusal :=
  .next (decodeBlock (s.codedDecoder .tableNib (nibDescriptor c0 c1) [c0, c1]) s)

/-- TN.MALFORMED: ends DECODE with ERR_MALFORMED (R65, R92). -/
def execTnMalformed (_h : Byte) (s : State) : Host.Outcome State Fault Refusal :=
  .next (decodeBlock decMalformed s)

end Sys2Proof.Machine
end

