-- ==== Sys2Proof/Machine/Dispatch.lean ====
section
/-! DEFINITION. The meaning of every instruction, one arm per constructor of `Instr`. -/

namespace Sys2Proof.Machine

def exec (i : Instr) (s : State) : Host.Outcome State Fault Refusal :=
  match i with
  | .encodeB4 => Sys2Proof.Machine.execEncodeB4 s
  | .encodeHn => Sys2Proof.Machine.execEncodeHn s
  | .encodeSn => Sys2Proof.Machine.execEncodeSn s
  | .encodeTn => Sys2Proof.Machine.execEncodeTn s
  | .decodeB4 => Sys2Proof.Machine.execDecodeB4 s
  | .decodeB4Simd => Sys2Proof.Machine.execDecodeB4Simd s
  | .decodeHn => Sys2Proof.Machine.execDecodeHn s
  | .decodeHnSimd => Sys2Proof.Machine.execDecodeHnSimd s
  | .decodeSn => Sys2Proof.Machine.execDecodeSn s
  | .decodeSnSimd => Sys2Proof.Machine.execDecodeSnSimd s
  | .decodeTn => Sys2Proof.Machine.execDecodeTn s
  | .decodeTnSimd => Sys2Proof.Machine.execDecodeTnSimd s
  | .classify => Sys2Proof.Machine.execClassify s
  | .tableInitB4 => Sys2Proof.Machine.execTableInitB4 s
  | .tableInitHn => Sys2Proof.Machine.execTableInitHn s
  | .tableInitSn => Sys2Proof.Machine.execTableInitSn s
  | .tableInitTn => Sys2Proof.Machine.execTableInitTn s
  | .illegal w => Sys2Proof.Machine.execIllegal w s
  | .b4Raw => Sys2Proof.Machine.execB4Raw s
  | .b4Coded c0 c1 c2 c3 => Sys2Proof.Machine.execB4Coded c0 c1 c2 c3 s
  | .hnRawLo x => Sys2Proof.Machine.execHnRawLo x s
  | .hnRawHi x => Sys2Proof.Machine.execHnRawHi x s
  | .hnCoded c0 c1 => Sys2Proof.Machine.execHnCoded c0 c1 s
  | .hnMalformed h => Sys2Proof.Machine.execHnMalformed h s
  | .snRaw => Sys2Proof.Machine.execSnRaw s
  | .snCoded c0 c1 => Sys2Proof.Machine.execSnCoded c0 c1 s
  | .snMalformed h => Sys2Proof.Machine.execSnMalformed h s
  | .tnRaw => Sys2Proof.Machine.execTnRaw s
  | .tnCoded c0 c1 => Sys2Proof.Machine.execTnCoded c0 c1 s
  | .tnMalformed h => Sys2Proof.Machine.execTnMalformed h s

end Sys2Proof.Machine
end

