-- ==== Sys2Proof/Machine/Fetch.lean ====
section
/-! DEFINITION. What the engine runs in a step: the command word in its START step and in ENCODE's RUN steps, the block
header at cursor p in DECODE's RUN steps (44_engine.md R98 to R100; 10_state.md R16); and the run of a command to its
completion, which a host read and a reset look ahead to. -/

namespace Sys2Proof.Machine

/-- A DECODE RUN step that has a value to produce and a byte left finds a header at cursor p (R100). -/
def State.headerDue (s : State) : Bool :=
  decide (s.eng.phase = .run) && decide (s.eng.op = .decode) && decide (s.eng.i < s.n) &&
    decide (s.eng.p < s.byteCap.toNat)

/-- The instruction the engine runs next: the header's, decoded under ENG.V, or the command's. -/
def State.fetch (s : State) : Instr :=
  if s.headerDue then decodeHdr s.eng.variant (s.engRead s.byteAddr) else decodeCmd s.eng.w

/-- One turn of the engine: with no command running it takes no step and holds its state (R130), else it runs the
instruction it fetches, with a draw of its own (log 17). -/
def engineTurn (s : State) : Host.Outcome State Fault Refusal :=
  if s.eng.phase = .idle then .next s else exec s.tick.fetch s.tick

/-- The engine's next turns, at most `fuel`, until no command runs and with no host access between. -/
def State.runOn : Nat → State → State
  | 0, s => s
  | fuel + 1, s =>
    if s.eng.phase = .idle then s
    else
      match engineTurn s with
      | .next t => t.runOn fuel
      | .fault _ => s
      | .refused _ => s

/-- Where the running command ends if the host does nothing more: it completes within n + 2 engine steps (R103). Its free
values are drawn from number `draw` on (log 8, log 9). -/
def State.outlook (s : State) (draw : Nat) : State := State.runOn (s.n + 2) { s with inputs := [], draws := draw }

/-- The DECODE command word of a variant, SIMD bit clear (R105). -/
def decodeWordOf : Variant → Word
  | .basic4 => 0x00000002
  | .headerlessNib => 0x00000012
  | .sentinelNib => 0x00000022
  | .tableNib => 0x00000032

/-- A running DECODE of 4 values at its first block, whose 17 bytes of BB hold the header `h` and then zeros (log 12). -/
def State.withHeader (s : State) (v : Variant) (h : Byte) : State :=
  { s with
    inputs := []
    race := []
    status := s.status.accepted
    valBase := 0x20
    valCount := 4
    byteBase := 0
    byteCap := 17
    mem := Memory.writeBytes s.mem 0 (h :: List.replicate 16 0)
    before := Memory.writeBytes s.mem 0 (h :: List.replicate 16 0)
    eng := { phase := .run, op := .decode, w := decodeWordOf v, variant := v, simd := false, i := 0, p := 0 } }

/-- The command word `w` accepted and not yet started (R96). -/
def State.withCommand (s : State) (w : Word) : State :=
  { s with
    inputs := []
    race := []
    before := s.mem
    status := s.status.accepted
    eng := { s.eng with w := w, phase := .start } }

end Sys2Proof.Machine
end

