-- ==== Sys2Proof/Machine/Flags.lean ====
section
/-! DEFINITION. STATUS as a register (10_state.md R20) and the numbers of the error codes (60_exceptions.md R117). The
block has no condition codes (R33). -/

namespace Sys2Proof.Machine

/-- The value of STATUS.ERRCODE for each outcome (R117). -/
def ErrCode.code : ErrCode → BitVec 4
  | .none => 0
  | .illegalCmd => 1
  | .align => 2
  | .range => 3
  | .overlap => 4
  | .tableNotReady => 5
  | .dstOverflow => 6
  | .collision => 7
  | .truncated => 8
  | .malformed => 9

/-- A one-bit field at bit `k` of a 32-bit register. -/
def bitField (b : Bool) (k : Nat) : Word := (BitVec.ofBool b).setWidth 32 <<< k

/-- The 32-bit STATUS register: BUSY [0], DONE [1], ERR [2], ERRCODE [7:4], TABLE_VALID [8], TABLE_G2 [9] (R20). -/
def Status.word (st : Status) : Word :=
  bitField st.busy 0 ||| bitField st.done 1 ||| bitField st.err 2 ||| (st.errcode.code.setWidth 32 <<< 4) |||
    bitField st.tableValid 8 ||| bitField st.tableG2 9

end Sys2Proof.Machine
end

