-- ==== Sys2Proof/Machine/HostPort.lean ====
section
/-! DEFINITION. The host's side: the register window (10_state.md R17 to R32), the host's accesses to `Mem`
(20_memory.md R49 to R51) and the reset input (70_reset_and_hazards.md R131). -/

namespace Sys2Proof.Machine

/-- The registers of the window (R17). -/
inductive Reg where
  | cmd
  | status
  | valBase
  | valCount
  | byteBase
  | byteCap
  | result
  | vdone
  | classIn
  | classOut
  | tblSel
  | tblInfo
  | tblPat0
  | tblPat1
  | tblPat2
  | tblPat3
  | id
  | version
  deriving DecidableEq, Repr

/-- The offset of a register from REG_BASE (R17). -/
def Reg.offset : Reg → Nat
  | .cmd => 0x00
  | .status => 0x04
  | .valBase => 0x08
  | .valCount => 0x0C
  | .byteBase => 0x10
  | .byteCap => 0x14
  | .result => 0x18
  | .vdone => 0x1C
  | .classIn => 0x20
  | .classOut => 0x24
  | .tblSel => 0x28
  | .tblInfo => 0x2C
  | .tblPat0 => 0x30
  | .tblPat1 => 0x34
  | .tblPat2 => 0x38
  | .tblPat3 => 0x3C
  | .id => 0x40
  | .version => 0x44

/-- All registers, in the order of the map. -/
def Reg.all : List Reg :=
  [.cmd, .status, .valBase, .valCount, .byteBase, .byteCap, .result, .vdone, .classIn, .classOut, .tblSel, .tblInfo,
    .tblPat0, .tblPat1, .tblPat2, .tblPat3, .id, .version]

/-- The register at an aligned offset of the window, none for the reserved offsets 0x48 to 0xFC (R17). -/
def Reg.at (offset : Nat) : Option Reg := Reg.all.find? fun r => r.offset == offset

/-- Four pattern bytes as a register image, lane 4k in bits [7:0] (R31). -/
def Entry.patWord (e : Entry) (k : Nat) : Word :=
  leValue [e.lane (4 * k), e.lane (4 * k + 1), e.lane (4 * k + 2), e.lane (4 * k + 3)]

/-- TBL_INFO of an entry: LEN in bits [4:0], EVALID in bit [8] (R30). -/
def Entry.infoWord (e : Entry) : Word := (BitVec.ofNat 5 e.len).setWidth 32 ||| bitField e.evalid 8

/-- The entry the readback registers show: T[TBL_SEL.INDEX] (R29). -/
def State.selected (s : State) : Entry := Table.entry s.table s.tblSel

/-- A readback register reads its view of the selected entry while TABLE_VALID = 1, else 0 (R30, R31). -/
def State.whenTableValid (s : State) (view : Word) : Word := if s.status.tableValid then view else 0

/-- What a host read of a register returns, at every time (R17, R18 items 3 and 5, R19 to R32). -/
def State.readReg (s : State) : Reg → Word
  | .cmd => 0
  | .status => s.status.word
  | .valBase => s.valBase
  | .valCount => s.valCount
  | .byteBase => s.byteBase
  | .byteCap => s.byteCap
  | .result => s.result
  | .vdone => s.vdone
  | .classIn => s.classIn
  | .classOut => s.classOut.setWidth 32
  | .tblSel => s.tblSel.setWidth 32
  | .tblInfo => s.whenTableValid s.selected.infoWord
  | .tblPat0 => s.whenTableValid (s.selected.patWord 0)
  | .tblPat1 => s.whenTableValid (s.selected.patWord 1)
  | .tblPat2 => s.whenTableValid (s.selected.patWord 2)
  | .tblPat3 => s.whenTableValid (s.selected.patWord 3)
  | .id => 0x55433847
  | .version => 0x00000001

/-- A host write of `v` to a register while BUSY = 0: a read-write register takes it, CMD starts a command, a read-only
register ignores it (R18 items 2 and 6, R19 to R32). -/
def State.storeReg (s : State) (v : Word) : Reg → State
  | .cmd => s.accept v
  | .status => s
  | .valBase => { s with valBase := v }
  | .valCount => { s with valCount := v }
  | .byteBase => { s with byteBase := v }
  | .byteCap => { s with byteCap := v }
  | .result => s
  | .vdone => s
  | .classIn => { s with classIn := v }
  | .classOut => s
  | .tblSel => { s with tblSel := v.extractLsb' 0 8 }
  | .tblInfo => s
  | .tblPat0 => s
  | .tblPat1 => s
  | .tblPat2 => s
  | .tblPat3 => s
  | .id => s
  | .version => s

/-- A host write of `v` at an aligned offset of the window: without effect while BUSY = 1 or at a reserved offset
(R18 items 2 and 4). -/
def State.writeOffset (s : State) (offset : Nat) (v : Word) : State :=
  if s.status.busy then s
  else
    match Reg.at offset with
    | none => s
    | some r => s.storeReg v r

/-- A host read at an aligned offset of the window; a reserved offset reads 0 (R18 items 3 and 5). -/
def State.readOffset (s : State) (offset : Nat) : Word :=
  match Reg.at offset with
  | none => 0
  | some r => s.readReg r

/-- The offset of an admitted register access: inside the window, 32 bits wide, a multiple of 4 from REG_BASE (R17, R18
item 1). -/
def State.windowOffset (s : State) (size : AccessSize) (addr : Nat) : Except Refusal Nat :=
  if addr < s.cfg.regBase ∨ s.cfg.regBase + Config.windowSize ≤ addr then .error .outsideWindow
  else if size ≠ .word ∨ (addr - s.cfg.regBase) % 4 ≠ 0 then .error .accessNotAdmitted
  else .ok (addr - s.cfg.regBase)

/-- The bytes an access moves. -/
def AccessSize.bytes : AccessSize → Nat
  | .byte => 1
  | .half => 2
  | .word => 4

/-- A host write to the register window (R18). -/
def hostRegWrite (size : AccessSize) (addr : Nat) (v : Word) (s : State) : Host.Outcome State Fault Refusal :=
  match s.windowOffset size addr with
  | .error r => .refused r
  | .ok offset => .next (s.writeOffset offset v)

/-- A host read of the register window (R18). -/
def hostRegRead (size : AccessSize) (addr : Nat) (s : State) : Host.Outcome State Fault Refusal :=
  match s.windowOffset size addr with
  | .error r => .refused r
  | .ok offset => .next { s with hostData := s.readOffset offset }

/-- A host write to `Mem`, at every address (R49, R51; log 11, log 20). -/
def hostMemWrite (size : AccessSize) (addr : Nat) (v : Word) (s : State) : Host.Outcome State Fault Refusal :=
  if Config.memSize < addr + size.bytes then .fault .outsideMem
  else .next (s.hostWriteBytes addr (leBytes v size.bytes))

/-- The byte a host read of `Mem` returns: the byte last written; in a buffer of the running command it may also be the
byte from before the command or a byte the engine has written or writes there until it completes, drawn (R51, log 8). -/
def State.hostReadByte (s : State) (a : Nat) : Byte :=
  if s.ownsBuffers && (s.inVB a || s.inBB a) then
    s.drawByte a (Memory.read s.mem a)
      ((Memory.read s.before a :: Memory.read (s.outlook (Config.freeRun s.draws a)).mem a :: s.racedBytes a).filter
        fun b => b != Memory.read s.mem a)
  else Memory.read s.mem a

/-- A host read of `k` bytes. -/
def State.hostReadBytes (s : State) (a : Nat) : Nat → List Byte
  | 0 => []
  | k + 1 => s.hostReadByte a :: s.hostReadBytes (a + 1) k

/-- A host read of `Mem`, at every address and zero-extended (R41, R50, R51; log 11, log 20). -/
def hostMemRead (size : AccessSize) (addr : Nat) (s : State) : Host.Outcome State Fault Refusal :=
  if Config.memSize < addr + size.bytes then .fault .outsideMem
  else .next { s with hostData := leValue (s.hostReadBytes addr size.bytes) }

/-- The poll that ends WAIT: RD STATUS with BUSY = 0 (R69). -/
def hostPoll (s : State) : Host.Outcome State Fault Refusal := .next { s with hostData := s.status.word }

/-- The bytes the running command could have written, as base and length: the stream bytes of ENCODE and the value words of
DECODE up to the cursor it would have ended at; none for every other command (R45, R131; log 9). -/
def State.couldWrite (s : State) : Nat × Nat :=
  if s.status.busy then
    match codecOp (decodeCmd s.eng.w) with
    | none => (0, 0)
    | some (op, _, _) =>
      if op = .encode then (s.byteBase.toNat, (s.outlook (Config.freeRun s.draws 0)).eng.p)
      else (s.valBase.toNat, 4 * (s.outlook (Config.freeRun s.draws 0)).eng.i)
  else (0, 0)

/-- `len` bytes from `base` on become free bytes (R131; log 9). -/
def Memory.scramble (draw : Nat) (m : Memory) (base : Nat) : Nat → Memory
  | 0 => m
  | k + 1 => Memory.scramble draw (Memory.write m base (Config.freeByte draw base)) (base + 1) k

/-- The reset input, at any time (R131): the block's state is that of reset, `Mem` is unchanged but for the bytes an
abandoned command could have written, and no completion is signalled. The host's own fields stay. -/
def hostReset (s : State) : Host.Outcome State Fault Refusal :=
  .next
    { State.reset with
      cfg := s.cfg
      mem := Memory.scramble s.draws s.mem s.couldWrite.1 s.couldWrite.2
      inputs := s.inputs
      hostData := s.hostData
      draws := s.draws }

end Sys2Proof.Machine
end

