-- ==== Sys2Proof/Machine/Step.lean ====
section
/-! DEFINITION. One step of the machine: the next entry of the interleaving is a host access, a reset pulse or a turn of
the engine, and with none pending the engine moves (10_state.md R14, 44_engine.md R103, 70_reset_and_hazards.md R138;
log 1, log 2). -/

namespace Sys2Proof.Machine

/-- The state with the entry at the head of the interleaving consumed. -/
def State.pop (s : State) (rest : List Input) : State := { s with inputs := rest }

/-- One step. -/
def step (s : State) : Host.Outcome State Fault Refusal :=
  match s.inputs with
  | [] => engineTurn s
  | .engine :: rest => engineTurn (s.pop rest)
  | .wait :: rest => if s.status.busy then engineTurn s else hostPoll (s.pop rest).tick
  | .regWrite size addr v :: rest => hostRegWrite size addr v (s.pop rest).tick
  | .regRead size addr :: rest => hostRegRead size addr (s.pop rest).tick
  | .memWrite size addr v :: rest => hostMemWrite size addr v (s.pop rest).tick
  | .memRead size addr :: rest => hostMemRead size addr (s.pop rest).tick
  | .reset :: rest => hostReset (s.pop rest).tick

/-- The state whose next step fetches and runs the table row's instruction with bits `w`: a 32-bit command word is
accepted and about to start, an 8-bit header stands at the head of a running DECODE's byte buffer (log 12). -/
def State.withFetchWord (s : State) (nbits w : Nat) : State :=
  if nbits = 32 then s.withCommand (BitVec.ofNat 32 w)
  else s.withHeader (tableVariant (BitVec.ofNat 8 w)) (BitVec.ofNat 8 w)

end Sys2Proof.Machine
end

