-- ==== Sys2Proof/Machine/HostSyntax.lean ====
section
/-! DEFINITION. The host's program notation of 30_encoding.md R69 and the pseudo-instructions of R70, as lists of
inputs. -/

namespace Sys2Proof.Machine

/-- `WR <REG>, <imm32>` (R69). -/
def wr (cfg : Config) (r : Reg) (v : Word) : Input := .regWrite .word (cfg.regBase + r.offset) v

/-- `RD <REG> -> <name>` (R69); the value read is `State.hostData`. -/
def rd (cfg : Config) (r : Reg) : Input := .regRead .word (cfg.regBase + r.offset)

/-- `WAIT` (R69). -/
def waitDone : Input := .wait

/-- `MEM <addr>: <b0> <b1> ...`, a start state of `Mem` (R69). -/
def memBytes (m : Memory) (addr : Nat) (bytes : List Byte) : Memory := Memory.writeBytes m addr bytes

/-- `MEM32 <addr>: <v0>, <v1>, ...`, a start state of `Mem` (R69). -/
def memWords (m : Memory) (addr : Nat) (values : List Word) : Memory :=
  Memory.writeBytes m addr (values.flatMap fun v => leBytes v 4)

/-- The command word an instruction stands for; a block header is none (R70). -/
def cmdWord (i : Instr) : Option Word :=
  match encode i with
  | .cmd w => some w
  | .hdr _ _ => none

/-- `ENCODE.V`, `DECODE.V`, `DECODE.V.SIMD`, `CLASSIFY`, `TABLE_INIT.V`: a write of the word to CMD (R70). -/
def issue (cfg : Config) (i : Instr) : List Input :=
  match cmdWord i with
  | some w => [wr cfg .cmd w]
  | none => []

/-- `RUN <cmd>`: the command, then WAIT (R70). -/
def runCmd (cfg : Config) (i : Instr) : List Input := issue cfg i ++ [waitDone]

/-- `SETBUF <vb>, <n>, <bb>, <cap>` (R70). -/
def setBuf (cfg : Config) (vb n bb cap : Word) : List Input :=
  [wr cfg .valBase vb, wr cfg .valCount n, wr cfg .byteBase bb, wr cfg .byteCap cap]

end Sys2Proof.Machine
end

