-- ==== Sys2Proof/Machine/Stream.lean ====
section
/-! DEFINITION. Whole streams as pure functions: `encode_V(vals)`, the concatenation of the blocks the encoder gives
(44_engine.md R104), and `decode_V` (R105). The step function does not use them; statements do. -/

namespace Sys2Proof.Machine

/-- The blocks of `vs` in order; `fuel` bounds the blocks, and every block covers at least one value. -/
def encodeBlocks (policy : FFPolicy) (v : Variant) : Nat → List Word → Except ErrCode (List (List Byte))
  | 0, _ => .ok []
  | _ + 1, [] => .ok []
  | fuel + 1, x :: xs =>
    match encBlock policy v (x :: xs) with
    | .error e => .error e
    | .ok (block, k) =>
      match encodeBlocks policy v fuel ((x :: xs).drop k) with
      | .error e => .error e
      | .ok blocks => .ok (block :: blocks)

/-- The blocks of `encode_V(vals)` (R60, R104). -/
def encodeAll (policy : FFPolicy) (v : Variant) (vs : List Word) : Except ErrCode (List (List Byte)) :=
  encodeBlocks policy v vs.length vs

/-- Decode `n` values from the front of `S` by the block function `dec`: the values and the bytes consumed; `fuel` bounds
the blocks. -/
def decodeBlocks (dec : List Byte → Nat → Except ErrCode (List Word × Nat)) :
    Nat → List Byte → Nat → Except ErrCode (List Word × Nat)
  | 0, _, _ => .ok ([], 0)
  | _ + 1, _, 0 => .ok ([], 0)
  | fuel + 1, S, n + 1 =>
    match dec S (n + 1) with
    | .error e => .error e
    | .ok (values, len) =>
      match decodeBlocks dec fuel (S.drop len) (n + 1 - values.length) with
      | .error e => .error e
      | .ok (rest, len') => .ok (values ++ rest, len + len')

/-- `decode_V` of `n` values (R105). -/
def decodeAll (dec : List Byte → Nat → Except ErrCode (List Word × Nat)) (S : List Byte) (n : Nat) :
    Except ErrCode (List Word × Nat) :=
  decodeBlocks dec n S n

/-- The sum of the byte counts classify(v_k) + 1 (R81, R89, R95). -/
def payloadTotal (vs : List Word) : Nat := (vs.map fun v => codeBytes (classify v)).sum

end Sys2Proof.Machine
end

