-- ==== Sys2Proof/Safety.lean ====
section
/-! DEFINITION. What a safe state of the block is: the relations the spec gives between the pieces of state. Claims that
need more than the shape of State take `Inv` as a premise; that every step keeps it and that it holds at reset are claims
of their own. -/

namespace Sys2Proof.Machine

/-- ENG holds what the running ENCODE or DECODE loaded at START, its START checks still pass, and the cursors lie within
their buffers (R16, R35, R98). -/
def State.runConsistent (s : State) : Prop :=
  ∃ op v b, codecOp (decodeCmd s.eng.w) = some (op, v, b) ∧ s.eng.op = op ∧ s.eng.variant = v ∧
    s.eng.simd = (b || v == .tableNib) ∧ s.startError op v s.eng.simd = .none ∧
    s.eng.i ≤ s.n ∧ s.eng.p ≤ s.byteCap.toNat

/-- The invariant of the block. -/
structure State.Inv (s : State) : Prop where
  /-- `Mem` is in canonical form. -/
  memWf : Memory.wf s.mem = true
  /-- Every byte of `Mem` lies below 2^32 (R37). -/
  memInSpace : Memory.inSpace s.mem = true
  /-- STATUS.BUSY = 1 exactly when ENG.phase is not IDLE (R35). -/
  busyIffRunning : s.status.busy = true ↔ s.eng.phase ≠ .idle
  /-- BUSY and DONE are never both 1 (R20). -/
  notBusyAndDone : ¬(s.status.busy = true ∧ s.status.done = true)
  /-- ERR = 1 exactly when ERRCODE is not 0 (R20). -/
  errIffErrcode : s.status.err = true ↔ s.status.errcode ≠ .none
  /-- No race outlives its command (R51). -/
  raceOnlyWhileBusy : s.eng.phase = .idle → s.race = []
  /-- A command in its RUN steps is a consistent ENCODE or DECODE. -/
  running : s.eng.phase = .run → s.runConsistent
  /-- A valid table is the complete build of its group width (R34, R109). -/
  tableBuilt : s.status.tableValid = true → s.table = buildTable (if s.status.tableG2 then 2 else 4)
  /-- A byte of VB or BB that neither the host has raced nor the engine has written holds what it held before the command
  (R45, R51). -/
  beforeKept : s.ownsBuffers = true → ∀ a, (s.inVB a || s.inBB a) = true → s.racedBytes a = [] →
    s.engineWrote a = false → Memory.read s.before a = Memory.read s.mem a

end Sys2Proof.Machine
end

