-- ==== Sys2Proof/Certificates/Slice0/Obligations.lean ====
section
/-! DEFINITION. The statements for the provers, with the small vocabulary they share (namespace Claims). The vocabulary
writes out what the rules say; it does not call the model's own operations where a rule gives the effect. -/

namespace Sys2Proof.Claims

open Sys2Proof.Machine

/-- The four ENCODE rows with their variants (R58). -/
def encodeRows : List (Instr × Variant) :=
  [(.encodeB4, .basic4), (.encodeHn, .headerlessNib), (.encodeSn, .sentinelNib), (.encodeTn, .tableNib)]

/-- The eight DECODE rows with their variants and simd_eff (R58, R110). -/
def decodeRows : List (Instr × Variant × Bool) :=
  [(.decodeB4, .basic4, false), (.decodeB4Simd, .basic4, true), (.decodeHn, .headerlessNib, false),
    (.decodeHnSimd, .headerlessNib, true), (.decodeSn, .sentinelNib, false), (.decodeSnSimd, .sentinelNib, true),
    (.decodeTn, .tableNib, true), (.decodeTnSimd, .tableNib, true)]

/-- The four TABLE_INIT rows with their group widths (R109). -/
def tableInitRows : List (Instr × Variant × Nat) :=
  [(.tableInitB4, .basic4, 4), (.tableInitHn, .headerlessNib, 2), (.tableInitSn, .sentinelNib, 2),
    (.tableInitTn, .tableNib, 2)]

/-- Every ENCODE and DECODE row with ENG.op, ENG.V and ENG.simd as START loads them (R98, R110). -/
def codecRows : List (Instr × EngOp × Variant × Bool) :=
  [(.encodeB4, .encode, .basic4, false), (.encodeHn, .encode, .headerlessNib, false),
    (.encodeSn, .encode, .sentinelNib, false), (.encodeTn, .encode, .tableNib, true)] ++
    decodeRows.map fun r => (r.1, .decode, r.2.1, r.2.2)

/-- The state after an input was consumed, before its effect: the step's own bookkeeping. -/
def after (s : State) (rest : List Input) : State := { s with inputs := rest, draws := s.draws + 1 }

/-- The state after a START step loaded ENG (R98). -/
def loaded (s : State) (op : EngOp) (v : Variant) (simd : Bool) : State :=
  { s with eng := { s.eng with op := op, variant := v, simd := simd, i := 0, p := 0 } }

/-- `complete(e)` written out (R102), with RESULT and VDONE given. -/
def ended (s : State) (e : ErrCode) (result vdone : Word) : State :=
  { s with
    result := result
    vdone := vdone
    status := { s.status with busy := false, done := true, err := decide (e ≠ .none), errcode := e }
    eng := { s.eng with phase := .idle }
    race := [] }

/-- `complete(e)` in a RUN step (R102, R118): with ENG.op ENCODE or DECODE, RESULT <- p and VDONE <- i. -/
def endedAtCursors (s : State) (e : ErrCode) : State :=
  if s.eng.op = .encode ∨ s.eng.op = .decode then ended s e (BitVec.ofNat 32 s.eng.p) (BitVec.ofNat 32 s.eng.i)
  else ended s e s.result s.vdone

/-- Every byte outside [lo, lo + len) reads as before. -/
def memoryFrame (s t : State) (lo len : Nat) : Prop :=
  ∀ a, a < lo ∨ lo + len ≤ a → Memory.read t.mem a = Memory.read s.mem a

/-- `t` is `s` after a block of `len` bytes and `values` (DECODE): the value words hold `values`, no other byte changed, both
cursors advanced, and every other field is that of `s` (R100). -/
def valuesWritten (s t : State) (values : List Word) (len : Nat) : Prop :=
  t = { s with mem := t.mem, eng := { s.eng with i := s.eng.i + values.length, p := s.eng.p + len } } ∧
    (∀ k, (h : k < values.length) →
      Memory.read32 t.mem (s.valBase.toNat + 4 * (s.eng.i + k)) = values[k]) ∧
    memoryFrame s t (s.valBase.toNat + 4 * s.eng.i) (4 * values.length)

/-- The bytes of the stream from cursor p on: MemRead(BYTE_BASE + p, BYTE_CAP - p) (R100). -/
def streamBytes (s : State) : List Byte :=
  Memory.readBytes s.mem (s.byteBase.toNat + s.eng.p) (s.byteCap.toNat - s.eng.p)

/-- The bytes left, BYTE_CAP - p. -/
def bytesLeft (s : State) : Nat := s.byteCap.toNat - s.eng.p

/-- The values left, n - i. -/
def valuesLeft (s : State) : Nat := s.valCount.toNat - s.eng.i

/-- What every statement about a RUN step's memory assumes: the host has not raced (R51) and `Mem` is in its canonical
form. -/
def quiet (s : State) : Prop := s.race = [] ∧ Memory.wf s.mem = true

/-- A SIMD step finds the table of its variant's group width (what START checked, R98). -/
def tableFits (s : State) (v : Variant) : Prop := s.eng.simd = true → s.table = buildTable v.group

/-- o_k = sum over j < k of (c_j + 1) (R63). -/
def payloadOffset (codes : List LengthCode) (k : Nat) : Nat := ((codes.take k).map fun c => c.toNat + 1).sum

/-- A full or partial coded block at cursor p with LengthCodes `codes`: r = min(G, rem) slots, each value the little-endian
bytes at its payload offset (R63, R80, R83). -/
def codedBlockStep (i : Instr) (codes : List LengthCode) (s : State) : Prop :=
  let r := min codes.length (valuesLeft s)
  let len := 1 + payloadOffset codes r
  (bytesLeft s < len → exec i s = .next (endedAtCursors s .truncated)) ∧
    (len ≤ bytesLeft s → ∃ t values, exec i s = .next t ∧ values.length = r ∧ valuesWritten s t values len ∧
      ∀ k c, codes[k]? = some c → k < r →
        values[k]? = some (leValue (Memory.readBytes s.mem
          (s.byteBase.toNat + s.eng.p + 1 + payloadOffset codes k) (c.toNat + 1))))

/-- A marked raw block at cursor p (R79, R93). -/
def rawMarkedStep (i : Instr) (s : State) : Prop :=
  (valuesLeft s < 4 → exec i s = .next (endedAtCursors s .malformed)) ∧
    (4 ≤ valuesLeft s → bytesLeft s < 5 → exec i s = .next (endedAtCursors s .truncated)) ∧
    (4 ≤ valuesLeft s → 5 ≤ bytesLeft s → ∃ t values, exec i s = .next t ∧ values.length = 4 ∧
      valuesWritten s t values 5 ∧
      ∀ k, k < 4 → values[k]? = some
        ((Memory.read s.mem (s.byteBase.toNat + s.eng.p + 1 + k)).setWidth 32))

/-- A headerless raw block at cursor p with header `h`, the first literal (R87). -/
def rawHeaderlessStep (i : Instr) (h : Byte) (s : State) : Prop :=
  (valuesLeft s < 4 → exec i s = .next (endedAtCursors s .malformed)) ∧
    (4 ≤ valuesLeft s → bytesLeft s < 4 → exec i s = .next (endedAtCursors s .truncated)) ∧
    (4 ≤ valuesLeft s → 4 ≤ bytesLeft s → ∃ t values, exec i s = .next t ∧ values.length = 4 ∧
      valuesWritten s t values 4 ∧ values[0]? = some (h.setWidth 32) ∧
      ∀ k, 1 ≤ k → k < 4 → values[k]? = some
        ((Memory.read s.mem (s.byteBase.toNat + s.eng.p + k)).setWidth 32))

/-- range_bad (R97). -/
def rangeBad (s : State) : Prop :=
  2 ^ 32 < s.valBase.toNat + 4 * s.valCount.toNat ∨ 2 ^ 32 < s.byteBase.toNat + s.byteCap.toNat

/-- overlap (R97). -/
def overlap (s : State) : Prop :=
  0 < s.valCount.toNat ∧ 0 < s.byteCap.toNat ∧ s.valBase.toNat < s.byteBase.toNat + s.byteCap.toNat ∧
    s.byteBase.toNat < s.valBase.toNat + 4 * s.valCount.toNat

/-- A SIMD DECODE without the table of its group width (R98). -/
def tableMissing (s : State) (op : EngOp) (v : Variant) (simd : Bool) : Prop :=
  op = .decode ∧ simd = true ∧ ¬(s.status.tableValid = true ∧ s.status.tableG2 = decide (v ≠ .basic4))

/-- Every START check of an ENCODE or DECODE passes (R98). -/
def startPasses (s : State) (op : EngOp) (v : Variant) (simd : Bool) : Prop :=
  s.valBase.toNat % 4 = 0 ∧ ¬rangeBad s ∧ ¬overlap s ∧ ¬tableMissing s op v simd

/-- The value words of VB (R40). -/
def valueWords (s : State) : List Word :=
  (List.range s.valCount.toNat).map fun k => Memory.read32 s.mem (s.valBase.toNat + 4 * k)

/-- The fast-path condition: at least 4 values, the first 4 all <= 255 (R74). -/
def fastPath (vs : List Word) : Prop := 4 ≤ vs.length ∧ ∀ v ∈ vs.take 4, v.toNat ≤ 255

/-- Walking the values as the variant-1 encoder does, every raw block's first literal is >= 0x40 (R88). -/
def rawFirstLiteralsHigh : Nat → List Word → Prop
  | 0, _ => True
  | _ + 1, [] => True
  | fuel + 1, v :: vs =>
    if rawTest (v :: vs) then 0x40 ≤ v.toNat ∧ rawFirstLiteralsHigh fuel ((v :: vs).drop 4)
    else rawFirstLiteralsHigh fuel ((v :: vs).drop 2)

/-- How many coded blocks the variant-1 encoder writes, walking the values as it does (R84, R89). -/
def codedBlockCount : Nat → List Word → Nat
  | 0, _ => 0
  | _ + 1, [] => 0
  | fuel + 1, v :: vs =>
    if rawTest (v :: vs) then codedBlockCount fuel ((v :: vs).drop 4)
    else codedBlockCount fuel ((v :: vs).drop 2) + 1

/-- The engine is in a DECODE RUN step. -/
def decodingStep (s : State) : Prop := s.eng.phase = .run ∧ s.eng.op = .decode

/-- The numbers of the error codes (R117). -/
def errorNumber : ErrCode → BitVec 4
  | .none => 0
  | .illegalCmd => 1
  | .align => 2
  | .range => 3
  | .overlap => 4
  | .tableNotReady => 5
  | .dstOverflow => 6
  | .collision => 7
  | .truncated => 8
  | .malformed => 9

/-- The command of `s` ends in `u`, within n + 2 engine steps (R103), if the host does nothing more; its free values are
drawn from number `draw` on. -/
def endsIn (s : State) (draw : Nat) (u : State) : Prop :=
  u.eng.phase = .idle ∧ ∃ k, k ≤ s.valCount.toNat + 2 ∧
    Host.Core.run core k { s with inputs := [], draws := draw } = .next u

/-- Byte `a` is one that the command of `s` has written when it stands at the cursors of `u`: stream bytes 0 .. p-1 for
ENCODE, value words 0 .. i-1 for DECODE (R45). -/
def writtenAt (s u : State) (a : Nat) : Prop :=
  ∃ row ∈ codecRows, decodeCmd s.eng.w = row.1 ∧
    (if row.2.1 = .encode then s.byteBase.toNat ≤ a ∧ a < s.byteBase.toNat + u.eng.p
      else s.valBase.toNat ≤ a ∧ a < s.valBase.toNat + 4 * u.eng.i)

/-- What R51 admits for a host read of byte `a` while the command of `s` runs: the byte from before the command or one the
engine has written or writes, up to its completion, those over a raced byte from the race record; and what the host itself
has written there (log 8). -/
def hostMayRead (s : State) (a : Nat) (b : Byte) : Prop :=
  b = Memory.read s.mem a ∨
    ((s.inVB a = true ∨ s.inBB a = true) ∧
      (b = Memory.read s.before a ∨ (a, b) ∈ s.race ∨ ∃ draw u, endsIn s draw u ∧ b = Memory.read u.mem a))

/-- Byte `a` has met a race: the host has written it since the command was accepted. -/
def raced (s : State) (a : Nat) : Prop := ∃ old, (a, old) ∈ s.race

/-- From `s` to `t` the engine writes `b` to byte `a`: it stands there, or, where the host has raced, the host's byte stays
and the engine's is kept for the host's reads (R51). -/
def engineWrites (s t : State) (a : Nat) (b : Byte) : Prop :=
  (Memory.read t.mem a = b ∨ (raced s a ∧ Memory.read t.mem a = Memory.read s.mem a)) ∧ (raced s a → (a, b) ∈ t.race)

/-- One turn of the engine, as a step with nothing else pending. -/
def engineStep (s t : State) : Prop := s.inputs = [] ∧ step s = .next t

/-- The registers the host writes, and the block's parameters, are those of `s`. -/
def operandsKept (s t : State) : Prop :=
  t.cfg = s.cfg ∧ t.valBase = s.valBase ∧ t.valCount = s.valCount ∧ t.byteBase = s.byteBase ∧ t.byteCap = s.byteCap ∧
    t.classIn = s.classIn ∧ t.tblSel = s.tblSel

end Sys2Proof.Claims

open Sys2Proof Sys2Proof.Machine Sys2Proof.Claims

/-! ### Encodings -/

/-- Decode of encode, over every well-formed instruction and every operand value (R58, R61, R62, R65). -/
def Obligations.DecodeOfEncodeGivesTheInstruction : Prop :=
  ∀ i : Instr, i.wellFormed = true → decode (encode i) = i

/-- Encode of decode, over every command word and every header byte of every variant: each has one meaning, and a
well-formed one (R58, R65). -/
def Obligations.EncodeOfDecodeGivesTheBits : Prop :=
  ∀ c : Code, encode (decode c) = c ∧ (decode c).wellFormed = true

/-- R58 by the fields of R56: the legal words, their match and mask form, and that every other word ends with
ERR_ILLEGAL_CMD. -/
def Obligations.IllegalWordsAreThoseRule58DoesNotList : Prop :=
  ∀ w : Word,
    let op := w.extractLsb' 0 4
    let variant := w.extractLsb' 4 2
    let simd := w.getLsbD 6
    let reserved := w.extractLsb' 7 25
    let legal := reserved = 0 ∧
      ((op = 1 ∧ simd = false) ∨ op = 2 ∨ (op = 3 ∧ simd = false ∧ variant = 0) ∨ (op = 4 ∧ simd = false))
    (decodeCmd w = .illegal w ↔ ¬legal) ∧
      (legal ↔ w &&& 0xFFFFFFCF = 0x00000001 ∨ w &&& 0xFFFFFF8F = 0x00000002 ∨ w = 0x00000003 ∨
        w &&& 0xFFFFFFCF = 0x00000004) ∧
      ∀ s : State, s.inputs = [] → s.eng.phase = .start → s.eng.w = w → ¬legal →
        ∃ t, step s = .next t ∧ t.eng.phase = .idle ∧ t.status.errcode = .illegalCmd

/-- R65: every header byte falls in exactly one class per variant, and the decoder gives the row of that class. -/
def Obligations.HeaderBytesFallInTheirClasses : Prop :=
  ∀ h : Byte,
    let nibLegal := h.toNat ≤ 0x03 ∨ (0x10 ≤ h.toNat ∧ h.toNat ≤ 0x13) ∨ (0x20 ≤ h.toNat ∧ h.toNat ≤ 0x23) ∨
      (0x30 ≤ h.toNat ∧ h.toNat ≤ 0x33)
    (hdrClass .basic4 h = if h.toNat = 0xFF then .raw else .coded) ∧
      (hdrClass .headerlessNib h = if 0x40 ≤ h.toNat then .raw else if nibLegal then .coded else .malformed) ∧
      (hdrClass .sentinelNib h = if h.toNat = 0xF0 then .raw else if nibLegal then .coded else .malformed) ∧
      (hdrClass .tableNib h = if h.toNat = 0xF0 then .raw else if nibLegal then .coded else .malformed) ∧
      (hdrClass .basic4 h = .raw ↔ decodeHdr .basic4 h = .b4Raw) ∧
      (hdrClass .basic4 h = .coded ↔ decodeHdr .basic4 h =
        .b4Coded (h.extractLsb' 0 2) (h.extractLsb' 2 2) (h.extractLsb' 4 2) (h.extractLsb' 6 2)) ∧
      (hdrClass .headerlessNib h = .raw ∧ h.toNat ≤ 0x7F ↔ decodeHdr .headerlessNib h = .hnRawLo (h.extractLsb' 0 6)) ∧
      (hdrClass .headerlessNib h = .raw ∧ 0x80 ≤ h.toNat ↔ decodeHdr .headerlessNib h = .hnRawHi (h.extractLsb' 0 7)) ∧
      (hdrClass .headerlessNib h = .coded ↔ decodeHdr .headerlessNib h =
        .hnCoded (h.extractLsb' 0 2) (h.extractLsb' 4 2)) ∧
      (hdrClass .headerlessNib h = .malformed ↔ decodeHdr .headerlessNib h = .hnMalformed h) ∧
      (hdrClass .sentinelNib h = .raw ↔ decodeHdr .sentinelNib h = .snRaw) ∧
      (hdrClass .sentinelNib h = .coded ↔ decodeHdr .sentinelNib h =
        .snCoded (h.extractLsb' 0 2) (h.extractLsb' 4 2)) ∧
      (hdrClass .sentinelNib h = .malformed ↔ decodeHdr .sentinelNib h = .snMalformed h) ∧
      (hdrClass .tableNib h = .raw ↔ decodeHdr .tableNib h = .tnRaw) ∧
      (hdrClass .tableNib h = .coded ↔ decodeHdr .tableNib h =
        .tnCoded (h.extractLsb' 0 2) (h.extractLsb' 4 2)) ∧
      (hdrClass .tableNib h = .malformed ↔ decodeHdr .tableNib h = .tnMalformed h)

/-- Words written out from the opcode table and from the worked examples decode to the instructions they stand for. -/
def Obligations.SampleWordsDecode : Prop :=
  decodeTableWord 32 0x00000021 = some .encodeSn ∧ decodeTableWord 32 0x00000072 = some .decodeTnSimd ∧
    decodeTableWord 32 0x00000003 = some .classify ∧ decodeTableWord 32 0x00000014 = some .tableInitHn ∧
    decodeTableWord 32 0x00000082 = some (.illegal 0x82) ∧
    decode (.hdr .basic4 0xE1) = .b4Coded 1 0 2 3 ∧ decode (.hdr .headerlessNib 0x40) = .hnRawLo 0 ∧
    decode (.hdr .sentinelNib 0x12) = .snCoded 2 1 ∧ decode (.hdr .tableNib 0xF1) = .tnMalformed 0xF1

/-- R69, R70: what each pseudo-instruction writes to CMD, and to which address; every command's word is written to CMD, and
RUN waits after it. That WAIT is one entry of the inputs is the model's choice (log 18). -/
def Obligations.PseudoInstructionsExpand : Prop :=
  ∀ cfg : Config,
    (∀ p ∈ [(Instr.encodeB4, (0x01 : Word)), (.encodeHn, 0x11), (.encodeSn, 0x21), (.encodeTn, 0x31), (.decodeB4, 0x02),
        (.decodeHn, 0x12), (.decodeSn, 0x22), (.decodeTn, 0x32), (.decodeB4Simd, 0x42), (.decodeHnSimd, 0x52),
        (.decodeSnSimd, 0x62), (.decodeTnSimd, 0x72), (.classify, 0x03), (.tableInitB4, 0x04), (.tableInitHn, 0x14),
        (.tableInitSn, 0x24), (.tableInitTn, 0x34)],
      issue cfg p.1 = [.regWrite .word cfg.regBase p.2]) ∧
      (∀ i w, encode i = .cmd w → issue cfg i = [.regWrite .word cfg.regBase w] ∧
        runCmd cfg i = [.regWrite .word cfg.regBase w, .wait]) ∧
      ∀ vb n bb cap, setBuf cfg vb n bb cap =
        [.regWrite .word (cfg.regBase + 0x08) vb, .regWrite .word (cfg.regBase + 0x0C) n,
          .regWrite .word (cfg.regBase + 0x10) bb, .regWrite .word (cfg.regBase + 0x14) cap]

/-! ### Stepping -/

/-- A step runs the instruction the engine fetches, the draw counter advanced: the command word in START and in ENCODE's
RUN steps, the header at cursor p in DECODE's RUN steps, the command word again when the values or the bytes are used up;
an idle engine holds its state (R98, R99, R100, R130). The same after an engine turn or a WAIT at the head of the
inputs. -/
def Obligations.StepRunsTheFetchedInstruction : Prop :=
  ∀ s : State, s.inputs = [] →
    (s.eng.phase = .idle → step s = .next s) ∧
      (s.eng.phase = .start → step s = exec (decodeCmd s.eng.w) s.tick) ∧
      (s.eng.phase = .run → s.eng.op = .encode →
        step s = exec (decodeCmd s.eng.w) s.tick) ∧
      (s.eng.phase = .run → s.eng.op = .decode → s.eng.i < s.valCount.toNat → s.eng.p < s.byteCap.toNat →
        s.race = [] →
        step s = exec (decodeHdr s.eng.variant (Memory.read s.mem (s.byteBase.toNat + s.eng.p)))
          s.tick) ∧
      (s.eng.phase = .run → s.eng.op = .decode → (s.valCount.toNat ≤ s.eng.i ∨ s.byteCap.toNat ≤ s.eng.p) →
        step s = exec (decodeCmd s.eng.w) s.tick) ∧
      (∀ rest, step { s with inputs := .engine :: rest } =
        if s.eng.phase = .idle then .next { s with inputs := rest }
        else exec s.tick.fetch (after s rest)) ∧
      (∀ rest, s.status.busy = true → s.eng.phase ≠ .idle → step { s with inputs := .wait :: rest } =
        exec s.tick.fetch (after s (.wait :: rest)))

/-- A step runs a well-formed instruction whose bits stand where the engine fetches: a command word in ENG.w at START, a
header byte at BYTE_BASE + p in a DECODE RUN step. -/
def Obligations.StepRunsTheEncodedInstruction : Prop :=
  ∀ (i : Instr) (s : State), i.wellFormed = true → s.inputs = [] →
    (∀ w, encode i = .cmd w → s.eng.phase = .start → s.eng.w = w →
      step s = exec i s.tick) ∧
    (∀ v h, encode i = .hdr v h → s.eng.phase = .run → s.eng.op = .decode → s.eng.variant = v → s.race = [] →
      s.eng.i < s.valCount.toNat → s.eng.p < s.byteCap.toNat →
      Memory.read s.mem (s.byteBase.toNat + s.eng.p) = h → step s = exec i s.tick)

/-- No instruction stops the machine: every failure is an error code in a next state (R117, R121). -/
def Obligations.EveryInstructionAnswersANextState : Prop :=
  ∀ (i : Instr) (s : State), ∃ t, exec i s = .next t

/-- A step stops only on a host access the block does not take, or past the top of memory (R18 item 1, R37; which of the
two reasons is the model's, log 10 and log 11). -/
def Obligations.StepStopsOnlyOnBadHostAccess : Prop :=
  ∀ s : State,
    (∀ r, step s = .refused r → ∃ size addr v rest,
      (s.inputs = .regWrite size addr v :: rest ∨ s.inputs = .regRead size addr :: rest) ∧
      (size ≠ .word ∨ addr < s.cfg.regBase ∨ s.cfg.regBase + 0x100 ≤ addr ∨ (addr - s.cfg.regBase) % 4 ≠ 0)) ∧
    (∀ f, step s = .fault f → ∃ size addr v rest,
      (s.inputs = .memWrite size addr v :: rest ∨ s.inputs = .memRead size addr :: rest) ∧
      2 ^ 32 < addr + size.bytes)

/-! ### The register window -/

/-- R18, its six items, with the image every register's read returns written out (R19 to R32). -/
def Obligations.RegisterAccessRules : Prop :=
  ∀ (s : State) (rest : List Input) (v : Word),
    let base := s.cfg.regBase
    let write (size : AccessSize) (addr : Nat) := step { s with inputs := .regWrite size addr v :: rest }
    let read (size : AccessSize) (addr : Nat) := step { s with inputs := .regRead size addr :: rest }
    (∀ size addr, base ≤ addr → addr < base + 0x100 → (size ≠ .word ∨ (addr - base) % 4 ≠ 0) →
      write size addr = .refused .accessNotAdmitted ∧ read size addr = .refused .accessNotAdmitted) ∧
    (∀ o, (o ∈ [0x04, 0x18, 0x1C, 0x24, 0x2C, 0x30, 0x34, 0x38, 0x3C, 0x40, 0x44] ∨
        (0x48 ≤ o ∧ o ≤ 0xFC ∧ o % 4 = 0)) → write .word (base + o) = .next (after s rest)) ∧
    (∀ o, (o = 0x00 ∨ (0x48 ≤ o ∧ o ≤ 0xFC ∧ o % 4 = 0)) →
      read .word (base + o) = .next { after s rest with hostData := 0 }) ∧
    (∀ o, s.status.busy = true → o < 0x100 → o % 4 = 0 → write .word (base + o) = .next (after s rest)) ∧
    (∀ r : Reg, read .word (base + r.offset) = .next { after s rest with hostData := s.readReg r }) ∧
    (read .word (base + 0x08) = .next { after s rest with hostData := s.valBase } ∧
      read .word (base + 0x0C) = .next { after s rest with hostData := s.valCount } ∧
      read .word (base + 0x10) = .next { after s rest with hostData := s.byteBase } ∧
      read .word (base + 0x14) = .next { after s rest with hostData := s.byteCap } ∧
      read .word (base + 0x18) = .next { after s rest with hostData := s.result } ∧
      read .word (base + 0x1C) = .next { after s rest with hostData := s.vdone } ∧
      read .word (base + 0x20) = .next { after s rest with hostData := s.classIn } ∧
      read .word (base + 0x24) = .next { after s rest with hostData := BitVec.ofNat 32 s.classOut.toNat } ∧
      read .word (base + 0x28) = .next { after s rest with hostData := BitVec.ofNat 32 s.tblSel.toNat } ∧
      read .word (base + 0x40) = .next { after s rest with hostData := 0x55433847 } ∧
      read .word (base + 0x44) = .next { after s rest with hostData := 0x00000001 }) ∧
    (s.status.busy = false →
      write .word (base + 0x08) = .next { after s rest with valBase := v } ∧
      write .word (base + 0x0C) = .next { after s rest with valCount := v } ∧
      write .word (base + 0x10) = .next { after s rest with byteBase := v } ∧
      write .word (base + 0x14) = .next { after s rest with byteCap := v } ∧
      write .word (base + 0x20) = .next { after s rest with classIn := v } ∧
      write .word (base + 0x28) = .next { after s rest with tblSel := v.extractLsb' 0 8 })

/-- R96: a host write of w to CMD. The fields race and before are the model's own (log 7, log 8). -/
def Obligations.CmdWriteStartsACommand : Prop :=
  ∀ (s : State) (rest : List Input) (w : Word),
    let written := step { s with inputs := .regWrite .word s.cfg.regBase w :: rest }
    (s.status.busy = true → written = .next (after s rest)) ∧
      (s.status.busy = false → written = .next
        { after s rest with
          status := { s.status with busy := true, done := false, err := false, errcode := .none }
          eng := { s.eng with w := w, phase := .start }
          race := []
          before := s.mem })

/-- R20, R117: the fields of the STATUS register, bit by bit, with the numbers of the error codes. -/
def Obligations.StatusRegisterHoldsItsFields : Prop :=
  ∀ s : State,
    let w := s.readReg .status
    w.getLsbD 0 = s.status.busy ∧ w.getLsbD 1 = s.status.done ∧ w.getLsbD 2 = s.status.err ∧ w.getLsbD 3 = false ∧
      w.extractLsb' 4 4 = errorNumber s.status.errcode ∧ w.getLsbD 8 = s.status.tableValid ∧
      w.getLsbD 9 = s.status.tableG2 ∧ w.extractLsb' 10 22 = 0

/-- R30, R31: the readback of the selected table entry, and 0 while the table is invalid, as after reset. -/
def Obligations.TableReadbackShowsTheSelectedEntry : Prop :=
  (∀ s : State,
    let e := s.table[s.tblSel.toNat]
    (s.status.tableValid = false → s.readReg .tblInfo = 0 ∧ s.readReg .tblPat0 = 0 ∧ s.readReg .tblPat1 = 0 ∧
      s.readReg .tblPat2 = 0 ∧ s.readReg .tblPat3 = 0) ∧
    (s.status.tableValid = true →
      (e.len ≤ 16 → ((s.readReg .tblInfo).extractLsb' 0 5).toNat = e.len) ∧
      (s.readReg .tblInfo).getLsbD 8 = e.evalid ∧
      (s.readReg .tblInfo).extractLsb' 5 3 = 0 ∧ (s.readReg .tblInfo).extractLsb' 9 23 = 0 ∧
      (∀ j, (h : j < 4) → (s.readReg .tblPat0).extractLsb' (8 * j) 8 = e.pat[j]) ∧
      (∀ j, (h : j < 4) → (s.readReg .tblPat1).extractLsb' (8 * j) 8 = e.pat[4 + j]) ∧
      (∀ j, (h : j < 4) → (s.readReg .tblPat2).extractLsb' (8 * j) 8 = e.pat[8 + j]) ∧
      (∀ j, (h : j < 4) → (s.readReg .tblPat3).extractLsb' (8 * j) 8 = e.pat[12 + j]))) ∧
  State.reset.readReg .tblInfo = 0 ∧ State.reset.readReg .tblPat0 = 0 ∧ State.reset.readReg .tblPat1 = 0 ∧
    State.reset.readReg .tblPat2 = 0 ∧ State.reset.readReg .tblPat3 = 0

/-- The values the register map gives for reset (R17, R131), read through the window. The configuration and the fields the
spec leaves unspecified (log 4, log 5, log 6) are not stated. -/
def Obligations.ResetRegistersReadAsTheMapSays : Prop :=
  (∀ r ∈ [Reg.cmd, .status, .valBase, .valCount, .byteBase, .byteCap, .result, .vdone, .classIn, .classOut, .tblSel,
      .tblInfo, .tblPat0, .tblPat1, .tblPat2, .tblPat3], State.reset.readReg r = 0) ∧
    State.reset.readReg .id = 0x55433847 ∧ State.reset.readReg .version = 0x00000001 ∧
    State.reset.eng.phase = .idle ∧ State.reset.status.busy = false ∧ State.reset.status.done = false ∧
    State.reset.status.tableValid = false

/-- R131: the reset input, from any state. No completion is signalled, every register reads its reset value, and `Mem` is
unchanged, but for the bytes that a command it cuts off could have written: those it has written, or would have written
until its own end (R45). -/
def Obligations.ResetInputResetsTheBlock : Prop :=
  ∀ (s : State) (rest : List Input), s.inputs = .reset :: rest → ∃ t, step s = .next t ∧
    t.eng.phase = .idle ∧ t.cfg = s.cfg ∧ t.inputs = rest ∧
    (∀ r ∈ [Reg.cmd, .status, .valBase, .valCount, .byteBase, .byteCap, .result, .vdone, .classIn, .classOut, .tblSel,
      .tblInfo, .tblPat0, .tblPat1, .tblPat2, .tblPat3], t.readReg r = 0) ∧
    t.readReg .id = 0x55433847 ∧ t.readReg .version = 0x00000001 ∧
    (s.status.busy = false → t.mem = s.mem) ∧
    (s.Inv → s.status.busy = true → ∃ draw u, endsIn s draw u ∧
      ∀ a, ¬writtenAt s u a → Memory.read t.mem a = Memory.read s.mem a)

/-! ### Primitives and the classifier -/

/-- R10: le_bytes and le_value. -/
def Obligations.LittleEndianPrimitives : Prop :=
  (∀ (v : Word) (len : Nat), len ≤ 4 → (leBytes v len).length = len ∧
    (∀ k, k < len → (leBytes v len)[k]? = some (v.extractLsb' (8 * k) 8)) ∧
    (v.toNat < 2 ^ (8 * len) → leValue (leBytes v len) = v)) ∧
  ∀ bytes : List Byte, bytes.length ≤ 4 →
    (leValue bytes).toNat = ((List.range bytes.length).map fun k => (bytes.getD k 0).toNat * 2 ^ (8 * k)).sum

/-- R72: classify is monotone, minimal and sufficient, its class boundaries are exact, and class 0 is the fast-path
test. -/
def Obligations.ClassifierIsMonotoneMinimalAndExact : Prop :=
  (∀ u v : Word, u ≤ v → classify u ≤ classify v) ∧
  (∀ v : Word, v.toNat < 2 ^ (8 * ((classify v).toNat + 1)) ∧
    leValue (leBytes v ((classify v).toNat + 1)) = v ∧
    (0 < (classify v).toNat → 2 ^ (8 * (classify v).toNat) ≤ v.toNat)) ∧
  (∀ v : Word, (classify v = 0 ↔ v.toNat ≤ 0xFF) ∧ (classify v = 1 ↔ 0x100 ≤ v.toNat ∧ v.toNat ≤ 0xFFFF) ∧
    (classify v = 2 ↔ 0x10000 ≤ v.toNat ∧ v.toNat ≤ 0xFFFFFF) ∧ (classify v = 3 ↔ 0x1000000 ≤ v.toNat))

/-! ### The one-step commands -/

/-- R73: CLASSIFY writes CLASS_OUT and STATUS and nothing else; a word with OP = 3 that is not 0x00000003 ends with
ERR_ILLEGAL_CMD and leaves CLASS_OUT. -/
def Obligations.ClassifyWritesClassOut : Prop :=
  ∀ s : State, s.eng.phase = .start →
    (exec .classify s = .next
      { ended (loaded s .classify .basic4 false) .none s.result s.vdone with
        classOut := if s.classIn.toNat ≤ 0xFF then 0 else if s.classIn.toNat ≤ 0xFFFF then 1
          else if s.classIn.toNat ≤ 0xFFFFFF then 2 else 3 }) ∧
    ∀ w : Word, w.extractLsb' 0 4 = 3 → w ≠ 3 → ∃ t, exec (decodeCmd w) s = .next t ∧
      t.status.errcode = .illegalCmd ∧ t.classOut = s.classOut

/-- An illegal command ends in its START step: RESULT, VDONE, CLASS_OUT, the table and `Mem` are unchanged, and of the engine
only ENG.op, the cursors and the phase are written (R58, R98, R102). -/
def Obligations.IllegalCommandChangesNoResult : Prop :=
  ∀ (w : Word) (s : State), s.eng.phase = .start →
    exec (.illegal w) s = .next
      (ended { s with eng := { s.eng with op := .illegal, i := 0, p := 0 } } .illegalCmd s.result s.vdone)

/-- R109: TABLE_INIT builds all 256 entries for the group width of its variant, sets TABLE_G2 and TABLE_VALID, completes, and
writes nothing else; a word with OP = 4 and the SIMD bit or a reserved bit set ends with ERR_ILLEGAL_CMD and leaves the
table. -/
def Obligations.TableInitBuildsEveryEntry : Prop :=
  ∀ row ∈ tableInitRows, ∀ s : State, s.eng.phase = .start →
    (∃ t, exec row.1 s = .next t ∧
      (∀ d, (h : d < 256) → t.table[d] = buildEntry row.2.2 (BitVec.ofNat 8 d)) ∧
      t = { ended (loaded s .tableInit row.2.1 (decide (row.1 = .tableInitTn))) .none s.result s.vdone with
        table := t.table
        status := { busy := false, done := true, err := false, errcode := .none, tableValid := true,
                    tableG2 := decide (row.2.2 = 2) } }) ∧
    ∀ w : Word, w.extractLsb' 0 4 = 4 → (w.getLsbD 6 = true ∨ w.extractLsb' 7 25 ≠ 0) →
      ∃ t, exec (decodeCmd w) s = .next t ∧ t.status.errcode = .illegalCmd ∧ t.table = s.table ∧
        t.status.tableValid = s.status.tableValid ∧ t.status.tableG2 = s.status.tableG2

/-- R97, with the START step of R98 for ENCODE and DECODE (ENG.simd by R110, RESULT and VDONE by R102 and R118): every form
ends with the first check that fails, RESULT and VDONE 0 and nothing else written, and goes to RUN when all pass. -/
def Obligations.CodecStartChecksInOrder : Prop :=
  ∀ row ∈ codecRows, ∀ s : State, s.eng.phase = .start →
    let i := row.1
    let op := row.2.1
    let v := row.2.2.1
    let simd := row.2.2.2
    let l := loaded s op v simd
    (s.valBase.toNat % 4 ≠ 0 → exec i s = .next (ended l .align 0 0)) ∧
      (s.valBase.toNat % 4 = 0 → rangeBad s → exec i s = .next (ended l .range 0 0)) ∧
      (s.valBase.toNat % 4 = 0 → ¬rangeBad s → overlap s → exec i s = .next (ended l .overlap 0 0)) ∧
      (s.valBase.toNat % 4 = 0 → ¬rangeBad s → ¬overlap s → tableMissing s op v simd →
        exec i s = .next (ended l .tableNotReady 0 0)) ∧
      (startPasses s op v simd → exec i s = .next { l with eng := { l.eng with phase := .run } })

/-! ### ENCODE -/

/-- R99: the ENCODE RUN step of every variant, with the memory it writes and the memory it leaves. -/
def Obligations.EncodeRunStepWritesOneBlock : Prop :=
  ∀ row ∈ encodeRows, ∀ s : State, s.eng.phase = .run → s.eng.variant = row.2 → quiet s →
    s.eng.i ≤ s.valCount.toNat →
    let vals := (List.range (min 4 (valuesLeft s))).map fun k =>
      Memory.read32 s.mem (s.valBase.toNat + 4 * (s.eng.i + k))
    (s.eng.i = s.valCount.toNat → exec row.1 s = .next (endedAtCursors s .none)) ∧
      (s.eng.i < s.valCount.toNat →
        (∀ e, encBlock s.cfg.ffPolicy row.2 vals = .error e → exec row.1 s = .next (endedAtCursors s e)) ∧
        (∀ block k, encBlock s.cfg.ffPolicy row.2 vals = .ok (block, k) →
          (s.byteCap.toNat < s.eng.p + block.length → exec row.1 s = .next (endedAtCursors s .dstOverflow)) ∧
          (s.eng.p + block.length ≤ s.byteCap.toNat → ∃ t, exec row.1 s = .next t ∧
            t = { s with mem := t.mem, eng := { s.eng with i := s.eng.i + k, p := s.eng.p + block.length } } ∧
            Memory.readBytes t.mem (s.byteBase.toNat + s.eng.p) block.length = block ∧
            memoryFrame s t (s.byteBase.toNat + s.eng.p) block.length)))

/-- R74, R75, R76, R77: the block BASIC4 writes. -/
def Obligations.Basic4EncoderBlocks : Prop :=
  ∀ (policy : FFPolicy) (vs : List Word), vs ≠ [] →
    (fastPath vs → encBlock policy .basic4 vs = .ok (0xFF :: (vs.take 4).map (fun v => v.extractLsb' 0 8), 4)) ∧
    (¬fastPath vs →
      let group := vs.take 4
      let collides := group.length = 4 ∧ ∀ v ∈ group, 0x1000000 ≤ v.toNat
      (collides → policy = .fault → encBlock policy .basic4 vs = .error .collision) ∧
      (¬(collides ∧ policy = .fault) → ∃ d : Byte,
        encBlock policy .basic4 vs =
          .ok (d :: group.flatMap (fun v => leBytes v ((classify v).toNat + 1)), group.length) ∧
        (∀ k, k < 4 → d.extractLsb' (2 * k) 2 = (group[k]?.map classify).getD 0) ∧
        (d = 0xFF ↔ collides)))

/-- R82, R84, R85, R90, R91: the blocks of the nibble variants. -/
def Obligations.NibbleEncoderBlocks : Prop :=
  ∀ (policy : FFPolicy) (vs : List Word), vs ≠ [] →
    let literalBytes := (vs.take 4).map fun v => v.extractLsb' 0 8
    (fastPath vs →
      encBlock policy .headerlessNib vs = .ok (literalBytes, 4) ∧
      encBlock policy .sentinelNib vs = .ok (0xF0 :: literalBytes, 4) ∧
      encBlock policy .tableNib vs = .ok (0xF0 :: literalBytes, 4)) ∧
    (¬fastPath vs →
      let group := vs.take 2
      ∃ d : Byte,
        (∀ v, v ≠ .basic4 → encBlock policy v vs =
          .ok (d :: group.flatMap (fun v => leBytes v ((classify v).toNat + 1)), group.length)) ∧
        d.extractLsb' 0 2 = (group[0]?.map classify).getD 0 ∧ d.extractLsb' 4 2 = (group[1]?.map classify).getD 0 ∧
        d.extractLsb' 2 2 = 0 ∧ d.extractLsb' 6 2 = 0)

/-- R94: in variants 2 and 3 the marker opens exactly the raw blocks. -/
def Obligations.SentinelMarkerIsNeverADescriptor : Prop :=
  ∀ (policy : FFPolicy) (v : Variant) (vs : List Word) (block : List Byte) (k : Nat),
    v = .sentinelNib ∨ v = .tableNib → vs ≠ [] → encBlock policy v vs = .ok (block, k) →
      (fastPath vs → block.head? = some 0xF0) ∧
      (¬fastPath vs → ∃ d, block.head? = some d ∧ d &&& 0xCC = 0 ∧ d ≠ 0xF0)

/-- The encoder's block depends on the next four values only (R46, R74). -/
def Obligations.EncoderLooksAtFourValues : Prop :=
  ∀ (policy : FFPolicy) (v : Variant) (vs : List Word), encBlock policy v (vs.take 4) = encBlock policy v vs

/-! ### DECODE -/

/-- R100: the DECODE RUN step of every form against the scalar block function on all the bytes left, with the memory it
writes and the memory it leaves; the SIMD forms give the same result (R115). -/
def Obligations.DecodeRunStepDecodesOneBlock : Prop :=
  ∀ row ∈ decodeRows, ∀ s : State, s.eng.phase = .run → s.eng.variant = row.2.1 → s.eng.simd = row.2.2 → quiet s →
    tableFits s row.2.1 → s.eng.i ≤ s.valCount.toNat → s.eng.p ≤ s.byteCap.toNat →
    (s.eng.i = s.valCount.toNat → exec row.1 s = .next (endedAtCursors s .none)) ∧
      (s.eng.i < s.valCount.toNat →
        (∀ e, decBlock row.2.1 (streamBytes s) (valuesLeft s) = .error e →
          exec row.1 s = .next (endedAtCursors s e)) ∧
        (∀ values len, decBlock row.2.1 (streamBytes s) (valuesLeft s) = .ok (values, len) →
          ∃ t, exec row.1 s = .next t ∧ valuesWritten s t values len))

/-- What the step fetches in a DECODE RUN step and what the command does there are the same: the header instruction has the
effect R100 gives the command. Where no byte is left the command ends with ERR_TRUNCATED. -/
def Obligations.HeaderInstructionIsTheDecodeStep : Prop :=
  ∀ row ∈ decodeRows, ∀ s : State, s.eng.phase = .run → s.eng.variant = row.2.1 → s.eng.i < s.valCount.toNat →
    (s.eng.p < s.byteCap.toNat → ∃ t, exec row.1 s = .next t ∧
      exec (decodeHdr s.eng.variant (s.engRead (s.byteBase.toNat + s.eng.p))) s = .next t) ∧
    (s.byteCap.toNat ≤ s.eng.p → exec row.1 s = .next (endedAtCursors s .truncated))

/-- R79, R93: B4.RAW, SN.RAW and TN.RAW in a DECODE RUN step. -/
def Obligations.MarkedRawHeadersDecodeFourLiterals : Prop :=
  ∀ i ∈ [Instr.b4Raw, .snRaw, .tnRaw], ∀ s : State, decodingStep s → quiet s → rawMarkedStep i s

/-- R87: HN.RAW.LO and HN.RAW.HI in a DECODE RUN step; the header itself is value 0. -/
def Obligations.HeaderlessRawHeadersDecodeFourLiterals : Prop :=
  ∀ s : State, decodingStep s → quiet s →
    (∀ x : BitVec 6, rawHeaderlessStep (.hnRawLo x) (0x40 + x.setWidth 8) s) ∧
    (∀ x : BitVec 7, rawHeaderlessStep (.hnRawHi x) (0x80 + x.setWidth 8) s)

/-- R80: B4.CODED in a DECODE RUN step, by the scalar rule and, for a full group with ENG.simd = 1, by the table (R113, R115). -/
def Obligations.Basic4CodedHeaderDecodesItsSlots : Prop :=
  ∀ (c0 c1 c2 c3 : LengthCode) (s : State), decodingStep s → quiet s → tableFits s .basic4 →
    codedBlockStep (.b4Coded c0 c1 c2 c3) [c0, c1, c2, c3] s

/-- R83: HN.CODED, SN.CODED and TN.CODED in a DECODE RUN step, by the scalar rule and, for a full group with ENG.simd = 1,
by the table (R113, R115). -/
def Obligations.NibbleCodedHeadersDecodeTheirSlots : Prop :=
  ∀ (c0 c1 : LengthCode) (s : State), decodingStep s → quiet s → tableFits s .tableNib →
    codedBlockStep (.hnCoded c0 c1) [c0, c1] s ∧ codedBlockStep (.snCoded c0 c1) [c0, c1] s ∧
      codedBlockStep (.tnCoded c0 c1) [c0, c1] s

/-- R86, R92, R118: in a DECODE RUN step a MALFORMED header ends DECODE at its own block, RESULT and VDONE at the cursors, and
writes nothing to `Mem`. -/
def Obligations.MalformedHeadersEndDecode : Prop :=
  ∀ (h : Byte) (s : State), decodingStep s →
    ∀ i ∈ [Instr.hnMalformed h, .snMalformed h, .tnMalformed h],
      exec i s = .next (ended s .malformed (BitVec.ofNat 32 s.eng.p) (BitVec.ofNat 32 s.eng.i))

/-! ### The table and the SIMD path -/

/-- R108: every lane, LEN and EVALID of build_entry(4, d) and build_entry(2, d). -/
def Obligations.BuiltEntriesHoldTheirLanes : Prop :=
  ∀ d : Byte,
    (∀ codes, codes = [d.extractLsb' 0 2, d.extractLsb' 2 2, d.extractLsb' 4 2, d.extractLsb' 6 2] →
      (buildEntry 4 d).evalid = true ∧ (buildEntry 4 d).len = payloadOffset codes 4 ∧
      ∀ k, k < 4 → ∀ b, b < 4 → (buildEntry 4 d).pat.toList[4 * k + b]? =
        some (if b ≤ (codes.getD k 0).toNat then BitVec.ofNat 8 (payloadOffset codes k + b) else 0x80)) ∧
    (d &&& 0xCC = 0 → ∀ codes, codes = [d.extractLsb' 0 2, d.extractLsb' 4 2] →
      (buildEntry 2 d).evalid = true ∧ (buildEntry 2 d).len = payloadOffset codes 2 ∧
      ∀ k, k < 4 → ∀ b, b < 4 → (buildEntry 2 d).pat.toList[4 * k + b]? =
        some (if k < 2 ∧ b ≤ (codes.getD k 0).toNat then BitVec.ofNat 8 (payloadOffset codes k + b) else 0x80)) ∧
    (d &&& 0xCC ≠ 0 → buildEntry 2 d = { pat := Vector.replicate 16 0x80, len := 0, evalid := false })

/-- R112: the gather puts at byte b of slot k's value the payload byte at the pattern's offset in lane 4k + b, or zero; every
offset in a valid entry is below LEN, so the gather reads only the group's payload. -/
def Obligations.GatherReadsOnlyThePayload : Prop :=
  (∀ (e : Entry) (payloadBytes : List Byte) (g : Nat), g ≤ 4 →
    (gather e payloadBytes g).length = g ∧
    ∀ k, (hk : k < 4) → k < g → ∃ v, (gather e payloadBytes g)[k]? = some v ∧
      ∀ b, (hb : b < 4) → v.extractLsb' (8 * b) 8 =
        (let x : Byte := e.pat[4 * k + b]
         if x.getLsbD 7 = true then 0 else payloadBytes.getD (x.extractLsb' 0 4).toNat 0)) ∧
  ∀ (g : Nat) (d : Byte), g = 4 ∨ g = 2 → (buildEntry g d).evalid = true →
    (∀ x : Byte, x ∈ (buildEntry g d).pat.toList → x.getLsbD 7 = false →
      (x.extractLsb' 0 4).toNat < (buildEntry g d).len ∧ x.extractLsb' 4 3 = 0) ∧
    ∀ payloadBytes : List Byte,
      gather (buildEntry g d) (payloadBytes.take (buildEntry g d).len) g = gather (buildEntry g d) payloadBytes g

/-- R115: the SIMD decode of a block equals the scalar decode, for every variant, stream and count. -/
def Obligations.SimdDecodeEqualsScalarDecode : Prop :=
  ∀ (v : Variant) (S : List Byte) (rem : Nat), 1 ≤ rem →
    decBlockSimd (buildTable v.group) v S rem = decBlock v S rem

/-! ### Streams -/

/-- R81 item 3: BASIC4 streams decode to their input, also with further bytes after them (R100); under EMIT, unless a full
group holds four 4-byte values. -/
def Obligations.Basic4StreamsRoundTrip : Prop :=
  ∀ (policy : FFPolicy) (vs : List Word) (blocks : List (List Byte)) (tail : List Byte),
    encodeAll policy .basic4 vs = .ok blocks →
    (policy = .fault ∨ ∀ j, 4 * j + 4 ≤ vs.length → ∃ v ∈ (vs.drop (4 * j)).take 4, v.toNat < 0x1000000) →
    decodeAll (decBlock .basic4) (blocks.flatten ++ tail) vs.length = .ok (vs, blocks.flatten.length)

/-- R95 items 1 and 4: SENTINEL_NIB and TABLE_NIB encoding never fails, and each stream decodes to its input under either
variant, by the scalar path and by the table. -/
def Obligations.SentinelStreamsRoundTrip : Prop :=
  ∀ (policy : FFPolicy) (v v' : Variant) (vs : List Word) (tail : List Byte),
    v = .sentinelNib ∨ v = .tableNib → v' = .sentinelNib ∨ v' = .tableNib →
    ∃ blocks, encodeAll policy v vs = .ok blocks ∧
      decodeAll (decBlock v') (blocks.flatten ++ tail) vs.length = .ok (vs, blocks.flatten.length) ∧
      decodeAll (decBlockSimd (buildTable 2) v') (blocks.flatten ++ tail) vs.length =
        .ok (vs, blocks.flatten.length)

/-- R88 item 1: a HEADERLESS_NIB stream whose raw blocks all begin with a literal >= 0x40 decodes to its input. -/
def Obligations.HeaderlessStreamsRoundTripAboveTheBoundary : Prop :=
  ∀ (policy : FFPolicy) (vs : List Word) (blocks : List (List Byte)) (tail : List Byte),
    encodeAll policy .headerlessNib vs = .ok blocks → rawFirstLiteralsHigh vs.length vs →
    decodeAll (decBlock .headerlessNib) (blocks.flatten ++ tail) vs.length = .ok (vs, blocks.flatten.length)

/-- R88 item 2: below the boundary the decoder reads a raw block's first literal as a header. -/
def Obligations.HeaderlessFailureBoundary : Prop :=
  ∀ (policy : FFPolicy) (v : Word) (vs : List Word) (block tail : List Byte) (k rem : Nat),
    fastPath (v :: vs) → v.toNat < 0x40 → encBlock policy .headerlessNib (v :: vs) = .ok (block, k) →
    (v.extractLsb' 2 2 ≠ 0 → decBlock .headerlessNib (block ++ tail) rem = .error .malformed) ∧
    (v.extractLsb' 2 2 = 0 → decBlock .headerlessNib (block ++ tail) rem =
      decCoded [v.extractLsb' 0 2, v.extractLsb' 4 2] (block ++ tail) rem)

/-- R81 items 1 and 2, R89, R95 items 2 and 3: the length of a stream and its bound; a raw block of variant 1 has no
header. -/
def Obligations.StreamLengthsAndBounds : Prop :=
  ∀ (policy : FFPolicy) (v : Variant) (vs : List Word) (blocks : List (List Byte)),
    encodeAll policy v vs = .ok blocks →
    let total := (vs.map fun x => (classify x).toNat + 1).sum
    (v = .basic4 → blocks.length = (vs.length + 3) / 4 ∧ blocks.flatten.length = total + blocks.length ∧
      blocks.flatten.length ≤ (vs.length + 3) / 4 * 17) ∧
    (v = .headerlessNib → blocks.flatten.length = total + codedBlockCount vs.length vs) ∧
    (v = .sentinelNib ∨ v = .tableNib → blocks.flatten.length = total + blocks.length) ∧
    (v ≠ .basic4 → blocks.flatten.length ≤ (vs.length + 1) / 2 * 9)

/-! ### Whole commands -/

/-- R104: an accepted ENCODE whose START checks pass and whose stream fits runs, engine step by engine step, to completion
without error: BB begins with encode_V(vals), RESULT is its length, VDONE = n, and no other byte of `Mem` changed. -/
def Obligations.EncodeCommandWritesTheStream : Prop :=
  ∀ row ∈ encodeRows, ∀ s : State, s.Inv → s.inputs = [] → s.eng.phase = .start → s.race = [] →
    decodeCmd s.eng.w = row.1 → startPasses s .encode row.2 false →
    ∀ blocks, encodeAll s.cfg.ffPolicy row.2 (valueWords s) = .ok blocks →
      blocks.flatten.length ≤ s.byteCap.toNat →
      ∃ k t, k ≤ s.valCount.toNat + 2 ∧ Host.Core.run core k s = .next t ∧ t.eng.phase = .idle ∧
        t.status = { s.status with busy := false, done := true, err := false, errcode := .none } ∧
        t.result.toNat = blocks.flatten.length ∧ t.vdone = s.valCount ∧
        Memory.readBytes t.mem s.byteBase.toNat blocks.flatten.length = blocks.flatten ∧
        memoryFrame s t s.byteBase.toNat blocks.flatten.length

/-- R105: an accepted DECODE whose START checks pass and whose stream decodes runs to completion without error: VB holds the
n values, RESULT is the bytes consumed, VDONE = n, and no other byte of `Mem` changed. -/
def Obligations.DecodeCommandWritesTheValues : Prop :=
  ∀ row ∈ decodeRows, ∀ s : State, s.Inv → s.inputs = [] → s.eng.phase = .start → s.race = [] →
    decodeCmd s.eng.w = row.1 → startPasses s .decode row.2.1 row.2.2 →
    ∀ values len,
      decodeAll (decBlock row.2.1) (Memory.readBytes s.mem s.byteBase.toNat s.byteCap.toNat) s.valCount.toNat =
        .ok (values, len) →
      ∃ k t, k ≤ s.valCount.toNat + 2 ∧ Host.Core.run core k s = .next t ∧ t.eng.phase = .idle ∧
        t.status = { s.status with busy := false, done := true, err := false, errcode := .none } ∧
        t.result.toNat = len ∧ t.vdone = s.valCount ∧ valueWords t = values ∧
        memoryFrame s t s.valBase.toNat (4 * s.valCount.toNat)

/-- R103: a running command completes within n + 2 engine steps, and CLASSIFY, TABLE_INIT and every command that fails a
START check in exactly one. -/
def Obligations.EveryCommandCompletes : Prop :=
  ∀ s : State, s.Inv → s.status.busy = true → s.inputs = [] →
    (∃ k t, k ≤ s.valCount.toNat + 2 ∧ Host.Core.run core k s = .next t ∧ t.eng.phase = .idle ∧
      t.status.busy = false ∧ t.status.done = true) ∧
    (s.eng.phase = .start → ∃ t, step s = .next t ∧
      (t.eng.phase = .idle ∨ ∃ row ∈ codecRows, decodeCmd s.eng.w = row.1 ∧ startPasses s row.2.1 row.2.2.1 row.2.2.2 ∧
        t.eng.phase = .run))

/-! ### Whole-machine rules -/

/-- The invariant of Safety.lean: `Mem` canonical and inside its space, BUSY exactly while the engine runs, ERR exactly with
an error code, cursors within their buffers, START checks still passing in RUN, a valid table built, and the bytes kept
from before the command still right (log 8). Every step keeps it. -/
def Obligations.EveryStepKeepsTheInvariant : Prop :=
  ∀ s t : State, s.Inv → step s = .next t → t.Inv

/-- The invariant holds at reset. -/
def Obligations.InvariantHoldsAtReset : Prop := State.reset.Inv

/-- R45, R38: an engine step changes no byte outside the block it writes, and the commands without buffers change no
memory. -/
def Obligations.EngineWritesOnlyItsBlock : Prop :=
  ∀ s t : State, s.Inv → engineStep s t →
    (s.eng.phase ≠ .run → t.mem = s.mem) ∧
    (s.eng.phase = .run → s.eng.op = .encode →
      s.eng.p ≤ t.eng.p ∧ t.eng.p ≤ s.byteCap.toNat ∧
      memoryFrame s t (s.byteBase.toNat + s.eng.p) (t.eng.p - s.eng.p)) ∧
    (s.eng.phase = .run → s.eng.op = .decode →
      s.eng.i ≤ t.eng.i ∧ t.eng.i ≤ s.valCount.toNat ∧
      memoryFrame s t (s.valBase.toNat + 4 * s.eng.i) (4 * (t.eng.i - s.eng.i)))

/-- R101: a block step either writes all of its block and advances both cursors by it, or writes nothing and completes with
RESULT and VDONE at the cursors before it. That the block's bytes stand in `Mem` is said where the host has not raced
(R51). -/
def Obligations.BlockStepsAreAtomic : Prop :=
  ∀ s t : State, s.Inv → engineStep s t → s.eng.phase = .run →
    (t.eng.phase = .run ∧ s.eng.i < t.eng.i ∧ s.eng.p < t.eng.p ∧ t.status = s.status ∧ t.result = s.result ∧
      t.vdone = s.vdone ∧
      (s.race = [] → s.eng.op = .encode → ∃ block k,
        encBlock s.cfg.ffPolicy s.eng.variant ((List.range (min 4 (valuesLeft s))).map fun k =>
          Memory.read32 s.mem (s.valBase.toNat + 4 * (s.eng.i + k))) = .ok (block, k) ∧
        t.eng.i = s.eng.i + k ∧ t.eng.p = s.eng.p + block.length ∧
        Memory.readBytes t.mem (s.byteBase.toNat + s.eng.p) block.length = block ∧
        memoryFrame s t (s.byteBase.toNat + s.eng.p) block.length) ∧
      (s.race = [] → s.eng.op = .decode → ∃ values len,
        decBlock s.eng.variant (streamBytes s) (valuesLeft s) = .ok (values, len) ∧ valuesWritten s.tick t values len)) ∨
    (t.eng.phase = .idle ∧ t.mem = s.mem ∧ t.eng.i = s.eng.i ∧ t.eng.p = s.eng.p ∧ t.result.toNat = s.eng.p ∧
      t.vdone.toNat = s.eng.i ∧ t.status.done = true ∧ t.status.busy = false)

/-- R18 item 4, R35: while BUSY = 1 no step but a reset changes an operand register or the configuration. -/
def Obligations.OperandsAreFixedWhileBusy : Prop :=
  ∀ s t : State, s.status.busy = true → (∀ rest, s.inputs ≠ .reset :: rest) → step s = .next t → operandsKept s t

/-- R34, R25, R26, R28: but for a reset, only a TABLE_INIT step changes the table, only a CLASSIFY step changes CLASS_OUT,
and RESULT and VDONE change only in a step of an ENCODE or DECODE. -/
def Obligations.ResultRegistersHaveOneWriter : Prop :=
  ∀ s t : State, s.Inv → (∀ rest, s.inputs ≠ .reset :: rest) → step s = .next t →
    (t.table ≠ s.table → s.eng.phase = .start ∧ ∃ row ∈ tableInitRows, decodeCmd s.eng.w = row.1) ∧
    (t.classOut ≠ s.classOut → s.eng.phase = .start ∧ decodeCmd s.eng.w = .classify) ∧
    ((t.result ≠ s.result ∨ t.vdone ≠ s.vdone) →
      s.eng.phase ≠ .idle ∧ ∃ row ∈ codecRows, decodeCmd s.eng.w = row.1)

/-! ### The host and memory -/

/-- R44, R41: with no command running, a host write stores its bytes little-endian and changes no other byte, and a host
read returns the bytes of `Mem`, zero-extended. The widths and that every address is admitted are the model's (log 20). -/
def Obligations.HostMemoryAccessWhileIdle : Prop :=
  ∀ (s : State) (rest : List Input) (size : AccessSize) (addr : Nat) (v : Word),
    s.status.busy = false → Memory.wf s.mem = true → addr + size.bytes ≤ 2 ^ 32 →
    (∃ t, step { s with inputs := .memWrite size addr v :: rest } = .next t ∧
      t = { after s rest with mem := t.mem } ∧
      Memory.readBytes t.mem addr size.bytes = leBytes v size.bytes ∧ memoryFrame s t addr size.bytes) ∧
    step { s with inputs := .memRead size addr :: rest } =
      .next { after s rest with hostData := leValue (Memory.readBytes s.mem addr size.bytes) }

/-- R51: a host write to a byte of the buffer the running command reads takes effect, and a later engine read of the byte
returns the old or the new one. How the choice is drawn is the model's (log 7). -/
def Obligations.RacedByteReadsOldOrNew : Prop :=
  ∀ (s : State) (rest : List Input) (addr : Nat) (v : Word) (row : Instr × EngOp × Variant × Bool),
    row ∈ codecRows → s.Inv → s.race = [] → s.status.busy = true → decodeCmd s.eng.w = row.1 → addr < 2 ^ 32 →
    (if row.2.1 = .encode then s.inVB addr = true ∧ s.inBB addr = false else s.inBB addr = true ∧ s.inVB addr = false) →
    ∃ t, step { s with inputs := .memWrite .byte addr v :: rest } = .next t ∧
      Memory.read t.mem addr = v.extractLsb' 0 8 ∧ memoryFrame s t addr 1 ∧
      ∀ d, { t with draws := d }.engRead addr = v.extractLsb' 0 8 ∨
        { t with draws := d }.engRead addr = Memory.read s.mem addr

/-- R51: a host read of any width while a command runs returns, byte by byte, what R51 admits, and changes nothing but the
host's own read result; a byte that has met no race and that the command does not write by its end, whatever is drawn, reads
as it stands. What the host itself has written is admitted too, and how the choice is drawn is the model's (log 8), as are the widths
(log 20). -/
def Obligations.HostReadsWhileBusy : Prop :=
  ∀ (s : State) (rest : List Input) (size : AccessSize) (addr : Nat),
    s.Inv → s.status.busy = true → addr + size.bytes ≤ 2 ^ 32 →
    ∃ bytes : List Byte, bytes.length = size.bytes ∧
      step { s with inputs := .memRead size addr :: rest } = .next { after s rest with hostData := leValue bytes } ∧
      ∀ k b, bytes[k]? = some b → hostMayRead s (addr + k) b ∧
        (s.race = [] → (∀ draw u, endsIn s draw u → ¬writtenAt s u (addr + k)) → b = Memory.read s.mem (addr + k))

/-- R51: a byte of VB or BB that the host and the engine both write ends up as the host's or the engine's, whichever writes
last, and neither is lost to the host's reads while the command runs. How the choice is drawn, and that both are kept in the
field race, are the model's (log 7, log 8). -/
def Obligations.RacedWritesKeepEitherByte : Prop :=
  (∀ s t : State, s.Inv → engineStep s t → s.eng.phase = .run → t.eng.phase = .run →
    (s.eng.op = .encode → ∀ block k, encBlock s.cfg.ffPolicy s.eng.variant s.tick.nextValues = .ok (block, k) →
      ∀ j b, block[j]? = some b → engineWrites s t (s.byteBase.toNat + s.eng.p + j) b) ∧
    (s.eng.op = .decode → ∀ values len, decBlock s.eng.variant s.tick.stream (valuesLeft s) = .ok (values, len) →
      ∀ j b, (values.flatMap fun v => leBytes v 4)[j]? = some b →
        engineWrites s t (s.valBase.toNat + 4 * s.eng.i + j) b)) ∧
  ∀ (s : State) (rest : List Input) (addr : Nat) (v : Word) (row : Instr × EngOp × Variant × Bool),
    row ∈ codecRows → s.Inv → s.status.busy = true → decodeCmd s.eng.w = row.1 → addr < 2 ^ 32 →
    (s.inVB addr = true ∨ s.inBB addr = true) →
    ∃ t, step { s with inputs := .memWrite .byte addr v :: rest } = .next t ∧ memoryFrame s t addr 1 ∧
      (Memory.read t.mem addr = v.extractLsb' 0 8 ∨
        (s.eng.phase = .run ∧ writtenAt s s addr ∧ Memory.read t.mem addr = Memory.read s.mem addr)) ∧
      (addr, v.extractLsb' 0 8) ∈ t.race ∧ (addr, Memory.read s.mem addr) ∈ t.race
end

