-- ==== Sys2Proof/Laws/Codec.lean ====
section
/-! SUPPORT. The laws of the pure codec functions: byte lists (00_scope.md R10), the Length Classifier (40_classifier.md
R72), and one bound lemma per block function. -/

namespace Sys2Proof.Machine

/-! ### Little-endian byte lists -/

@[simp] theorem length_leBytes (v : Word) (k : Nat) : (leBytes v k).length = k := by
  induction k generalizing v with
  | zero => rfl
  | succ k ih => simp [leBytes, ih]

@[simp] theorem length_flatMap_leBytes4 (vs : List Word) : (vs.flatMap fun v => leBytes v 4).length = 4 * vs.length := by
  induction vs with
  | nil => rfl
  | cons v vs ih => simp only [List.flatMap_cons, List.length_append, length_leBytes, List.length_cons, ih]; omega

theorem low_or_high (v : Word) : (v.extractLsb' 0 8).setWidth 32 ||| ((v >>> 8) <<< 8) = v := by
  apply BitVec.eq_of_getLsbD_eq
  intro i hi
  by_cases h : i < 8
  · simp [h, hi]
  · have : 8 + (i - 8) = i := by omega
    simp [h, hi, this]

/-- `le_value(le_bytes(v, L)) = v` for every v < 2^(8L) (R10). -/
theorem leValue_leBytes (v : Word) (k : Nat) (h : v.toNat < 2 ^ (8 * k)) : leValue (leBytes v k) = v := by
  induction k generalizing v with
  | zero => simp at h; exact (BitVec.eq_of_toNat_eq (by simpa [leBytes, leValue] using h)).symm
  | succ k ih =>
    have h' : (v >>> 8).toNat < 2 ^ (8 * k) := by
      rw [BitVec.toNat_ushiftRight, Nat.shiftRight_eq_div_pow]
      exact Nat.div_lt_of_lt_mul (by rw [← pow_add]; convert h using 2; omega)
    simp only [leBytes, leValue, ih _ h']
    exact low_or_high v

theorem leValue_leBytes4 (v : Word) : leValue (leBytes v 4) = v := leValue_leBytes v 4 v.isLt

/-- Up to four bytes stay below 2^(8 * length), and the first is the least significant (R10). -/
theorem toNat_leValue (b : Byte) (bs : List Byte) (h : bs.length ≤ 3) :
    (leValue bs).toNat < 2 ^ 24 ∧ (leValue (b :: bs)).toNat = b.toNat + 256 * (leValue bs).toNat := by
  have key : ∀ (b : Byte) (bs : List Byte), (leValue bs).toNat < 2 ^ 24 →
      (leValue (b :: bs)).toNat = b.toNat + 256 * (leValue bs).toNat := by
    intro b bs hlt
    have hb := b.isLt
    simp only [leValue, BitVec.toNat_or, BitVec.toNat_setWidth, BitVec.toNat_shiftLeft]
    rw [Nat.mod_eq_of_lt (by omega), Nat.shiftLeft_eq, Nat.mod_eq_of_lt (by omega)]
    have := Nat.two_pow_add_eq_or_of_lt (i := 8) (b := b.toNat) hb (leValue bs).toNat
    rw [Nat.or_comm, Nat.mul_comm, ← this]; omega
  have lt : ∀ bs : List Byte, bs.length ≤ 3 → (leValue bs).toNat < 2 ^ (8 * bs.length) := by
    intro bs hl
    induction bs with
    | nil => simp [leValue]
    | cons c bs ih =>
      simp only [List.length_cons] at hl
      have i1 := ih (by omega)
      have : (2:Nat) ^ (8 * bs.length) ≤ 2 ^ 16 := Nat.pow_le_pow_right (by decide) (by omega)
      have hc := c.isLt
      rw [key c bs (by omega), List.length_cons, Nat.mul_succ, pow_add]; omega
  have : (leValue bs).toNat < 2 ^ 24 := lt_of_lt_of_le (lt bs h) (Nat.pow_le_pow_right (by decide) (by omega))
  exact ⟨this, key b bs this⟩

/-- The bytes of a register image of four bytes, the first in bits [7:0] (R10, R31). -/
theorem extractLsb'_leValue (a b c d : Byte) :
    (leValue [a, b, c, d]).extractLsb' 0 8 = a ∧ (leValue [a, b, c, d]).extractLsb' 8 8 = b ∧
      (leValue [a, b, c, d]).extractLsb' 16 8 = c ∧ (leValue [a, b, c, d]).extractLsb' 24 8 = d := by
  have h0 := (toNat_leValue a [b, c, d] (by simp)).2
  have h1 := (toNat_leValue b [c, d] (by simp)).2
  have h2 := (toNat_leValue c [d] (by simp)).2
  have h3 := (toNat_leValue d [] (by simp)).2
  have h4 : (leValue []).toNat = 0 := rfl
  have := a.isLt; have := b.isLt; have := c.isLt; have := d.isLt
  refine ⟨?_, ?_, ?_, ?_⟩ <;> apply BitVec.eq_of_toNat_eq <;>
    rw [BitVec.extractLsb'_toNat, Nat.shiftRight_eq_div_pow] <;> omega

/-! ### The classifier -/

theorem classify_eq_zero_iff (v : Word) : classify v = 0 ↔ v.toNat ≤ 255 := by
  unfold classify
  split
  · rename_i h; simp only [BitVec.le_def] at h; simpa using h
  · rename_i h
    simp only [BitVec.le_def] at h
    have : ¬ v.toNat ≤ 255 := by simpa using h
    simp only [this, iff_false]
    split
    · decide
    · split <;> decide

theorem toNat_lt_of_classify (v : Word) : v.toNat < 2 ^ (8 * codeBytes (classify v)) := by
  unfold classify codeBytes
  have := v.isLt
  split
  · rename_i h; simp only [BitVec.le_def] at h; simp at h ⊢; omega
  · split
    · rename_i h; simp only [BitVec.le_def] at h; simp at h ⊢; omega
    · split
      · rename_i h; simp only [BitVec.le_def] at h; simp at h ⊢; omega
      · simpa using this

theorem codeBytes_pos (c : LengthCode) : 1 ≤ codeBytes c := Nat.le_add_left _ _
theorem codeBytes_le (c : LengthCode) : codeBytes c ≤ 4 := by have := c.isLt; unfold codeBytes; omega

/-! ### Encoding one block -/

theorem length_payload (vs : List Word) : (payload vs).length = (vs.map fun v => codeBytes (classify v)).sum := by
  induction vs with
  | nil => rfl
  | cons v vs ih => simp [payload, ih]

theorem length_payload_le (vs : List Word) : (payload vs).length ≤ 4 * vs.length := by
  induction vs with
  | nil => simp [payload]
  | cons v vs ih =>
    have := codeBytes_le (classify v)
    simp only [payload, List.length_append, length_leBytes, List.length_cons]
    omega

theorem rawTest_length {vs : List Word} (h : rawTest vs = true) : 4 ≤ vs.length := by
  simp only [rawTest, Config.rawCount, Bool.and_eq_true] at h
  exact of_decide_eq_true h.1

/-- A block covers at least one and at most the given values, and has 1 to 17 bytes. -/
theorem encBlock_bounds {policy : FFPolicy} {v : Variant} {vs : List Word} {block : List Byte} {k : Nat}
    (hne : vs ≠ []) (h : encBlock policy v vs = .ok (block, k)) :
    1 ≤ k ∧ k ≤ vs.length ∧ 1 ≤ block.length ∧ block.length ≤ Config.maxBlock := by
  have hpos : 0 < vs.length := List.length_pos_iff.mpr hne
  unfold encBlock at h
  split at h
  · rename_i hraw
    have := rawTest_length hraw
    cases h
    cases v <;> simp [encRaw, literals, Config.rawCount, Config.maxBlock] <;> omega
  · have h4 := length_payload_le (vs.take 4)
    have h2 := length_payload_le (vs.take 2)
    simp only [List.length_take] at h4 h2
    cases v <;> simp only [encCoded, encCodedB4, encCodedNib] at h
    · split at h <;> cases h
      simp only [List.length_take, List.length_cons, Config.maxBlock]
      omega
    all_goals
      cases h
      simp only [List.length_take, List.length_cons, Config.maxBlock]
      omega

/-- The only error of an encode function is COLLISION, and only BASIC4 raises it, under FAULT (R77, R99). -/
theorem encBlock_error {policy : FFPolicy} {v : Variant} {vs : List Word} {e : ErrCode}
    (h : encBlock policy v vs = .error e) : e = .collision ∧ v = .basic4 ∧ policy = .fault := by
  unfold encBlock at h
  split at h
  · cases h
  · cases v <;> simp only [encCoded, encCodedB4, encCodedNib] at h
    · split at h
      · rename_i hc; cases h; exact ⟨rfl, rfl, hc.2.2⟩
      · cases h
    all_goals cases h

/-! ### Decoding one block -/

@[simp] theorem length_slotValues (codes : List LengthCode) (bytes : List Byte) :
    (slotValues codes bytes).length = codes.length := by
  induction codes generalizing bytes with
  | nil => rfl
  | cons c cs ih => simp [slotValues, ih]

/-- What a block function's success says: at least one and at most rem values from 1 to len(S) bytes (R100). -/
def DecodesWithin (S : List Byte) (rem : Nat) (res : Except ErrCode (List Word × Nat)) : Prop :=
  ∀ values len, res = .ok (values, len) → 1 ≤ values.length ∧ values.length ≤ rem ∧ 1 ≤ len ∧ len ≤ S.length

theorem decRawMarked_within (S : List Byte) (rem : Nat) : DecodesWithin S rem (decRawMarked S rem) := by
  intro values len h
  unfold decRawMarked at h
  split at h
  · cases h
  · split at h
    · cases h
    · cases h; simp [literalValues]; omega

theorem decRawHeaderless_within (b : Byte) (S : List Byte) (rem : Nat) :
    DecodesWithin S rem (decRawHeaderless b S rem) := by
  intro values len h
  unfold decRawHeaderless at h
  split at h
  · cases h
  · split at h
    · cases h
    · cases h; simp [literalValues]; omega

theorem decCoded_within (codes : List LengthCode) (S : List Byte) {rem : Nat} (hc : codes ≠ []) (hr : 1 ≤ rem) :
    DecodesWithin S rem (decCoded codes S rem) := by
  intro values len h
  have := List.length_pos_iff.mpr hc
  unfold decCoded at h
  split at h
  · cases h
  · cases h; simp; omega

theorem decGather_within (e : Entry) {g : Nat} (S : List Byte) {rem : Nat} (hg : 1 ≤ g) (hr : g ≤ rem) :
    DecodesWithin S rem (decGather e g S) := by
  intro values len h
  unfold decGather at h
  split at h
  · cases h
  · cases h; simp [gather]; omega

theorem decMalformed_within (S : List Byte) (rem : Nat) : DecodesWithin S rem (decMalformed S rem) := by
  intro values len h; cases h

theorem decRaw_within (v : Variant) (S : List Byte) (rem : Nat) : DecodesWithin S rem (decRaw v S rem) := by
  cases v
  · exact decRawMarked_within S rem
  · exact decRawHeaderless_within _ S rem
  · exact decRawMarked_within S rem
  · exact decRawMarked_within S rem

theorem codesOf_ne_nil (v : Variant) (h : Byte) : codesOf v h ≠ [] := by cases v <;> simp [codesOf, codesB4, codesNib]

theorem one_le_group (v : Variant) : 1 ≤ v.group := by cases v <;> decide

theorem decBlock_within (v : Variant) (S : List Byte) {rem : Nat} (hr : 1 ≤ rem) :
    DecodesWithin S rem (decBlock v S rem) := by
  unfold decBlock
  split
  · intro _ _ h; cases h
  · split
    · exact decRaw_within v _ rem
    · exact decCoded_within _ _ (codesOf_ne_nil v _) hr
    · exact decMalformed_within _ rem

theorem decBlockSimd_within (t : Table) (v : Variant) (S : List Byte) {rem : Nat} (hr : 1 ≤ rem) :
    DecodesWithin S rem (decBlockSimd t v S rem) := by
  unfold decBlockSimd
  split
  · intro _ _ h; cases h
  · split
    · exact decRaw_within v _ rem
    · exact decMalformed_within _ rem
    · split
      · exact decCoded_within _ _ (codesOf_ne_nil v _) hr
      · exact decGather_within _ _ (one_le_group v) (by omega)

theorem State.blockDecoder_within (s : State) (S : List Byte) {rem : Nat} (hr : 1 ≤ rem) :
    DecodesWithin S rem (s.blockDecoder S rem) := by
  unfold State.blockDecoder
  split
  · exact decBlockSimd_within _ _ S hr
  · exact decBlock_within _ S hr

theorem State.codedDecoder_within (s : State) (v : Variant) (h : Byte) {codes : List LengthCode} (S : List Byte)
    {rem : Nat} (hc : codes ≠ []) (hr : 1 ≤ rem) : DecodesWithin S rem (s.codedDecoder v h codes S rem) := by
  unfold State.codedDecoder
  split
  · rename_i hg; exact decGather_within _ _ (one_le_group v) hg.2
  · exact decCoded_within codes S hc hr

/-! ### The table -/

/-- The entry TABLE_INIT builds for a byte (R109). -/
@[simp] theorem entry_buildTable (g : Nat) (d : Byte) : Table.entry (buildTable g) d = buildEntry g d := by
  simp [Table.entry, buildTable]

theorem getElem_buildTable (g : Nat) {d : Nat} (h : d < 256) :
    (buildTable g)[d] = buildEntry g (BitVec.ofNat 8 d) := by
  unfold buildTable
  rw [Vector.getElem_ofFn]

end Sys2Proof.Machine
end

