-- ==== Sys2Proof/Laws/Decode.lean ====
section
/-! SUPPORT. The command word's opcode map as a list of words (30_encoding.md R58), for the proofs about decoding. -/

namespace Sys2Proof

/-- The 17 legal command words, in the opcode table's order. -/
def legalWords : List Word :=
  [0x01, 0x11, 0x21, 0x31, 0x02, 0x42, 0x12, 0x52, 0x22, 0x62, 0x32, 0x72, 0x03, 0x04, 0x14, 0x24, 0x34]

/-- The match and mask form of R58 is the list. -/
theorem cmdWordLegal_iff (w : Word) : cmdWordLegal w = true ↔ w ∈ legalWords := by
  constructor
  · intro h
    have hlt : w.toNat < 128 := by
      simp only [cmdWordLegal, Bool.or_eq_true, beq_iff_eq] at h
      have key : w &&& 0xFFFFFF80 = 0 := by
        rcases h with ((h | h) | h) | h
        · have : w &&& 0xFFFFFF80 = (w &&& 0xFFFFFFCF) &&& 0xFFFFFF80 := by rw [BitVec.and_assoc]; rfl
          rw [this, h]; rfl
        · have : w &&& 0xFFFFFF80 = (w &&& 0xFFFFFF8F) &&& 0xFFFFFF80 := by rw [BitVec.and_assoc]; rfl
          rw [this, h]; rfl
        · rw [h]; rfl
        · have : w &&& 0xFFFFFF80 = (w &&& 0xFFFFFFCF) &&& 0xFFFFFF80 := by rw [BitVec.and_assoc]; rfl
          rw [this, h]; rfl
      have h2 : w = w &&& 0x7F := by
        have : w = w &&& (0xFFFFFF80 ||| 0x7F) := by
          rw [show (0xFFFFFF80 ||| 0x7F : Word) = BitVec.allOnes 32 from rfl, BitVec.and_allOnes]
        conv_lhs => rw [this, BitVec.and_or_distrib_left, key]
        simp
      have : (w &&& 0x7F).toNat < 128 := by
        rw [BitVec.toNat_and]; exact lt_of_le_of_lt Nat.and_le_right (by decide)
      rw [h2]; exact this
    obtain ⟨x, rfl⟩ : ∃ x : BitVec 7, w = x.setWidth 32 := ⟨w.setWidth 7, by
      apply BitVec.eq_of_toNat_eq; simp; omega⟩
    revert h; clear hlt; revert x; decide +kernel
  · intro h
    simp only [legalWords, List.mem_cons, List.not_mem_nil, or_false] at h
    rcases h with rfl | rfl | rfl | rfl | rfl | rfl | rfl | rfl | rfl | rfl | rfl | rfl | rfl | rfl | rfl | rfl | rfl <;> decide

/-- Every word outside R58 decodes to ILLEGAL. -/
theorem decodeCmd_illegal {w : Word} (h : cmdWordLegal w = false) : decodeCmd w = .illegal w := by
  have : ¬ (w ∈ legalWords) := by
    rw [← cmdWordLegal_iff]; simp [h]
  simp only [legalWords, List.mem_cons, List.not_mem_nil, or_false, not_or] at this
  unfold decodeCmd; simp only [this, if_false]

end Sys2Proof
end

