-- ==== Sys2Proof/Laws/Memory.lean ====
section
/-! SUPPORT. The laws of `Mem` (20_memory.md R37, R44): every memory operation keeps the canonical form and stays inside the
address space, a read after a write to the same address gives the byte written, and a write leaves every other address
alone. -/

namespace Sys2Proof.Machine

/-! ### One byte -/

theorem Memory.above_write {m : Memory} {a b : Nat} {v : Byte} (hm : Memory.above b m = true) (hb : b < a) :
    Memory.above b (Memory.write m a v) = true := by
  induction m with
  | nil => simp only [Memory.write]; split <;> simp [Memory.above, hb]
  | cons c m ih =>
    obtain ⟨c, w⟩ := c
    simp only [Memory.above, Bool.and_eq_true, decide_eq_true_eq] at hm
    simp only [Memory.write]
    split
    · split <;> simp [Memory.above, hm, hb]
    · split
      · split <;> simp [Memory.above, hm, hb]
      · simp [Memory.above, hm, ih hm.2]

theorem Memory.above_mono {m : Memory} {a b : Nat} (h : Memory.above b m = true) (hab : a ≤ b) :
    Memory.above a m = true := by
  induction m with
  | nil => rfl
  | cons c m ih =>
    simp only [Memory.above, Bool.and_eq_true, decide_eq_true_eq] at h ⊢
    exact ⟨by omega, ih h.2⟩

/-- A write keeps the canonical form. -/
theorem Memory.wf_write {m : Memory} {a : Nat} {v : Byte} (hm : Memory.wf m = true) :
    Memory.wf (Memory.write m a v) = true := by
  induction m with
  | nil => simp only [Memory.write]; split <;> simp_all [Memory.wf, Memory.above]
  | cons c m ih =>
    obtain ⟨c, w⟩ := c
    simp only [Memory.wf, Bool.and_eq_true, bne_iff_ne, ne_eq] at hm
    obtain ⟨⟨hw, hab⟩, hwf⟩ := hm
    simp only [Memory.write]
    split
    · rename_i hlt
      split
      · simp [Memory.wf, hw, hab, hwf]
      · rename_i hv
        simp [Memory.wf, Memory.above, hv, hw, hab, hwf, hlt, Memory.above_mono hab (Nat.le_of_lt hlt)]
    · split
      · rename_i heq
        split
        · exact hwf
        · rename_i hv; subst heq; simp [Memory.wf, hv, hab, hwf]
      · have hca : c < a := by omega
        simp [Memory.wf, hw, Memory.above_write hab hca, ih hwf]

theorem Memory.read_of_above {m : Memory} {a : Nat} (h : Memory.above a m = true) :
    Memory.read m a = unwrittenByte := by
  induction m with
  | nil => rfl
  | cons c m ih =>
    obtain ⟨c, w⟩ := c
    simp only [Memory.above, Bool.and_eq_true, decide_eq_true_eq] at h
    have : a ≠ c := by omega
    simp [Memory.read, this, ih h.2]

/-- A read of the address just written gives the byte written (R44). -/
theorem Memory.read_write_same {m : Memory} {a : Nat} {v : Byte} (hm : Memory.wf m = true) :
    Memory.read (Memory.write m a v) a = v := by
  induction m with
  | nil => simp only [Memory.write]; split <;> simp_all [Memory.read]
  | cons c m ih =>
    obtain ⟨c, w⟩ := c
    simp only [Memory.wf, Bool.and_eq_true] at hm
    obtain ⟨⟨-, hab⟩, hwf⟩ := hm
    simp only [Memory.write]
    split
    · rename_i hlt
      split
      · rename_i hv
        have hne : a ≠ c := by omega
        simp [Memory.read, hne, hv, Memory.read_of_above (Memory.above_mono hab (Nat.le_of_lt hlt))]
      · simp [Memory.read]
    · split
      · rename_i heq
        subst heq
        split
        · rename_i hv; rw [hv, Memory.read_of_above hab]
        · simp [Memory.read]
      · rename_i hne
        simp [Memory.read, hne, ih hwf]

/-- A write leaves every other address alone (R44). -/
theorem Memory.read_write_other {m : Memory} {a b : Nat} {v : Byte} (hne : b ≠ a) :
    Memory.read (Memory.write m a v) b = Memory.read m b := by
  induction m with
  | nil => simp only [Memory.write]; split <;> simp [Memory.read, hne]
  | cons c m ih =>
    obtain ⟨c, w⟩ := c
    simp only [Memory.write]
    split
    · split <;> simp [Memory.read, hne]
    · split
      · rename_i heq
        subst heq
        split <;> simp [Memory.read, hne]
      · simp only [Memory.read]
        split
        · rfl
        · exact ih

/-- A write inside the address space keeps every listed address inside it (R37). -/
theorem Memory.inSpace_write {m : Memory} {a : Nat} {v : Byte} (hm : Memory.inSpace m = true)
    (ha : a < Config.memSize) : Memory.inSpace (Memory.write m a v) = true := by
  induction m with
  | nil => simp only [Memory.write]; split <;> simp [Memory.inSpace, ha]
  | cons c m ih =>
    obtain ⟨c, w⟩ := c
    simp only [Memory.inSpace, Bool.and_eq_true, decide_eq_true_eq] at hm
    simp only [Memory.write]
    split
    · split <;> simp [Memory.inSpace, hm, ha]
    · split
      · split <;> simp [Memory.inSpace, hm, ha]
      · simp [Memory.inSpace, hm, ih hm.2]

/-- Two canonical memories that read the same everywhere are the same list. -/
theorem Memory.ext_of_wf {m m' : Memory} (h : Memory.wf m = true) (h' : Memory.wf m' = true)
    (heq : ∀ a, Memory.read m a = Memory.read m' a) : m = m' := by
  induction m generalizing m' with
  | nil =>
    cases m' with
    | nil => rfl
    | cons c m' =>
      obtain ⟨c, w⟩ := c
      simp only [Memory.wf, Bool.and_eq_true, bne_iff_ne, ne_eq] at h'
      have := heq c
      simp [Memory.read] at this
      exact absurd this.symm h'.1.1
  | cons c m ih =>
    obtain ⟨c, w⟩ := c
    simp only [Memory.wf, Bool.and_eq_true, bne_iff_ne, ne_eq] at h
    obtain ⟨⟨hw, hab⟩, hwf⟩ := h
    cases m' with
    | nil =>
      have := heq c
      simp [Memory.read] at this
      exact absurd this hw
    | cons d m' =>
      obtain ⟨d, x⟩ := d
      simp only [Memory.wf, Bool.and_eq_true, bne_iff_ne, ne_eq] at h'
      obtain ⟨⟨hx, hab'⟩, hwf'⟩ := h'
      have hcd : c = d := by
        rcases Nat.lt_trichotomy c d with hlt | heq' | hgt
        · have h1 := heq c
          have hne : c ≠ d := by omega
          simp only [Memory.read, if_true, if_neg hne,
            Memory.read_of_above (Memory.above_mono hab' (Nat.le_of_lt hlt))] at h1
          exact absurd h1 hw
        · exact heq'
        · have h1 := heq d
          have hne : d ≠ c := by omega
          simp only [Memory.read, if_true, if_neg hne,
            Memory.read_of_above (Memory.above_mono hab (Nat.le_of_lt hgt))] at h1
          exact absurd h1.symm hx
      subst hcd
      have hwx : w = x := by simpa [Memory.read] using heq c
      subst hwx
      have htail : ∀ a, Memory.read m a = Memory.read m' a := by
        intro a
        by_cases hac : a = c
        · subst hac; rw [Memory.read_of_above hab, Memory.read_of_above hab']
        · simpa [Memory.read, hac] using heq a
      rw [ih hwf hwf' htail]

/-! ### Byte lists -/

@[simp] theorem Memory.length_readBytes (m : Memory) (a k : Nat) : (Memory.readBytes m a k).length = k := by
  induction k generalizing a with
  | zero => rfl
  | succ k ih => simp [Memory.readBytes, ih]

theorem Memory.getElem?_readBytes (m : Memory) (a k j : Nat) :
    (Memory.readBytes m a k)[j]? = if j < k then some (Memory.read m (a + j)) else none := by
  induction k generalizing a j with
  | zero => simp [Memory.readBytes]
  | succ k ih =>
    cases j with
    | zero => simp [Memory.readBytes]
    | succ j => simp [Memory.readBytes, ih, Nat.add_assoc, Nat.add_comm 1 j]

theorem Memory.readBytes_append (m : Memory) (a j k : Nat) :
    Memory.readBytes m a (j + k) = Memory.readBytes m a j ++ Memory.readBytes m (a + j) k := by
  induction j generalizing a with
  | zero => simp [Memory.readBytes]
  | succ j ih => simp [Memory.readBytes, Nat.succ_add, ih, Nat.add_assoc]

theorem Memory.readBytes_congr {m m' : Memory} {a k : Nat}
    (h : ∀ b, a ≤ b → b < a + k → Memory.read m b = Memory.read m' b) :
    Memory.readBytes m a k = Memory.readBytes m' a k := by
  induction k generalizing a with
  | zero => rfl
  | succ k ih =>
    simp only [Memory.readBytes]
    rw [h a (by omega) (by omega), ih fun b hb hb' => h b (by omega) (by omega)]

theorem Memory.wf_writeBytes {m : Memory} (a : Nat) (bs : List Byte) (hm : Memory.wf m = true) :
    Memory.wf (Memory.writeBytes m a bs) = true := by
  induction bs generalizing m a with
  | nil => exact hm
  | cons b bs ih => exact ih _ (Memory.wf_write hm)

theorem Memory.read_writeBytes_outside {m : Memory} {a b : Nat} {bs : List Byte}
    (h : b < a ∨ a + bs.length ≤ b) : Memory.read (Memory.writeBytes m a bs) b = Memory.read m b := by
  induction bs generalizing m a with
  | nil => rfl
  | cons c bs ih =>
    simp only [List.length_cons] at h
    rw [Memory.writeBytes, ih (by omega), Memory.read_write_other (by omega)]

theorem Memory.readBytes_writeBytes {m : Memory} (a : Nat) (bs : List Byte) (hm : Memory.wf m = true) :
    Memory.readBytes (Memory.writeBytes m a bs) a bs.length = bs := by
  induction bs generalizing m a with
  | nil => rfl
  | cons b bs ih =>
    simp only [List.length_cons, Memory.readBytes, Memory.writeBytes]
    rw [ih _ (Memory.wf_write hm), Memory.read_writeBytes_outside (by omega), Memory.read_write_same hm]

theorem Memory.inSpace_writeBytes {m : Memory} {a : Nat} {bs : List Byte} (hm : Memory.inSpace m = true)
    (ha : a + bs.length ≤ Config.memSize) : Memory.inSpace (Memory.writeBytes m a bs) = true := by
  induction bs generalizing m a with
  | nil => exact hm
  | cons b bs ih =>
    simp only [List.length_cons] at ha
    exact ih (Memory.inSpace_write hm (by omega)) (by omega)

/-! ### The engine's writes, raced or not -/

theorem State.wf_engWriteBytes (s : State) {m : Memory} (a : Nat) (bs : List Byte) (hm : Memory.wf m = true) :
    Memory.wf (s.engWriteBytes m a bs) = true := by
  induction bs generalizing m a with
  | nil => exact hm
  | cons b bs ih => exact ih _ (Memory.wf_write hm)

theorem State.read_engWriteBytes_outside (s : State) {m : Memory} {a b : Nat} {bs : List Byte}
    (h : b < a ∨ a + bs.length ≤ b) : Memory.read (s.engWriteBytes m a bs) b = Memory.read m b := by
  induction bs generalizing m a with
  | nil => rfl
  | cons c bs ih =>
    simp only [List.length_cons] at h
    rw [State.engWriteBytes, ih (by omega), Memory.read_write_other (by omega)]

theorem State.inSpace_engWriteBytes (s : State) {m : Memory} {a : Nat} {bs : List Byte}
    (hm : Memory.inSpace m = true) (ha : a + bs.length ≤ Config.memSize) :
    Memory.inSpace (s.engWriteBytes m a bs) = true := by
  induction bs generalizing m a with
  | nil => exact hm
  | cons b bs ih =>
    simp only [List.length_cons] at ha
    exact ih (Memory.inSpace_write hm (by omega)) (by omega)

/-- Without a race the engine's write is the plain write. -/
theorem State.engWriteBytes_of_race_nil {s : State} (h : s.race = []) (m : Memory) (a : Nat) (bs : List Byte) :
    s.engWriteBytes m a bs = Memory.writeBytes m a bs := by
  induction bs generalizing m a with
  | nil => rfl
  | cons b bs ih => simp [State.engWriteBytes, Memory.writeBytes, State.engStore, State.racedBytes, h, ih]

@[simp] theorem State.mem_racedBytes {s : State} {a : Nat} {b : Byte} : b ∈ s.racedBytes a ↔ (a, b) ∈ s.race := by
  simp [State.racedBytes]

/-- Without a race the engine's write records none. -/
theorem State.engRaceBytes_of_race_nil {s : State} (h : s.race = []) (a : Nat) (bs : List Byte) :
    s.engRaceBytes a bs = [] := by
  induction bs generalizing a with
  | nil => exact h
  | cons b bs ih => simp [State.engRaceBytes, State.racedBytes, h, ih]

/-- What the race record holds after the engine's write: what it held, and the engine's own bytes where the host has
raced. -/
theorem State.mem_engRaceBytes {s : State} {a : Nat} {bs : List Byte} {c : Host.Cell} :
    c ∈ s.engRaceBytes a bs ↔
      c ∈ s.race ∨ (s.racedBytes c.1 ≠ [] ∧ a ≤ c.1 ∧ bs[c.1 - a]? = some c.2) := by
  induction bs generalizing a with
  | nil => simp [State.engRaceBytes]
  | cons b bs ih =>
    have hj : c.1 ≠ a → (bs[c.1 - (a + 1)]? = some c.2 ∧ a + 1 ≤ c.1 ↔
        (b :: bs)[c.1 - a]? = some c.2 ∧ a ≤ c.1) := fun hne => by
      by_cases hle : a + 1 ≤ c.1
      · rw [show c.1 - a = c.1 - (a + 1) + 1 by omega, List.getElem?_cons_succ]
        simp [hle, Nat.le_of_succ_le hle]
      · exact ⟨fun h => absurd h.2 hle, fun h => absurd h.2 (by omega)⟩
    obtain ⟨c1, c2⟩ := c
    rw [State.engRaceBytes]
    by_cases hc : c1 = a
    · subst hc
      split
      · rename_i h; simp only [List.isEmpty_iff] at h; simp [ih, h]
      · rename_i h
        simp only [List.isEmpty_iff] at h
        simp [List.mem_cons, ih, h, eq_comm, or_comm]
    · have hj := hj hc
      split
      · rw [ih]; simp only at hj ⊢; tauto
      · rw [List.mem_cons, ih]; simp only [Prod.mk.injEq, hc, false_and, false_or] at hj ⊢; tauto

/-- An engine write keeps every race on record. -/
theorem State.racedBytes_nil_of_engRaceBytes {s t : State} {a c : Nat} {bs : List Byte}
    (ht : t.race = s.engRaceBytes a bs) (h : t.racedBytes c = []) : s.racedBytes c = [] := by
  simp only [List.eq_nil_iff_forall_not_mem, State.mem_racedBytes] at h ⊢
  exact fun b hb => h b (ht ▸ State.mem_engRaceBytes.2 (.inl hb))

/-- The byte the engine writes at `a + j` stands there, or the host's racing one does (R51). -/
theorem State.read_engWriteBytes_inside (s : State) {m : Memory} (a : Nat) {bs : List Byte} (hm : Memory.wf m = true)
    {j : Nat} {b : Byte} (h : bs[j]? = some b) :
    Memory.read (s.engWriteBytes m a bs) (a + j) = b ∨
      (s.racedBytes (a + j) ≠ [] ∧ Memory.read (s.engWriteBytes m a bs) (a + j) = Memory.read m (a + j)) := by
  induction bs generalizing m a j with
  | nil => cases h
  | cons c bs ih =>
    cases j with
    | zero =>
      obtain rfl : c = b := by simpa using h
      simp only [Nat.add_zero]
      rw [State.engWriteBytes, s.read_engWriteBytes_outside (by omega), Memory.read_write_same hm, State.engStore]
      split
      · exact .inl rfl
      · rename_i hr
        split
        · exact .inr ⟨by simpa using hr, rfl⟩
        · exact .inl rfl
    | succ j =>
      rw [List.getElem?_cons_succ] at h
      rw [State.engWriteBytes, show a + (j + 1) = a + 1 + j by omega]
      rw [← Memory.read_write_other (m := m) (a := a) (v := s.engStore m a c) (show a + 1 + j ≠ a by omega)]
      exact ih (a + 1) (Memory.wf_write hm) h

/-! ### The engine's reads, raced or not -/

/-- A drawn byte is one of its candidates. -/
theorem State.drawByte_mem (s : State) (a : Nat) (m : Byte) (others : List Byte) :
    s.drawByte a m others = m ∨ s.drawByte a m others ∈ others := by
  unfold State.drawByte
  split
  · exact .inl rfl
  · rename_i o os
    have h : Config.freePick s.draws a % (os.length + 2) < (m :: o :: os).length := Nat.mod_lt _ (by omega)
    rw [List.getD_eq_getElem _ _ h]
    exact List.mem_cons.1 (List.getElem_mem h)

@[simp] theorem State.drawByte_nil (s : State) (a : Nat) (m : Byte) : s.drawByte a m [] = m := rfl

/-- Without a race the engine reads what `Mem` holds. -/
theorem State.engRead_of_race_nil {s : State} (h : s.race = []) (a : Nat) : s.engRead a = Memory.read s.mem a := by
  simp [State.engRead, State.racedBytes, h]

theorem State.engReadBytes_of_race_nil {s : State} (h : s.race = []) (a k : Nat) :
    s.engReadBytes a k = Memory.readBytes s.mem a k := by
  induction k generalizing a with
  | zero => rfl
  | succ k ih => simp [State.engReadBytes, Memory.readBytes, State.engRead_of_race_nil h, ih]

@[simp] theorem State.length_engReadBytes (s : State) (a k : Nat) : (s.engReadBytes a k).length = k := by
  induction k generalizing a with
  | zero => rfl
  | succ k ih => simp [State.engReadBytes, ih]

@[simp] theorem State.length_engReadWords (s : State) (a k : Nat) : (s.engReadWords a k).length = k := by
  induction k generalizing a with
  | zero => rfl
  | succ k ih => simp [State.engReadWords, ih]

/-- The engine's read of a raced byte is the byte in `Mem` or one of the race record (R51). -/
theorem State.engRead_mem_candidates (s : State) (a : Nat) :
    s.engRead a ∈ Memory.read s.mem a :: s.racedBytes a :=
  List.mem_cons.2 (s.drawByte_mem a _ _)

/-! ### The host's writes and the reset -/

/-- What a host write to a byte does: a plain write, or, in a buffer of the running command, a race, where over a byte the
engine has written the engine's may stay (R51). -/
theorem State.hostWriteByte_cases (s : State) (a : Nat) (v : Byte) :
    ((s.ownsBuffers && (s.inVB a || s.inBB a)) = false ∧
      s.hostWriteByte a v = { s with mem := Memory.write s.mem a v }) ∨
    ((s.ownsBuffers && (s.inVB a || s.inBB a)) = true ∧ ∃ w, (w = v ∨ (s.engineWrote a = true ∧ w = Memory.read s.mem a)) ∧
      s.hostWriteByte a v =
        { s with mem := Memory.write s.mem a w, race := (a, v) :: (a, Memory.read s.mem a) :: s.race }) := by
  unfold State.hostWriteByte
  split
  · rename_i h
    refine .inr ⟨h, _, ?_, rfl⟩
    split
    · rename_i hw; exact .inr ⟨by simp_all, rfl⟩
    · exact .inl rfl
  · rename_i h; exact .inl ⟨by simpa using h, rfl⟩

theorem State.wf_hostWriteByte (s : State) (a : Nat) (v : Byte) (hm : Memory.wf s.mem = true) :
    Memory.wf (s.hostWriteByte a v).mem = true := by
  unfold State.hostWriteByte
  split <;> exact Memory.wf_write hm

theorem State.wf_hostWriteBytes (s : State) (a : Nat) (bs : List Byte) (hm : Memory.wf s.mem = true) :
    Memory.wf (s.hostWriteBytes a bs).mem = true := by
  induction bs generalizing s a with
  | nil => exact hm
  | cons b bs ih => exact ih _ _ (s.wf_hostWriteByte a b hm)

theorem State.inSpace_hostWriteBytes (s : State) {a : Nat} {bs : List Byte} (hm : Memory.inSpace s.mem = true)
    (ha : a + bs.length ≤ Config.memSize) : Memory.inSpace (s.hostWriteBytes a bs).mem = true := by
  induction bs generalizing s a with
  | nil => exact hm
  | cons b bs ih =>
    simp only [List.length_cons] at ha
    refine ih _ ?_ (by omega)
    unfold State.hostWriteByte
    split <;> exact Memory.inSpace_write hm (by omega)

theorem Memory.wf_scramble (d : Nat) {m : Memory} (a k : Nat) (hm : Memory.wf m = true) :
    Memory.wf (Memory.scramble d m a k) = true := by
  induction k generalizing m a with
  | zero => exact hm
  | succ k ih => exact ih _ (Memory.wf_write hm)

theorem Memory.inSpace_scramble (d : Nat) {m : Memory} {a k : Nat} (hm : Memory.inSpace m = true)
    (ha : a + k ≤ Config.memSize) : Memory.inSpace (Memory.scramble d m a k) = true := by
  induction k generalizing m a with
  | zero => exact hm
  | succ k ih => exact ih (Memory.inSpace_write hm (by omega)) (by omega)

theorem Memory.read_scramble_outside (d : Nat) {m : Memory} {a k b : Nat} (h : b < a ∨ a + k ≤ b) :
    Memory.read (Memory.scramble d m a k) b = Memory.read m b := by
  induction k generalizing m a with
  | zero => rfl
  | succ k ih => rw [Memory.scramble, ih (by omega), Memory.read_write_other (by omega)]

end Sys2Proof.Machine
end

