-- ==== Sys2Proof/Laws/State.lean ====
section
/-! SUPPORT. One lemma per field of State for each named update, so that no proof unfolds a record update. -/

namespace Sys2Proof.Machine

/-! ### State.tick -/

@[simp] theorem State.tick_cfg (s : State) :
    s.tick.cfg = s.cfg := rfl
@[simp] theorem State.tick_status (s : State) :
    s.tick.status = s.status := rfl
@[simp] theorem State.tick_valBase (s : State) :
    s.tick.valBase = s.valBase := rfl
@[simp] theorem State.tick_valCount (s : State) :
    s.tick.valCount = s.valCount := rfl
@[simp] theorem State.tick_byteBase (s : State) :
    s.tick.byteBase = s.byteBase := rfl
@[simp] theorem State.tick_byteCap (s : State) :
    s.tick.byteCap = s.byteCap := rfl
@[simp] theorem State.tick_result (s : State) :
    s.tick.result = s.result := rfl
@[simp] theorem State.tick_vdone (s : State) :
    s.tick.vdone = s.vdone := rfl
@[simp] theorem State.tick_classIn (s : State) :
    s.tick.classIn = s.classIn := rfl
@[simp] theorem State.tick_classOut (s : State) :
    s.tick.classOut = s.classOut := rfl
@[simp] theorem State.tick_tblSel (s : State) :
    s.tick.tblSel = s.tblSel := rfl
@[simp] theorem State.tick_table (s : State) :
    s.tick.table = s.table := rfl
@[simp] theorem State.tick_eng (s : State) :
    s.tick.eng = s.eng := rfl
@[simp] theorem State.tick_mem (s : State) :
    s.tick.mem = s.mem := rfl
@[simp] theorem State.tick_inputs (s : State) :
    s.tick.inputs = s.inputs := rfl
@[simp] theorem State.tick_hostData (s : State) :
    s.tick.hostData = s.hostData := rfl
@[simp] theorem State.tick_race (s : State) :
    s.tick.race = s.race := rfl
@[simp] theorem State.tick_before (s : State) :
    s.tick.before = s.before := rfl
@[simp] theorem State.tick_draws (s : State) :
    s.tick.draws = s.draws + 1 := rfl

/-! ### State.pop -/

@[simp] theorem State.pop_cfg (s : State) (rest : List Input) :
    (s.pop rest).cfg = s.cfg := rfl
@[simp] theorem State.pop_status (s : State) (rest : List Input) :
    (s.pop rest).status = s.status := rfl
@[simp] theorem State.pop_valBase (s : State) (rest : List Input) :
    (s.pop rest).valBase = s.valBase := rfl
@[simp] theorem State.pop_valCount (s : State) (rest : List Input) :
    (s.pop rest).valCount = s.valCount := rfl
@[simp] theorem State.pop_byteBase (s : State) (rest : List Input) :
    (s.pop rest).byteBase = s.byteBase := rfl
@[simp] theorem State.pop_byteCap (s : State) (rest : List Input) :
    (s.pop rest).byteCap = s.byteCap := rfl
@[simp] theorem State.pop_result (s : State) (rest : List Input) :
    (s.pop rest).result = s.result := rfl
@[simp] theorem State.pop_vdone (s : State) (rest : List Input) :
    (s.pop rest).vdone = s.vdone := rfl
@[simp] theorem State.pop_classIn (s : State) (rest : List Input) :
    (s.pop rest).classIn = s.classIn := rfl
@[simp] theorem State.pop_classOut (s : State) (rest : List Input) :
    (s.pop rest).classOut = s.classOut := rfl
@[simp] theorem State.pop_tblSel (s : State) (rest : List Input) :
    (s.pop rest).tblSel = s.tblSel := rfl
@[simp] theorem State.pop_table (s : State) (rest : List Input) :
    (s.pop rest).table = s.table := rfl
@[simp] theorem State.pop_eng (s : State) (rest : List Input) :
    (s.pop rest).eng = s.eng := rfl
@[simp] theorem State.pop_mem (s : State) (rest : List Input) :
    (s.pop rest).mem = s.mem := rfl
@[simp] theorem State.pop_inputs (s : State) (rest : List Input) :
    (s.pop rest).inputs = rest := rfl
@[simp] theorem State.pop_hostData (s : State) (rest : List Input) :
    (s.pop rest).hostData = s.hostData := rfl
@[simp] theorem State.pop_race (s : State) (rest : List Input) :
    (s.pop rest).race = s.race := rfl
@[simp] theorem State.pop_before (s : State) (rest : List Input) :
    (s.pop rest).before = s.before := rfl
@[simp] theorem State.pop_draws (s : State) (rest : List Input) :
    (s.pop rest).draws = s.draws := rfl

/-! ### State.load -/

@[simp] theorem State.load_cfg (s : State) (op : EngOp) (v : Variant) (b : Bool) :
    (s.load op v b).cfg = s.cfg := rfl
@[simp] theorem State.load_status (s : State) (op : EngOp) (v : Variant) (b : Bool) :
    (s.load op v b).status = s.status := rfl
@[simp] theorem State.load_valBase (s : State) (op : EngOp) (v : Variant) (b : Bool) :
    (s.load op v b).valBase = s.valBase := rfl
@[simp] theorem State.load_valCount (s : State) (op : EngOp) (v : Variant) (b : Bool) :
    (s.load op v b).valCount = s.valCount := rfl
@[simp] theorem State.load_byteBase (s : State) (op : EngOp) (v : Variant) (b : Bool) :
    (s.load op v b).byteBase = s.byteBase := rfl
@[simp] theorem State.load_byteCap (s : State) (op : EngOp) (v : Variant) (b : Bool) :
    (s.load op v b).byteCap = s.byteCap := rfl
@[simp] theorem State.load_result (s : State) (op : EngOp) (v : Variant) (b : Bool) :
    (s.load op v b).result = s.result := rfl
@[simp] theorem State.load_vdone (s : State) (op : EngOp) (v : Variant) (b : Bool) :
    (s.load op v b).vdone = s.vdone := rfl
@[simp] theorem State.load_classIn (s : State) (op : EngOp) (v : Variant) (b : Bool) :
    (s.load op v b).classIn = s.classIn := rfl
@[simp] theorem State.load_classOut (s : State) (op : EngOp) (v : Variant) (b : Bool) :
    (s.load op v b).classOut = s.classOut := rfl
@[simp] theorem State.load_tblSel (s : State) (op : EngOp) (v : Variant) (b : Bool) :
    (s.load op v b).tblSel = s.tblSel := rfl
@[simp] theorem State.load_table (s : State) (op : EngOp) (v : Variant) (b : Bool) :
    (s.load op v b).table = s.table := rfl
@[simp] theorem State.load_eng (s : State) (op : EngOp) (v : Variant) (b : Bool) :
    (s.load op v b).eng = { s.eng with op := op, variant := v, simd := b || v == .tableNib, i := 0, p := 0 } := rfl
@[simp] theorem State.load_mem (s : State) (op : EngOp) (v : Variant) (b : Bool) :
    (s.load op v b).mem = s.mem := rfl
@[simp] theorem State.load_inputs (s : State) (op : EngOp) (v : Variant) (b : Bool) :
    (s.load op v b).inputs = s.inputs := rfl
@[simp] theorem State.load_hostData (s : State) (op : EngOp) (v : Variant) (b : Bool) :
    (s.load op v b).hostData = s.hostData := rfl
@[simp] theorem State.load_race (s : State) (op : EngOp) (v : Variant) (b : Bool) :
    (s.load op v b).race = s.race := rfl
@[simp] theorem State.load_before (s : State) (op : EngOp) (v : Variant) (b : Bool) :
    (s.load op v b).before = s.before := rfl
@[simp] theorem State.load_draws (s : State) (op : EngOp) (v : Variant) (b : Bool) :
    (s.load op v b).draws = s.draws := rfl

/-! ### State.loadIllegal -/

@[simp] theorem State.loadIllegal_cfg (s : State) :
    s.loadIllegal.cfg = s.cfg := rfl
@[simp] theorem State.loadIllegal_status (s : State) :
    s.loadIllegal.status = s.status := rfl
@[simp] theorem State.loadIllegal_valBase (s : State) :
    s.loadIllegal.valBase = s.valBase := rfl
@[simp] theorem State.loadIllegal_valCount (s : State) :
    s.loadIllegal.valCount = s.valCount := rfl
@[simp] theorem State.loadIllegal_byteBase (s : State) :
    s.loadIllegal.byteBase = s.byteBase := rfl
@[simp] theorem State.loadIllegal_byteCap (s : State) :
    s.loadIllegal.byteCap = s.byteCap := rfl
@[simp] theorem State.loadIllegal_result (s : State) :
    s.loadIllegal.result = s.result := rfl
@[simp] theorem State.loadIllegal_vdone (s : State) :
    s.loadIllegal.vdone = s.vdone := rfl
@[simp] theorem State.loadIllegal_classIn (s : State) :
    s.loadIllegal.classIn = s.classIn := rfl
@[simp] theorem State.loadIllegal_classOut (s : State) :
    s.loadIllegal.classOut = s.classOut := rfl
@[simp] theorem State.loadIllegal_tblSel (s : State) :
    s.loadIllegal.tblSel = s.tblSel := rfl
@[simp] theorem State.loadIllegal_table (s : State) :
    s.loadIllegal.table = s.table := rfl
@[simp] theorem State.loadIllegal_eng (s : State) :
    s.loadIllegal.eng = { s.eng with op := .illegal, i := 0, p := 0 } := rfl
@[simp] theorem State.loadIllegal_mem (s : State) :
    s.loadIllegal.mem = s.mem := rfl
@[simp] theorem State.loadIllegal_inputs (s : State) :
    s.loadIllegal.inputs = s.inputs := rfl
@[simp] theorem State.loadIllegal_hostData (s : State) :
    s.loadIllegal.hostData = s.hostData := rfl
@[simp] theorem State.loadIllegal_race (s : State) :
    s.loadIllegal.race = s.race := rfl
@[simp] theorem State.loadIllegal_before (s : State) :
    s.loadIllegal.before = s.before := rfl
@[simp] theorem State.loadIllegal_draws (s : State) :
    s.loadIllegal.draws = s.draws := rfl

/-! ### State.complete -/

@[simp] theorem State.complete_cfg (s : State) (e : ErrCode) :
    (s.complete e).cfg = s.cfg := rfl
@[simp] theorem State.complete_status (s : State) (e : ErrCode) :
    (s.complete e).status = s.status.completed e := rfl
@[simp] theorem State.complete_valBase (s : State) (e : ErrCode) :
    (s.complete e).valBase = s.valBase := rfl
@[simp] theorem State.complete_valCount (s : State) (e : ErrCode) :
    (s.complete e).valCount = s.valCount := rfl
@[simp] theorem State.complete_byteBase (s : State) (e : ErrCode) :
    (s.complete e).byteBase = s.byteBase := rfl
@[simp] theorem State.complete_byteCap (s : State) (e : ErrCode) :
    (s.complete e).byteCap = s.byteCap := rfl
@[simp] theorem State.complete_result (s : State) (e : ErrCode) :
    (s.complete e).result = if s.eng.op.isCodec then BitVec.ofNat 32 s.eng.p else s.result := rfl
@[simp] theorem State.complete_vdone (s : State) (e : ErrCode) :
    (s.complete e).vdone = if s.eng.op.isCodec then BitVec.ofNat 32 s.eng.i else s.vdone := rfl
@[simp] theorem State.complete_classIn (s : State) (e : ErrCode) :
    (s.complete e).classIn = s.classIn := rfl
@[simp] theorem State.complete_classOut (s : State) (e : ErrCode) :
    (s.complete e).classOut = s.classOut := rfl
@[simp] theorem State.complete_tblSel (s : State) (e : ErrCode) :
    (s.complete e).tblSel = s.tblSel := rfl
@[simp] theorem State.complete_table (s : State) (e : ErrCode) :
    (s.complete e).table = s.table := rfl
@[simp] theorem State.complete_eng (s : State) (e : ErrCode) :
    (s.complete e).eng = { s.eng with phase := .idle } := rfl
@[simp] theorem State.complete_mem (s : State) (e : ErrCode) :
    (s.complete e).mem = s.mem := rfl
@[simp] theorem State.complete_inputs (s : State) (e : ErrCode) :
    (s.complete e).inputs = s.inputs := rfl
@[simp] theorem State.complete_hostData (s : State) (e : ErrCode) :
    (s.complete e).hostData = s.hostData := rfl
@[simp] theorem State.complete_race (s : State) (e : ErrCode) :
    (s.complete e).race = [] := rfl
@[simp] theorem State.complete_before (s : State) (e : ErrCode) :
    (s.complete e).before = s.before := rfl
@[simp] theorem State.complete_draws (s : State) (e : ErrCode) :
    (s.complete e).draws = s.draws := rfl

/-! ### State.putBlock -/

@[simp] theorem State.putBlock_cfg (s : State) (block : List Byte) (k : Nat) :
    (s.putBlock block k).cfg = s.cfg := rfl
@[simp] theorem State.putBlock_status (s : State) (block : List Byte) (k : Nat) :
    (s.putBlock block k).status = s.status := rfl
@[simp] theorem State.putBlock_valBase (s : State) (block : List Byte) (k : Nat) :
    (s.putBlock block k).valBase = s.valBase := rfl
@[simp] theorem State.putBlock_valCount (s : State) (block : List Byte) (k : Nat) :
    (s.putBlock block k).valCount = s.valCount := rfl
@[simp] theorem State.putBlock_byteBase (s : State) (block : List Byte) (k : Nat) :
    (s.putBlock block k).byteBase = s.byteBase := rfl
@[simp] theorem State.putBlock_byteCap (s : State) (block : List Byte) (k : Nat) :
    (s.putBlock block k).byteCap = s.byteCap := rfl
@[simp] theorem State.putBlock_result (s : State) (block : List Byte) (k : Nat) :
    (s.putBlock block k).result = s.result := rfl
@[simp] theorem State.putBlock_vdone (s : State) (block : List Byte) (k : Nat) :
    (s.putBlock block k).vdone = s.vdone := rfl
@[simp] theorem State.putBlock_classIn (s : State) (block : List Byte) (k : Nat) :
    (s.putBlock block k).classIn = s.classIn := rfl
@[simp] theorem State.putBlock_classOut (s : State) (block : List Byte) (k : Nat) :
    (s.putBlock block k).classOut = s.classOut := rfl
@[simp] theorem State.putBlock_tblSel (s : State) (block : List Byte) (k : Nat) :
    (s.putBlock block k).tblSel = s.tblSel := rfl
@[simp] theorem State.putBlock_table (s : State) (block : List Byte) (k : Nat) :
    (s.putBlock block k).table = s.table := rfl
@[simp] theorem State.putBlock_eng (s : State) (block : List Byte) (k : Nat) :
    (s.putBlock block k).eng = { s.eng with p := s.eng.p + block.length, i := s.eng.i + k } := rfl
@[simp] theorem State.putBlock_mem (s : State) (block : List Byte) (k : Nat) :
    (s.putBlock block k).mem = s.engWriteBytes s.mem s.byteAddr block := rfl
@[simp] theorem State.putBlock_inputs (s : State) (block : List Byte) (k : Nat) :
    (s.putBlock block k).inputs = s.inputs := rfl
@[simp] theorem State.putBlock_hostData (s : State) (block : List Byte) (k : Nat) :
    (s.putBlock block k).hostData = s.hostData := rfl
@[simp] theorem State.putBlock_race (s : State) (block : List Byte) (k : Nat) :
    (s.putBlock block k).race = s.engRaceBytes s.byteAddr block := rfl
@[simp] theorem State.putBlock_before (s : State) (block : List Byte) (k : Nat) :
    (s.putBlock block k).before = s.before := rfl
@[simp] theorem State.putBlock_draws (s : State) (block : List Byte) (k : Nat) :
    (s.putBlock block k).draws = s.draws := rfl

/-! ### State.putValues -/

@[simp] theorem State.putValues_cfg (s : State) (values : List Word) (len : Nat) :
    (s.putValues values len).cfg = s.cfg := rfl
@[simp] theorem State.putValues_status (s : State) (values : List Word) (len : Nat) :
    (s.putValues values len).status = s.status := rfl
@[simp] theorem State.putValues_valBase (s : State) (values : List Word) (len : Nat) :
    (s.putValues values len).valBase = s.valBase := rfl
@[simp] theorem State.putValues_valCount (s : State) (values : List Word) (len : Nat) :
    (s.putValues values len).valCount = s.valCount := rfl
@[simp] theorem State.putValues_byteBase (s : State) (values : List Word) (len : Nat) :
    (s.putValues values len).byteBase = s.byteBase := rfl
@[simp] theorem State.putValues_byteCap (s : State) (values : List Word) (len : Nat) :
    (s.putValues values len).byteCap = s.byteCap := rfl
@[simp] theorem State.putValues_result (s : State) (values : List Word) (len : Nat) :
    (s.putValues values len).result = s.result := rfl
@[simp] theorem State.putValues_vdone (s : State) (values : List Word) (len : Nat) :
    (s.putValues values len).vdone = s.vdone := rfl
@[simp] theorem State.putValues_classIn (s : State) (values : List Word) (len : Nat) :
    (s.putValues values len).classIn = s.classIn := rfl
@[simp] theorem State.putValues_classOut (s : State) (values : List Word) (len : Nat) :
    (s.putValues values len).classOut = s.classOut := rfl
@[simp] theorem State.putValues_tblSel (s : State) (values : List Word) (len : Nat) :
    (s.putValues values len).tblSel = s.tblSel := rfl
@[simp] theorem State.putValues_table (s : State) (values : List Word) (len : Nat) :
    (s.putValues values len).table = s.table := rfl
@[simp] theorem State.putValues_eng (s : State) (values : List Word) (len : Nat) :
    (s.putValues values len).eng = { s.eng with i := s.eng.i + values.length, p := s.eng.p + len } := rfl
@[simp] theorem State.putValues_mem (s : State) (values : List Word) (len : Nat) :
    (s.putValues values len).mem = s.engWriteBytes s.mem s.valAddr (values.flatMap fun v => leBytes v 4) := rfl
@[simp] theorem State.putValues_inputs (s : State) (values : List Word) (len : Nat) :
    (s.putValues values len).inputs = s.inputs := rfl
@[simp] theorem State.putValues_hostData (s : State) (values : List Word) (len : Nat) :
    (s.putValues values len).hostData = s.hostData := rfl
@[simp] theorem State.putValues_race (s : State) (values : List Word) (len : Nat) :
    (s.putValues values len).race = s.engRaceBytes s.valAddr (values.flatMap fun v => leBytes v 4) := rfl
@[simp] theorem State.putValues_before (s : State) (values : List Word) (len : Nat) :
    (s.putValues values len).before = s.before := rfl
@[simp] theorem State.putValues_draws (s : State) (values : List Word) (len : Nat) :
    (s.putValues values len).draws = s.draws := rfl

/-! ### Status -/

@[simp] theorem Status.accepted_busy (st : Status) : st.accepted.busy = true := rfl
@[simp] theorem Status.accepted_done (st : Status) : st.accepted.done = false := rfl
@[simp] theorem Status.accepted_err (st : Status) : st.accepted.err = false := rfl
@[simp] theorem Status.accepted_errcode (st : Status) : st.accepted.errcode = .none := rfl
@[simp] theorem Status.accepted_tableValid (st : Status) : st.accepted.tableValid = st.tableValid := rfl
@[simp] theorem Status.accepted_tableG2 (st : Status) : st.accepted.tableG2 = st.tableG2 := rfl
@[simp] theorem Status.completed_busy (e : ErrCode) (st : Status) : (st.completed e).busy = false := rfl
@[simp] theorem Status.completed_done (e : ErrCode) (st : Status) : (st.completed e).done = true := rfl
@[simp] theorem Status.completed_err (e : ErrCode) (st : Status) : (st.completed e).err = decide (e ≠ .none) := rfl
@[simp] theorem Status.completed_errcode (e : ErrCode) (st : Status) : (st.completed e).errcode = e := rfl
@[simp] theorem Status.completed_tableValid (e : ErrCode) (st : Status) :
    (st.completed e).tableValid = st.tableValid := rfl
@[simp] theorem Status.completed_tableG2 (e : ErrCode) (st : Status) :
    (st.completed e).tableG2 = st.tableG2 := rfl

/-! ### What the draw counter and the pending inputs do not touch -/

@[simp] theorem State.tick_n (s : State) : s.tick.n = s.n := rfl
@[simp] theorem State.tick_rem (s : State) : s.tick.rem = s.rem := rfl
@[simp] theorem State.tick_byteAddr (s : State) : s.tick.byteAddr = s.byteAddr := rfl
@[simp] theorem State.tick_valAddr (s : State) : s.tick.valAddr = s.valAddr := rfl
@[simp] theorem State.tick_headerDue (s : State) : s.tick.headerDue = s.headerDue := rfl
@[simp] theorem State.pop_headerDue (s : State) (rest : List Input) : (s.pop rest).headerDue = s.headerDue := rfl
@[simp] theorem State.tick_startError (s : State) (op : EngOp) (v : Variant) (b : Bool) :
    s.tick.startError op v b = s.startError op v b := rfl
@[simp] theorem State.load_startError (s : State) (op op' : EngOp) (v v' : Variant) (b b' : Bool) :
    (s.load op v b).startError op' v' b' = s.startError op' v' b' := rfl

end Sys2Proof.Machine
end

