-- ==== Sys2Proof/Laws/Engine.lean ====
section
/-! SUPPORT. What each shared engine operation can do, said once: a step either ends the command with a named outcome or
moves one block. -/

namespace Sys2Proof.Machine

/-- The window of S a block step sees has min(17, BYTE_CAP - p) bytes. -/
@[simp] theorem State.length_stream (s : State) :
    s.stream.length = min Config.maxBlock (s.byteCap.toNat - s.eng.p) := by simp [State.stream]

@[simp] theorem State.length_nextValues (s : State) : s.nextValues.length = min Config.rawCount s.rem := by
  simp [State.nextValues]

/-- A START step after loading ends with the failing check, or goes to RUN and changes nothing else (R98). -/
theorem startCodec_cases (s : State) :
    (s.startError s.eng.op s.eng.variant s.eng.simd ≠ .none ∧
      startCodec s = s.complete (s.startError s.eng.op s.eng.variant s.eng.simd)) ∨
    (s.startError s.eng.op s.eng.variant s.eng.simd = .none ∧
      startCodec s = { s with eng := { s.eng with phase := .run } }) := by
  unfold startCodec
  split
  · rename_i h; exact .inr ⟨h, rfl⟩
  · rename_i h; exact .inl ⟨h, rfl⟩

/-- An ENCODE RUN step completes with NONE at i = n, with COLLISION, or with DST_OVERFLOW, or writes one block that fits
and advances both cursors by at least one (R99). -/
theorem encodeRun_cases {s : State} (hi : s.eng.i ≤ s.n) :
    (s.eng.i = s.n ∧ encodeRun s = s.complete .none) ∨
    (s.eng.i < s.n ∧ (encodeRun s = s.complete .collision ∨ encodeRun s = s.complete .dstOverflow)) ∨
    (s.eng.i < s.n ∧ ∃ block k, encBlock s.cfg.ffPolicy s.eng.variant s.nextValues = .ok (block, k) ∧
      s.eng.p + block.length ≤ s.byteCap.toNat ∧ 1 ≤ k ∧ s.eng.i + k ≤ s.n ∧ 1 ≤ block.length ∧
      encodeRun s = s.putBlock block k) := by
  unfold encodeRun
  split
  · rename_i h; exact .inl ⟨h, rfl⟩
  · rename_i h
    have hlt : s.eng.i < s.n := by omega
    split
    · rename_i e he; rw [(encBlock_error he).1]; exact .inr (.inl ⟨hlt, .inl rfl⟩)
    · rename_i block k hb
      split
      · exact .inr (.inl ⟨hlt, .inr rfl⟩)
      · rename_i hfit
        have hne : s.nextValues ≠ [] := by
          intro hnil
          have := s.length_nextValues
          rw [hnil] at this
          simp [Config.rawCount, State.rem] at this
          omega
        have hb' := encBlock_bounds hne hb
        have hk : k ≤ s.rem := le_trans hb'.2.1 (by simp)
        unfold State.rem at hk
        exact .inr (.inr ⟨hlt, block, k, hb, by omega, hb'.1, by omega, hb'.2.2.1, rfl⟩)

/-- A DECODE block step ends the command, or writes at least one and at most rem values from 1 to BYTE_CAP - p bytes
(R100). -/
theorem decodeBlock_cases {dec : List Byte → Nat → Except ErrCode (List Word × Nat)} {s : State}
    (hd : DecodesWithin s.stream s.rem (dec s.stream s.rem)) (hi : s.eng.i ≤ s.n) (hp : s.eng.p ≤ s.byteCap.toNat) :
    (∃ e, dec s.stream s.rem = .error e ∧ decodeBlock dec s = s.complete e) ∨
    (∃ values len, dec s.stream s.rem = .ok (values, len) ∧ 1 ≤ values.length ∧ s.eng.i + values.length ≤ s.n ∧
      1 ≤ len ∧ s.eng.p + len ≤ s.byteCap.toNat ∧ decodeBlock dec s = s.putValues values len) := by
  unfold decodeBlock
  split
  · rename_i e h; exact .inl ⟨e, h, rfl⟩
  · rename_i values len h
    obtain ⟨h1, h2, h3, h4⟩ := hd values len h
    rw [s.length_stream] at h4
    unfold State.rem at h2
    refine .inr ⟨values, len, h, h1, by omega, h3, by omega, rfl⟩

/-! ### Frames of the block steps -/

/-- A written block changes no byte outside its own. -/
theorem State.read_putBlock_outside (s : State) {block : List Byte} {k a : Nat}
    (h : a < s.byteAddr ∨ s.byteAddr + block.length ≤ a) :
    Memory.read (s.putBlock block k).mem a = Memory.read s.mem a :=
  s.read_engWriteBytes_outside h

/-- Written values change no byte outside their words. -/
theorem State.read_putValues_outside (s : State) {values : List Word} {len a : Nat}
    (h : a < s.valAddr ∨ s.valAddr + 4 * values.length ≤ a) :
    Memory.read (s.putValues values len).mem a = Memory.read s.mem a :=
  s.read_engWriteBytes_outside (by rw [length_flatMap_leBytes4]; exact h)

/-- Where the host has not raced, a block is plainly written (R99). -/
theorem State.putBlock_of_race_nil {s : State} (h : s.race = []) (block : List Byte) (k : Nat) :
    s.putBlock block k =
      { s with
        mem := Memory.writeBytes s.mem s.byteAddr block
        eng := { s.eng with p := s.eng.p + block.length, i := s.eng.i + k } } := by
  simp [State.putBlock, State.engWriteBytes_of_race_nil h, State.engRaceBytes_of_race_nil h, h]

/-- Where the host has not raced, decoded values are plainly written (R100). -/
theorem State.putValues_of_race_nil {s : State} (h : s.race = []) (values : List Word) (len : Nat) :
    s.putValues values len =
      { s with
        mem := Memory.writeBytes s.mem s.valAddr (values.flatMap fun v => leBytes v 4)
        eng := { s.eng with i := s.eng.i + values.length, p := s.eng.p + len } } := by
  simp [State.putValues, State.engWriteBytes_of_race_nil h, State.engRaceBytes_of_race_nil h, h]

/-- Every instruction answers a next state: the block has no trap and no stop (R117, R121). -/
theorem runCommand_next (start run : State → State) (s : State) : ∃ t, runCommand start run s = .next t := by
  unfold runCommand
  split <;> exact ⟨_, rfl⟩

theorem runCommand_start {start run : State → State} {s : State} (h : s.eng.phase = .start) :
    runCommand start run s = .next (start s) := by simp [runCommand, h]

theorem runCommand_run {start run : State → State} {s : State} (h : s.eng.phase = .run) :
    runCommand start run s = .next (run s) := by simp [runCommand, h]

/-! ### What STATUS.BUSY protects -/

/-- A host write while BUSY = 1 has no effect (R18 item 4). -/
theorem State.writeOffset_busy {s : State} (h : s.status.busy = true) (offset : Nat) (v : Word) :
    s.writeOffset offset v = s := by simp [State.writeOffset, h]

end Sys2Proof.Machine
end

