-- ==== Sys2Proof/Laws/PerInstr.lean ====
section
/-! SUPPORT. Family OwnMap, one lemma per constructor: the bits of a well-formed instruction lie in the opcode map of its
row. -/

namespace Sys2Proof.Laws

/-- The opcode map a row belongs to (R58, R65): a command word, legal or not, or a header class of a variant. -/
def mapOf : Instr → Bool × Option (Variant × HdrClass)
  | .encodeB4 => (true, none)
  | .encodeHn => (true, none)
  | .encodeSn => (true, none)
  | .encodeTn => (true, none)
  | .decodeB4 => (true, none)
  | .decodeB4Simd => (true, none)
  | .decodeHn => (true, none)
  | .decodeHnSimd => (true, none)
  | .decodeSn => (true, none)
  | .decodeSnSimd => (true, none)
  | .decodeTn => (true, none)
  | .decodeTnSimd => (true, none)
  | .classify => (true, none)
  | .tableInitB4 => (true, none)
  | .tableInitHn => (true, none)
  | .tableInitSn => (true, none)
  | .tableInitTn => (true, none)
  | .illegal _ => (false, none)
  | .b4Raw => (true, some (.basic4, .raw))
  | .b4Coded _ _ _ _ => (true, some (.basic4, .coded))
  | .hnRawLo _ => (true, some (.headerlessNib, .raw))
  | .hnRawHi _ => (true, some (.headerlessNib, .raw))
  | .hnCoded _ _ => (true, some (.headerlessNib, .coded))
  | .hnMalformed _ => (true, some (.headerlessNib, .malformed))
  | .snRaw => (true, some (.sentinelNib, .raw))
  | .snCoded _ _ => (true, some (.sentinelNib, .coded))
  | .snMalformed _ => (true, some (.sentinelNib, .malformed))
  | .tnRaw => (true, some (.tableNib, .raw))
  | .tnCoded _ _ => (true, some (.tableNib, .coded))
  | .tnMalformed _ => (true, some (.tableNib, .malformed))

/-- Bits lie in an opcode map. -/
def liesIn (m : Bool × Option (Variant × HdrClass)) : Code → Prop
  | .cmd w => cmdWordLegal w = m.1 ∧ m.2 = none
  | .hdr v h => m.2 = some (v, hdrClass v h)

/-- The bits of the instruction, when it is well-formed, lie in the opcode map of its row. -/
def OwnMap.Statement (i : Instr) : Prop := i.wellFormed = true → liesIn (mapOf i) (encode i)

theorem OwnMap.encodeB4 : OwnMap.Statement .encodeB4 := fun _ => ⟨by decide, rfl⟩
theorem OwnMap.encodeHn : OwnMap.Statement .encodeHn := fun _ => ⟨by decide, rfl⟩
theorem OwnMap.encodeSn : OwnMap.Statement .encodeSn := fun _ => ⟨by decide, rfl⟩
theorem OwnMap.encodeTn : OwnMap.Statement .encodeTn := fun _ => ⟨by decide, rfl⟩
theorem OwnMap.decodeB4 : OwnMap.Statement .decodeB4 := fun _ => ⟨by decide, rfl⟩
theorem OwnMap.decodeB4Simd : OwnMap.Statement .decodeB4Simd := fun _ => ⟨by decide, rfl⟩
theorem OwnMap.decodeHn : OwnMap.Statement .decodeHn := fun _ => ⟨by decide, rfl⟩
theorem OwnMap.decodeHnSimd : OwnMap.Statement .decodeHnSimd := fun _ => ⟨by decide, rfl⟩
theorem OwnMap.decodeSn : OwnMap.Statement .decodeSn := fun _ => ⟨by decide, rfl⟩
theorem OwnMap.decodeSnSimd : OwnMap.Statement .decodeSnSimd := fun _ => ⟨by decide, rfl⟩
theorem OwnMap.decodeTn : OwnMap.Statement .decodeTn := fun _ => ⟨by decide, rfl⟩
theorem OwnMap.decodeTnSimd : OwnMap.Statement .decodeTnSimd := fun _ => ⟨by decide, rfl⟩
theorem OwnMap.classify : OwnMap.Statement .classify := fun _ => ⟨by decide, rfl⟩
theorem OwnMap.tableInitB4 : OwnMap.Statement .tableInitB4 := fun _ => ⟨by decide, rfl⟩
theorem OwnMap.tableInitHn : OwnMap.Statement .tableInitHn := fun _ => ⟨by decide, rfl⟩
theorem OwnMap.tableInitSn : OwnMap.Statement .tableInitSn := fun _ => ⟨by decide, rfl⟩
theorem OwnMap.tableInitTn : OwnMap.Statement .tableInitTn := fun _ => ⟨by decide, rfl⟩

theorem OwnMap.illegal (w : Word) : OwnMap.Statement (.illegal w) := fun h =>
  ⟨by simpa [Instr.wellFormed, mapOf] using h, rfl⟩

theorem OwnMap.b4Raw : OwnMap.Statement .b4Raw := fun _ => rfl

theorem OwnMap.b4Coded (c0 c1 c2 c3 : LengthCode) : OwnMap.Statement (.b4Coded c0 c1 c2 c3) := by
  unfold OwnMap.Statement liesIn mapOf encode
  revert c0 c1 c2 c3
  decide +kernel

theorem OwnMap.hnRawLo (x : BitVec 6) : OwnMap.Statement (.hnRawLo x) := by
  unfold OwnMap.Statement liesIn mapOf encode
  revert x
  decide +kernel

theorem OwnMap.hnRawHi (x : BitVec 7) : OwnMap.Statement (.hnRawHi x) := by
  unfold OwnMap.Statement liesIn mapOf encode
  revert x
  decide +kernel

theorem OwnMap.hnCoded (c0 c1 : LengthCode) : OwnMap.Statement (.hnCoded c0 c1) := by
  unfold OwnMap.Statement liesIn mapOf encode
  revert c0 c1
  decide +kernel

theorem OwnMap.hnMalformed (h : Byte) : OwnMap.Statement (.hnMalformed h) := by
  unfold OwnMap.Statement liesIn mapOf encode
  revert h
  decide +kernel

theorem OwnMap.snRaw : OwnMap.Statement .snRaw := fun _ => rfl

theorem OwnMap.snCoded (c0 c1 : LengthCode) : OwnMap.Statement (.snCoded c0 c1) := by
  unfold OwnMap.Statement liesIn mapOf encode
  revert c0 c1
  decide +kernel

theorem OwnMap.snMalformed (h : Byte) : OwnMap.Statement (.snMalformed h) := by
  unfold OwnMap.Statement liesIn mapOf encode
  revert h
  decide +kernel

theorem OwnMap.tnRaw : OwnMap.Statement .tnRaw := fun _ => rfl

theorem OwnMap.tnCoded (c0 c1 : LengthCode) : OwnMap.Statement (.tnCoded c0 c1) := by
  unfold OwnMap.Statement liesIn mapOf encode
  revert c0 c1
  decide +kernel

theorem OwnMap.tnMalformed (h : Byte) : OwnMap.Statement (.tnMalformed h) := by
  unfold OwnMap.Statement liesIn mapOf encode
  revert h
  decide +kernel

end Sys2Proof.Laws
end

