-- ==== Sys2Proof/Laws/Step.lean ====
section
/-! SUPPORT. What a step can do, said once: which operation runs for each entry at the head of the inputs, which
instruction an engine turn runs, and that no engine turn stops. -/

namespace Sys2Proof.Machine

/-! ### The dispatch of a step -/

theorem step_of_no_input {s : State} (h : s.inputs = []) : step s = engineTurn s := by simp [step, h]

theorem step_of_engine {s : State} {rest : List Input} (h : s.inputs = .engine :: rest) :
    step s = engineTurn (s.pop rest) := by simp [step, h]

theorem step_of_wait_busy {s : State} {rest : List Input} (h : s.inputs = .wait :: rest)
    (hb : s.status.busy = true) : step s = engineTurn s := by simp [step, h, hb]

theorem step_of_wait_done {s : State} {rest : List Input} (h : s.inputs = .wait :: rest)
    (hb : s.status.busy = false) : step s = hostPoll (s.pop rest).tick := by simp [step, h, hb]

theorem step_of_regWrite {s : State} {rest : List Input} {size : AccessSize} {addr : Nat} {v : Word}
    (h : s.inputs = .regWrite size addr v :: rest) : step s = hostRegWrite size addr v (s.pop rest).tick := by
  simp [step, h]

theorem step_of_regRead {s : State} {rest : List Input} {size : AccessSize} {addr : Nat}
    (h : s.inputs = .regRead size addr :: rest) : step s = hostRegRead size addr (s.pop rest).tick := by
  simp [step, h]

theorem step_of_memWrite {s : State} {rest : List Input} {size : AccessSize} {addr : Nat} {v : Word}
    (h : s.inputs = .memWrite size addr v :: rest) : step s = hostMemWrite size addr v (s.pop rest).tick := by
  simp [step, h]

theorem step_of_memRead {s : State} {rest : List Input} {size : AccessSize} {addr : Nat}
    (h : s.inputs = .memRead size addr :: rest) : step s = hostMemRead size addr (s.pop rest).tick := by
  simp [step, h]

theorem step_of_reset {s : State} {rest : List Input} (h : s.inputs = .reset :: rest) :
    step s = hostReset (s.pop rest).tick := by simp [step, h]

/-! ### The engine's turn -/

theorem engineTurn_idle {s : State} (h : s.eng.phase = .idle) : engineTurn s = .next s := by simp [engineTurn, h]

theorem engineTurn_busy {s : State} (h : s.eng.phase ≠ .idle) : engineTurn s = exec s.tick.fetch s.tick := by
  simp [engineTurn, h]

/-- Outside a DECODE RUN step with a value to produce and a byte left, the engine runs the command word. -/
theorem State.fetch_command {s : State} (h : s.headerDue = false) : s.fetch = decodeCmd s.eng.w := by
  simp [State.fetch, h]

theorem State.fetch_header {s : State} (h : s.headerDue = true) :
    s.fetch = decodeHdr s.eng.variant (s.engRead s.byteAddr) := by simp [State.fetch, h]

theorem State.headerDue_start {s : State} (h : s.eng.phase = .start) : s.headerDue = false := by
  simp [State.headerDue, h]

theorem State.headerDue_encode {s : State} (h : s.eng.op = .encode) : s.headerDue = false := by
  simp [State.headerDue, h]

/-! ### ENCODE and DECODE words -/

/-- What `codecOp` says of a command word: the operation is ENCODE or DECODE. -/
theorem codecOp_isCodec {i : Instr} {op : EngOp} {v : Variant} {b : Bool} (h : codecOp i = some (op, v, b)) :
    op = .encode ∧ b = false ∨ op = .decode := by cases i <;> simp_all [codecOp]

/-- An instruction with a codec operation runs that operation's command. -/
theorem exec_of_codecOp {i : Instr} {op : EngOp} {v : Variant} {b : Bool} (h : codecOp i = some (op, v, b)) (s : State) :
    exec i s = if op = .encode then encodeCommand v s else decodeCommand v b s := by
  cases i <;> simp only [codecOp, reduceCtorEq, Option.some.injEq, Prod.mk.injEq] at h <;> obtain ⟨rfl, rfl, rfl⟩ := h <;>
    rfl

/-! ### The host's port -/

/-- A register write that completes leaves the state as it was, or stores into one register while BUSY = 0 (R18). -/
theorem State.writeOffset_cases (s : State) (offset : Nat) (v : Word) :
    s.writeOffset offset v = s ∨
      (s.status.busy = false ∧ ∃ r, Reg.at offset = some r ∧ s.writeOffset offset v = s.storeReg v r) := by
  unfold State.writeOffset
  split
  · exact .inl rfl
  · rename_i hb
    split
    · exact .inl rfl
    · rename_i r hr; exact .inr ⟨by simpa using hb, r, hr, rfl⟩

/-- The register at a register's own offset (R17). -/
@[simp] theorem Reg.at_offset (r : Reg) : Reg.at r.offset = some r := by cases r <;> decide

/-- A host write to memory touches memory and the race record only. -/
theorem State.hostWriteBytes_frame (s : State) (a : Nat) (bs : List Byte) :
    s.hostWriteBytes a bs =
      { s with mem := (s.hostWriteBytes a bs).mem, race := (s.hostWriteBytes a bs).race } := by
  induction bs generalizing s a with
  | nil => rfl
  | cons b bs ih =>
    rw [State.hostWriteBytes, ih]
    unfold State.hostWriteByte
    split <;> rfl

/-! ### Looking ahead -/

/-- With no command running there is nothing to look ahead to. -/
theorem State.runOn_idle {s : State} (h : s.eng.phase = .idle) (fuel : Nat) : s.runOn fuel = s := by
  cases fuel with
  | zero => rfl
  | succ fuel => rw [State.runOn, if_pos h]

/-- What every engine turn keeps, a run to completion keeps. -/
theorem State.runOn_keeps {P : State → Prop} (hturn : ∀ s t, P s → engineTurn s = .next t → P t) (fuel : Nat) {s : State}
    (h : P s) : P (s.runOn fuel) := by
  induction fuel generalizing s with
  | zero => exact h
  | succ fuel ih =>
    unfold State.runOn
    split
    · exact h
    · split
      · rename_i t ht; exact ih (hturn s t h ht)
      · exact h
      · exact h

/-- The bytes a reset leaves open: none, or those of the ENCODE or DECODE it cuts off, up to the cursor the command would
have ended at (R45, R131). -/
theorem State.couldWrite_cases (s : State) :
    s.couldWrite = (0, 0) ∨
      (s.status.busy = true ∧ ∃ op v b, codecOp (decodeCmd s.eng.w) = some (op, v, b) ∧
        ((op = .encode ∧ s.couldWrite = (s.byteBase.toNat, (s.outlook (Config.freeRun s.draws 0)).eng.p)) ∨
          (op = .decode ∧ s.couldWrite = (s.valBase.toNat, 4 * (s.outlook (Config.freeRun s.draws 0)).eng.i)))) := by
  unfold State.couldWrite
  split
  · rename_i hb
    split
    · exact .inl rfl
    · rename_i op v b hc
      refine .inr ⟨hb, op, v, b, hc, ?_⟩
      split
      · rename_i ho; exact .inl ⟨ho, rfl⟩
      · rename_i ho
        have := codecOp_isCodec hc
        exact .inr ⟨by simpa [ho] using this, rfl⟩
  · exact .inl rfl

/-- With no command running a host read returns the byte of `Mem`. -/
theorem State.hostReadByte_idle {s : State} (h : s.status.busy = false) (a : Nat) :
    s.hostReadByte a = Memory.read s.mem a := by simp [State.hostReadByte, State.ownsBuffers, h]

/-- While a command runs, a host read returns the byte of `Mem`, or, in a buffer, the byte from before the command, a byte
the host's racing writes replaced, or the byte the command leaves there (R51). -/
theorem State.hostReadByte_cases (s : State) (a : Nat) :
    s.hostReadByte a = Memory.read s.mem a ∨
      ((s.inVB a || s.inBB a) = true ∧
        (s.hostReadByte a = Memory.read s.before a ∨ s.hostReadByte a ∈ s.racedBytes a ∨
          s.hostReadByte a = Memory.read (s.outlook (Config.freeRun s.draws a)).mem a)) := by
  by_cases hb : (s.ownsBuffers && (s.inVB a || s.inBB a)) = true
  · have hd : s.hostReadByte a = s.drawByte a (Memory.read s.mem a)
        ((Memory.read s.before a :: Memory.read (s.outlook (Config.freeRun s.draws a)).mem a :: s.racedBytes a).filter
          fun b => b != Memory.read s.mem a) := by unfold State.hostReadByte; rw [if_pos hb]
    rw [hd]
    rcases s.drawByte_mem a (Memory.read s.mem a) ((Memory.read s.before a ::
      Memory.read (s.outlook (Config.freeRun s.draws a)).mem a :: s.racedBytes a).filter
        fun b => b != Memory.read s.mem a) with h | h
    · exact .inl h
    · refine .inr ⟨by simp_all, ?_⟩
      rcases List.mem_cons.1 (List.mem_filter.1 h).1 with h | h
      · exact .inl h
      · rcases List.mem_cons.1 h with h | h
        · exact .inr (.inr h)
        · exact .inr (.inl h)
  · left; unfold State.hostReadByte; rw [if_neg hb]

@[simp] theorem State.length_hostReadBytes (s : State) (a k : Nat) : (s.hostReadBytes a k).length = k := by
  induction k generalizing a with
  | zero => rfl
  | succ k ih => simp [State.hostReadBytes, ih]

/-- Byte j of a host read is the host's read of byte a + j. -/
theorem State.getElem?_hostReadBytes (s : State) {a k j : Nat} (h : j < k) :
    (s.hostReadBytes a k)[j]? = some (s.hostReadByte (a + j)) := by
  induction k generalizing a j with
  | zero => omega
  | succ k ih =>
    cases j with
    | zero => rfl
    | succ j =>
      rw [State.hostReadBytes, List.getElem?_cons_succ, ih (by omega), Nat.add_right_comm, Nat.add_assoc]

/-- With no command running a host read returns the bytes of `Mem`. -/
theorem State.hostReadBytes_idle {s : State} (h : s.status.busy = false) (a k : Nat) :
    s.hostReadBytes a k = Memory.readBytes s.mem a k := by
  induction k generalizing a with
  | zero => rfl
  | succ k ih => simp [State.hostReadBytes, Memory.readBytes, State.hostReadByte_idle h, ih]

/-- A byte on which all that R51 admits agree is read as it stands. -/
theorem State.hostReadByte_settled {s : State} {a : Nat} (h1 : Memory.read s.before a = Memory.read s.mem a)
    (h2 : Memory.read (s.outlook (Config.freeRun s.draws a)).mem a = Memory.read s.mem a) (h3 : s.racedBytes a = []) :
    s.hostReadByte a = Memory.read s.mem a := by
  rcases s.hostReadByte_cases a with h | ⟨-, h | h | h⟩
  · exact h
  · rw [h, h1]
  · rw [h3] at h; cases h
  · rw [h, h2]

/-- With no command running a host write is a plain write and records no race. -/
theorem State.hostWriteBytes_idle {s : State} (h : s.status.busy = false) (a : Nat) (bs : List Byte) :
    s.hostWriteBytes a bs = { s with mem := Memory.writeBytes s.mem a bs } := by
  induction bs generalizing s a with
  | nil => rfl
  | cons b bs ih =>
    have h1 : s.hostWriteByte a b = { s with mem := Memory.write s.mem a b } := by
      simp [State.hostWriteByte, State.ownsBuffers, h]
    rw [State.hostWriteBytes, h1, ih (s := { s with mem := Memory.write s.mem a b }) h]
    rfl

end Sys2Proof.Machine
end

