-- ==== Sys2Proof/Tests/Slice0.lean ====
section
/-! SUPPORT. Tests of the model on fixed values, and a witness for the hypotheses of every statement. Expected values come
from the opcode table and from 95_test_vectors.md, named in each comment. -/

namespace Sys2Proof.Tests

open Sys2Proof.Machine Sys2Proof.Claims

/-! ### Small states -/

/-- What an observer sees of a next state; none where the machine stops. -/
def observe {α : Type} (o : Host.Outcome State Fault Refusal) (f : State → α) : Option α :=
  match o with
  | .next t => some (f t)
  | .fault _ => none
  | .refused _ => none

/-- A command about to start, with the buffers of V-ENG. -/
def started (w : Word) : State :=
  { State.reset with
    status := Status.atReset.accepted
    valBase := 0x1000
    valCount := 4
    byteBase := 0x2000
    byteCap := 0x40
    eng := { Engine.atReset with phase := .start, w := w } }

/-- An ENCODE in its RUN steps at cursors 0, with values at 0x1000 and BB at 0x2000. -/
def encoding (w : Word) (v : Variant) (values : List Word) (cap : Word) : State :=
  { started w with
    valCount := BitVec.ofNat 32 values.length
    byteCap := cap
    mem := memWords [] 0x1000 values
    before := memWords [] 0x1000 values
    eng := { phase := .run, op := .encode, w := w, variant := v, simd := v == .tableNib, i := 0, p := 0 } }

/-- A DECODE of `n` values in its RUN steps at cursors 0, with BB at 0x2000 and values going to 0x1000. -/
def decoding (w : Word) (v : Variant) (simd : Bool) (bytes : List Byte) (n : Word) : State :=
  { started w with
    valCount := n
    byteCap := BitVec.ofNat 32 bytes.length
    mem := memBytes [] 0x2000 bytes
    before := memBytes [] 0x2000 bytes
    eng := { phase := .run, op := .decode, w := w, variant := v, simd := simd, i := 0, p := 0 } }

/-- `s` with the table of group width `g` built. -/
def withTable (g : Nat) (s : State) : State :=
  { s with table := buildTable g, status := { s.status with tableValid := true, tableG2 := decide (g = 2) } }

/-- The bytes at BB up to cursor p, the values consumed, and STATUS. -/
def encoded (t : State) : List Byte × Nat × Word :=
  (Memory.readBytes t.mem 0x2000 t.eng.p, t.eng.i, t.status.word)

/-- The values at VB up to cursor i, the bytes consumed, and STATUS. -/
def decoded (t : State) : List Word × Nat × Word :=
  ((List.range t.eng.i).map fun k => Memory.read32 t.mem (0x1000 + 4 * k), t.eng.p, t.status.word)

/-! ### WellFormed smoke: an ill-formed term for each check -/

theorem test_wf_illegal_refuses_legal_words :
    (Instr.illegal 0x01).wellFormed = false ∧ (Instr.illegal 0x72).wellFormed = false ∧
      (Instr.illegal 0x03).wellFormed = false ∧ (Instr.illegal 0x34).wellFormed = false := by decide

theorem test_wf_b4Coded_refuses_the_marker : (Instr.b4Coded 3 3 3 3).wellFormed = false := by decide

theorem test_wf_hnMalformed_refuses_coded_and_raw :
    (Instr.hnMalformed 0x33).wellFormed = false ∧ (Instr.hnMalformed 0x44).wellFormed = false := by decide

theorem test_wf_snMalformed_refuses_coded_and_marker :
    (Instr.snMalformed 0x33).wellFormed = false ∧ (Instr.snMalformed 0xF0).wellFormed = false := by decide

theorem test_wf_tnMalformed_refuses_coded_and_marker :
    (Instr.tnMalformed 0x00).wellFormed = false ∧ (Instr.tnMalformed 0xF0).wellFormed = false := by decide

/-! ### Decoding: a word of every row, from the opcode table's match columns and R58, R65 -/

theorem test_decode_encode_words :
    decodeCmd 0x00000001 = .encodeB4 ∧ decodeCmd 0x00000011 = .encodeHn ∧ decodeCmd 0x00000021 = .encodeSn ∧
      decodeCmd 0x00000031 = .encodeTn := by decide

theorem test_decode_decode_words :
    decodeCmd 0x00000002 = .decodeB4 ∧ decodeCmd 0x00000012 = .decodeHn ∧ decodeCmd 0x00000022 = .decodeSn ∧
      decodeCmd 0x00000032 = .decodeTn := by decide

theorem test_decode_decode_simd_words :
    decodeCmd 0x00000042 = .decodeB4Simd ∧ decodeCmd 0x00000052 = .decodeHnSimd ∧
      decodeCmd 0x00000062 = .decodeSnSimd ∧ decodeCmd 0x00000072 = .decodeTnSimd := by decide

theorem test_decode_classify_word : decodeCmd 0x00000003 = .classify := by decide

theorem test_decode_table_init_words :
    decodeCmd 0x00000004 = .tableInitB4 ∧ decodeCmd 0x00000014 = .tableInitHn ∧
      decodeCmd 0x00000024 = .tableInitSn ∧ decodeCmd 0x00000034 = .tableInitTn := by decide

/-- V-CL, V-ENG: the illegal words the vectors name. -/
theorem test_decode_illegal_words :
    decodeCmd 0x00 = .illegal 0x00 ∧ decodeCmd 0x05 = .illegal 0x05 ∧ decodeCmd 0x41 = .illegal 0x41 ∧
      decodeCmd 0x82 = .illegal 0x82 ∧ decodeCmd 0x13 = .illegal 0x13 ∧ decodeCmd 0x43 = .illegal 0x43 ∧
      decodeCmd 0x83 = .illegal 0x83 ∧ decodeCmd 0x44 = .illegal 0x44 := by simp [decodeCmd]

/-- V-B4: 0xE1 has codes 1, 0, 2, 3; 0x3F codes 3, 3, 3, 0. -/
theorem test_decode_b4_headers :
    decodeHdr .basic4 0xFF = .b4Raw ∧ decodeHdr .basic4 0xE1 = .b4Coded 1 0 2 3 ∧
      decodeHdr .basic4 0x3F = .b4Coded 3 3 3 0 := by decide

theorem test_decode_hn_headers :
    decodeHdr .headerlessNib 0x40 = .hnRawLo 0 ∧ decodeHdr .headerlessNib 0x7F = .hnRawLo 0x3F ∧
      decodeHdr .headerlessNib 0x80 = .hnRawHi 0 ∧ decodeHdr .headerlessNib 0xFF = .hnRawHi 0x7F ∧
      decodeHdr .headerlessNib 0x12 = .hnCoded 2 1 ∧ decodeHdr .headerlessNib 0x04 = .hnMalformed 0x04 := by decide

theorem test_decode_sn_headers :
    decodeHdr .sentinelNib 0xF0 = .snRaw ∧ decodeHdr .sentinelNib 0x12 = .snCoded 2 1 ∧
      decodeHdr .sentinelNib 0x40 = .snMalformed 0x40 ∧ decodeHdr .sentinelNib 0xF1 = .snMalformed 0xF1 := by decide

theorem test_decode_tn_headers :
    decodeHdr .tableNib 0xF0 = .tnRaw ∧ decodeHdr .tableNib 0x31 = .tnCoded 1 3 ∧
      decodeHdr .tableNib 0x40 = .tnMalformed 0x40 := by decide

theorem test_withFetchWord_fetches :
    (State.reset.withFetchWord 32 0x62).fetch = .decodeSnSimd ∧
      (State.reset.withFetchWord 8 0xFF).fetch = .b4Raw ∧ (State.reset.withFetchWord 8 0xF0).fetch = .snRaw ∧
      (State.reset.withFetchWord 8 0x12).fetch = .hnCoded 2 1 := by decide

/-! ### ENCODE steps -/

/-- V-L1-3: `[1, 2, 3, 4]` is one raw block of 5 bytes. -/
theorem test_encodeB4_raw :
    observe (step (encoding 0x01 .basic4 [1, 2, 3, 4] 5)) encoded = some ([0xFF, 1, 2, 3, 4], 4, 0x001) := by decide

/-- V-B4: codes 1, 0, 2, 3 give descriptor 0xE1. -/
theorem test_encodeB4_coded :
    observe (step (encoding 0x01 .basic4 [256, 1, 70000, 0x01000000] 11)) encoded =
      some ([0xE1, 0x00, 0x01, 0x01, 0x70, 0x11, 0x01, 0x00, 0x00, 0x00, 0x01], 4, 0x001) := by decide

/-- V-B4: four 4-byte values under FAULT end with COLLISION, STATUS 0x76. -/
theorem test_encodeB4_collision :
    observe (step (encoding 0x01 .basic4 [0x01000000, 0x02000000, 0xFFFFFFFF, 0x12345678] 0x40)) encoded =
      some ([], 0, 0x076) := by decide

/-- V-HN: the raw block has no marker. -/
theorem test_encodeHn_raw :
    observe (step (encoding 0x11 .headerlessNib [0x40, 0x41, 0x42, 0x43] 4)) encoded =
      some ([0x40, 0x41, 0x42, 0x43], 4, 0x001) := by decide

/-- V-HN: `[3, 300]` has descriptor 0x10. -/
theorem test_encodeHn_coded :
    observe (step (encoding 0x11 .headerlessNib [3, 300] 4)) encoded =
      some ([0x10, 0x03, 0x2C, 0x01], 2, 0x001) := by decide

/-- V-SN: a single value is a partial group. -/
theorem test_encodeSn_partial :
    observe (step (encoding 0x21 .sentinelNib [0x12345] 4)) encoded =
      some ([0x02, 0x45, 0x23, 0x01], 1, 0x001) := by decide

/-- V-SN: 9 bytes do not fit in 8, and nothing is written: STATUS 0x66. -/
theorem test_encodeSn_overflow :
    observe (step (encoding 0x21 .sentinelNib [0xFFFFFFFF, 0xFFFFFFFF] 8)) encoded = some ([], 0, 0x066) := by decide

/-- V-SN: TABLE_NIB's raw block carries the marker 0xF0. -/
theorem test_encodeTn_raw :
    observe (step (encoding 0x31 .tableNib [1, 2, 3, 4] 5)) encoded = some ([0xF0, 1, 2, 3, 4], 4, 0x001) := by decide

/-- V-SN: the first block of `[255, 256, ...]` has descriptor 0x10. -/
theorem test_encodeTn_coded :
    observe (step (encoding 0x31 .tableNib [255, 256, 65535, 65536] 18)) encoded =
      some ([0x10, 0xFF, 0x00, 0x01], 2, 0x001) := by decide

/-! ### DECODE steps: the header instructions -/

/-- V-L1-3. -/
theorem test_b4Raw :
    observe (step (decoding 0x02 .basic4 false [0xFF, 1, 2, 3, 4] 4)) decoded = some ([1, 2, 3, 4], 5, 0x001) := by
  decide

/-- V-B4: a raw header with 2 values left is malformed. -/
theorem test_b4Raw_malformed :
    observe (step (decoding 0x02 .basic4 false [0xFF, 1, 2, 3, 4] 2)) decoded = some ([], 0, 0x096) := by decide

/-- V-B4: the stream of descriptor 0xE1. -/
theorem test_b4Coded :
    observe (step (decoding 0x02 .basic4 false [0xE1, 0x00, 0x01, 0x01, 0x70, 0x11, 0x01, 0x00, 0x00, 0x00, 0x01] 4))
      decoded = some ([256, 1, 70000, 0x01000000], 11, 0x001) := by decide

/-- V-B4: fields 0 and 1 have codes 0 and 3, so the partial block needs 6 bytes: STATUS 0x86. -/
theorem test_b4Coded_truncated :
    observe (step (decoding 0x02 .basic4 false [0xFC, 1, 2, 3] 2)) decoded = some ([], 0, 0x086) := by decide

/-- V-HN: the header 0x40 is the first literal. -/
theorem test_hnRawLo :
    observe (step (decoding 0x12 .headerlessNib false [0x40, 0x41, 0x42, 0x43] 4)) decoded =
      some ([0x40, 0x41, 0x42, 0x43], 4, 0x001) := by decide

/-- V-HN: two bytes of a raw block are too few. -/
theorem test_hnRawLo_truncated :
    observe (step (decoding 0x12 .headerlessNib false [0x40, 0x41] 4)) decoded = some ([], 0, 0x086) := by decide

/-- R87 on the literals 0xFF, 0, 0x80, 7. -/
theorem test_hnRawHi :
    observe (step (decoding 0x12 .headerlessNib false [0xFF, 0, 0x80, 7] 4)) decoded =
      some ([0xFF, 0, 0x80, 7], 4, 0x001) := by decide

/-- V-HN: `10 03 2C 01` is `[3, 300]`. -/
theorem test_hnCoded :
    observe (step (decoding 0x12 .headerlessNib false [0x10, 0x03, 0x2C, 0x01] 2)) decoded =
      some ([3, 300], 4, 0x001) := by decide

/-- V-HN: c1 = 3 is ignored when one value is left. -/
theorem test_hnCoded_partial :
    observe (step (decoding 0x12 .headerlessNib false [0x30, 0x05] 1)) decoded = some ([5], 2, 0x001) := by decide

/-- V-HN: bit 2 set below 0x40. -/
theorem test_hnMalformed :
    observe (step (decoding 0x12 .headerlessNib false [0x04, 1, 2] 2)) decoded = some ([], 0, 0x096) := by decide

/-- V-SN: the first block of `F0 0D 0E 0F 10 00 11 12`. -/
theorem test_snRaw :
    observe (step (decoding 0x22 .sentinelNib false [0xF0, 0x0D, 0x0E, 0x0F, 0x10, 0x00, 0x11, 0x12] 6)) decoded =
      some ([13, 14, 15, 16], 5, 0x001) := by decide

/-- V-SN: `F0 01 02` is truncated. -/
theorem test_snRaw_truncated :
    observe (step (decoding 0x22 .sentinelNib false [0xF0, 1, 2] 4)) decoded = some ([], 0, 0x086) := by decide

/-- V-L1-5, row c0 = 2, c1 = 1. -/
theorem test_snCoded :
    observe (step (decoding 0x22 .sentinelNib false [0x12, 0x56, 0x34, 0x12, 0x34, 0x12] 2)) decoded =
      some ([0x123456, 0x1234], 6, 0x001) := by decide

/-- V-SN: 0x40 is raw only in HN. -/
theorem test_snMalformed :
    observe (step (decoding 0x22 .sentinelNib false [0x40, 1, 2] 2)) decoded = some ([], 0, 0x096) := by decide

/-- V-SN under TN. -/
theorem test_tnRaw :
    observe (step (decoding 0x32 .tableNib true [0xF0, 0x0D, 0x0E, 0x0F, 0x10] 4)) decoded =
      some ([13, 14, 15, 16], 5, 0x001) := by decide

/-- V-TBL: the gather of the g = 2 entry 0x12. -/
theorem test_tnCoded_by_table :
    observe (step (withTable 2 (decoding 0x32 .tableNib true [0x12, 0x56, 0x34, 0x12, 0x34, 0x12] 2))) decoded =
      some ([0x123456, 0x1234], 6, 0x301) := by decide +kernel

/-- R92: a header that is neither the marker nor a descriptor. -/
theorem test_tnMalformed :
    observe (step (decoding 0x32 .tableNib true [0xF1, 1, 2] 2)) decoded = some ([], 0, 0x096) := by decide

/-- V-TBL: the gather of the g = 4 entry 0xE1, the same values as the scalar decode. -/
theorem test_b4Coded_by_table :
    observe (step (withTable 4 (decoding 0x42 .basic4 true
      [0xE1, 0x00, 0x01, 0x01, 0x70, 0x11, 0x01, 0x00, 0x00, 0x00, 0x01] 4))) decoded =
      some ([256, 1, 70000, 0x01000000], 11, 0x101) := by decide +kernel

/-! ### The other commands -/

/-- V-CL: 0x10000 has class 2. -/
theorem test_classify :
    observe (step { started 0x03 with classIn := 0x10000 }) (fun t => (t.classOut, t.status.word)) =
      some (2, 0x002) := by decide

/-- V-CL: the class boundaries. -/
theorem test_classify_boundaries :
    [(0 : Word), 0xFF, 0x100, 0xFFFF, 0x10000, 0xFFFFFF, 0x1000000, 0xFFFFFFFF].map classify =
      [0, 0, 1, 1, 2, 2, 3, 3] := by decide

/-- V-ENG: reserved bit 7 set, STATUS 0x16, RESULT and VDONE unchanged. -/
theorem test_illegal :
    observe (step { started 0x82 with result := 7, vdone := 8 }) (fun t => (t.status.word, t.result, t.vdone)) =
      some (0x016, 7, 8) := by decide

/-- V-TBL: TABLE_INIT.B4 gives STATUS 0x102; the entry 0xE1 reads TBL_INFO 0x10A and the four patterns. -/
theorem test_tableInitB4 :
    observe (step { started 0x04 with tblSel := 0xE1 }) (fun t => (t.status.word,
      [Reg.tblInfo, .tblPat0, .tblPat1, .tblPat2, .tblPat3].map t.readReg)) =
      some (0x102, [0x0000010A, 0x80800100, 0x80808002, 0x80050403, 0x09080706]) := by decide +kernel

/-- V-TBL: the g = 2 entry 0x31. -/
theorem test_tableInitHn :
    observe (step { started 0x14 with tblSel := 0x31 }) (fun t => (t.status.word,
      [Reg.tblInfo, .tblPat0, .tblPat1, .tblPat2, .tblPat3].map t.readReg)) =
      some (0x302, [0x00000106, 0x80800100, 0x05040302, 0x80808080, 0x80808080]) := by decide +kernel

/-- V-TBL: TABLE_INIT.SN gives STATUS 0x302; the g = 2 entry 0x12. -/
theorem test_tableInitSn :
    observe (step { started 0x24 with tblSel := 0x12 }) (fun t => (t.status.word,
      [Reg.tblInfo, .tblPat0, .tblPat1, .tblPat2, .tblPat3].map t.readReg)) =
      some (0x302, [0x00000105, 0x80020100, 0x80800403, 0x80808080, 0x80808080]) := by decide +kernel

/-- V-TBL: the g = 2 byte 0xF0 is no descriptor. -/
theorem test_tableInitTn :
    observe (step { started 0x34 with tblSel := 0xF0 }) (fun t => (t.status.word,
      [Reg.tblInfo, .tblPat0, .tblPat1, .tblPat2, .tblPat3].map t.readReg)) =
      some (0x302, [0x00000000, 0x80808080, 0x80808080, 0x80808080, 0x80808080]) := by decide +kernel

/-- V-ENG: VAL_BASE 0x1002, STATUS 0x26, RESULT and VDONE 0. -/
theorem test_start_align :
    observe (step { started 0x01 with valBase := 0x1002, result := 7, vdone := 8 })
      (fun t => (t.status.word, t.result, t.vdone)) = some (0x026, 0, 0) := by decide

/-- V-ENG: TABLE_VALID 0 and DECODE.TN, STATUS 0x56. -/
theorem test_start_decodeTn_table_not_ready :
    observe (step (started 0x32)) (fun t => (t.status.word, t.result, t.vdone)) = some (0x056, 0, 0) := by decide

/-- V-ENG: TABLE_VALID 0 and DECODE.SN.SIMD, STATUS 0x56. -/
theorem test_start_decodeSnSimd_table_not_ready :
    observe (step (started 0x62)) (fun t => (t.status.word, t.result, t.vdone)) = some (0x056, 0, 0) := by decide

/-- V-ENG: DECODE.B4.SIMD with a G = 2 table, STATUS 0x356. -/
theorem test_start_decodeB4Simd_wrong_width :
    observe (step { started 0x42 with status := { Status.atReset.accepted with tableValid := true, tableG2 := true } })
      (fun t => t.status.word) = some 0x356 := by decide

/-- R51, R45: while ENCODE.B4 of `[1, 2, 3, 4]` runs, the byte past its 5-byte stream reads its old value. -/
theorem test_hostRead_past_the_stream :
    observe (step { encoding 0x01 .basic4 [1, 2, 3, 4] 8 with
        mem := memBytes (memWords [] 0x1000 [1, 2, 3, 4]) 0x2000 (List.replicate 8 0xEE)
        before := memBytes (memWords [] 0x1000 [1, 2, 3, 4]) 0x2000 (List.replicate 8 0xEE)
        inputs := [.memRead .byte 0x2005] })
      (fun t => t.hostData) = some 0xEE := by decide +kernel

/-- R51: where the host has raced the byte 0x2001, the engine's byte 0x01 is kept for the host's reads whichever of the two
stands; a byte that has met no race is not kept. -/
theorem test_engine_byte_over_a_race_is_kept :
    observe (step { encoding 0x01 .basic4 [1, 2, 3, 4] 8 with race := [(0x2001, 0xEE), (0x2001, 0)] })
      (fun t => t.race) = some [(0x2001, 0x01), (0x2001, 0xEE), (0x2001, 0)] := by decide +kernel

/-- R51: a host write over a byte the engine has written keeps the old byte and the new one. -/
theorem test_hostWrite_over_an_engine_byte_keeps_both :
    observe (step { encoding 0x01 .basic4 [1, 2, 3, 4] 8 with
        eng := { phase := .run, op := .encode, w := 0x01, variant := .basic4, simd := false, i := 4, p := 5 }
        mem := [(0x2001, 7)], inputs := [.memWrite .byte 0x2001 0xEE] })
      (fun t => t.race) = some [(0x2001, 0xEE), (0x2001, 7)] := by decide +kernel

/-- R131, R104: a reset that cuts off an ENCODE of no values leaves its byte buffer as it was. -/
theorem test_reset_keeps_unwritten_bytes :
    observe (step { encoding 0x01 .basic4 [] 16 with
        mem := memBytes [] 0x2000 (List.replicate 16 0xEE), inputs := [.reset] })
      (fun t => (Memory.readBytes t.mem 0x2000 16, t.eng.phase, t.status.word)) =
      some (List.replicate 16 0xEE, .idle, 0) := by decide +kernel

/-- R18 item 6 and R29: TBL_SEL keeps bits [7:0]. -/
theorem test_write_tblSel :
    observe (step { State.reset with inputs := [.regWrite .word 0x28 0x1E1] }) (fun t => t.tblSel) = some 0xE1 := by
  decide

theorem test_reset_memory_wf : Memory.wf State.reset.mem = true := by decide

/-- Writing the byte an unlisted address reads as removes the entry. -/
theorem test_memory_write_removes : Memory.write (Memory.write [] 5 7) 5 0 = [] := by decide

/-! ### Witnesses: states and operands that meet the hypotheses of the statements -/

theorem witness_DecodeOfEncodeGivesTheInstruction :
    (Instr.b4Coded 2 3 3 3).wellFormed = true ∧ (Instr.illegal 0x82).wellFormed = true ∧
      (Instr.hnMalformed 0x3F).wellFormed = true ∧ (Instr.snMalformed 0xFF).wellFormed = true := by decide

/-- A reserved bit set, SIMD on CLASSIFY, OP 5: the words at the edges of R58, in START. -/
theorem witness_IllegalWordsAreThoseRule58DoesNotList :
    (started 0x82).inputs = [] ∧ (started 0x82).eng.phase = .start ∧ (started 0x82).eng.w = 0x82 ∧
      (0x82 : Word).extractLsb' 7 25 ≠ 0 ∧
      ((0x43 : Word).extractLsb' 0 4 = 3 ∧ (0x43 : Word).getLsbD 6 = true) ∧
      ((0x05 : Word).extractLsb' 0 4 = 5 ∧ (0x05 : Word).extractLsb' 7 25 = 0) := by decide

/-- An idle engine, a START step, an ENCODE RUN step, a header due, values used up, and bytes used up. -/
theorem witness_StepRunsTheFetchedInstruction :
    State.reset.inputs = [] ∧ State.reset.eng.phase = .idle ∧
    (started 0x01).inputs = [] ∧ (started 0x01).eng.phase = .start ∧
    (let s := encoding 0x01 .basic4 [1] 2;
      s.inputs = [] ∧ s.eng.phase = .run ∧ s.eng.op = .encode) ∧
    (let s := decoding 0x02 .basic4 false [0x00] 1;
      s.inputs = [] ∧ s.eng.phase = .run ∧ s.eng.op = .decode ∧ s.eng.i < s.valCount.toNat ∧
        s.eng.p < s.byteCap.toNat ∧ s.race = []) ∧
    (let s := decoding 0x02 .basic4 false [0x00] 0;
      s.eng.phase = .run ∧ s.eng.op = .decode ∧ s.valCount.toNat ≤ s.eng.i) ∧
    (let s := decoding 0x02 .basic4 false [] 1;
      s.eng.phase = .run ∧ s.eng.op = .decode ∧ s.byteCap.toNat ≤ s.eng.p) ∧
    (started 0x01).status.busy = true ∧ (started 0x01).eng.phase ≠ .idle := by decide

theorem witness_StepRunsTheEncodedInstruction :
    (Instr.classify.wellFormed = true ∧ (started 0x03).inputs = [] ∧ encode .classify = .cmd 0x03 ∧
      (started 0x03).eng.phase = .start ∧ (started 0x03).eng.w = 0x03) ∧
    (let s := decoding 0x22 .sentinelNib false [0x12] 1;
      (Instr.snCoded 2 1).wellFormed = true ∧ encode (.snCoded 2 1) = .hdr .sentinelNib 0x12 ∧ s.inputs = [] ∧
        s.eng.phase = .run ∧ s.eng.op = .decode ∧ s.eng.variant = .sentinelNib ∧ s.race = [] ∧
        s.eng.i < s.valCount.toNat ∧ s.eng.p < s.byteCap.toNat ∧
        Memory.read s.mem (s.byteBase.toNat + s.eng.p) = 0x12) := by decide

/-- A command of the table, and an illegal word. -/
theorem witness_PseudoInstructionsExpand :
    encode .decodeTnSimd = .cmd 0x72 ∧ encode (.illegal 0x82) = .cmd 0x82 := by decide

/-- Each way to stop: past the window, a narrow access, a misaligned one, and the first byte past the top of memory. -/
theorem witness_StepStopsOnlyOnBadHostAccess :
    step { State.reset with inputs := [.regRead .word 0x100] } = .refused .outsideWindow ∧
      step { State.reset with inputs := [.regRead .half 0x04] } = .refused .accessNotAdmitted ∧
      step { State.reset with inputs := [.regWrite .word 0x02 0] } = .refused .accessNotAdmitted ∧
      step { State.reset with inputs := [.memRead .word 0xFFFFFFFD] } = .fault .outsideMem ∧
      step { State.reset with inputs := [.memWrite .byte 0x100000000 0] } = .fault .outsideMem :=
  ⟨rfl, rfl, rfl, rfl, rfl⟩

/-- Offsets at the ends of the ranges of R18, BUSY 0 and BUSY 1. -/
theorem witness_RegisterAccessRules :
    (let base := State.reset.cfg.regBase;
      (base ≤ base + 0xFC ∧ base + 0xFC < base + 0x100 ∧ AccessSize.byte ≠ .word) ∧
        (base ≤ base + 0xFF ∧ base + 0xFF < base + 0x100 ∧ (base + 0xFF - base) % 4 ≠ 0)) ∧
      (0x44 ∈ [0x04, 0x18, 0x1C, 0x24, 0x2C, 0x30, 0x34, 0x38, 0x3C, 0x40, 0x44]) ∧
      (0x48 ≤ 0x48 ∧ 0x48 % 4 = 0) ∧ (0xFC ≤ 0xFC ∧ 0xFC % 4 = 0) ∧
      State.reset.status.busy = false ∧ (started 0x01).status.busy = true ∧ 0xFC < 0x100 := by decide

theorem witness_CmdWriteStartsACommand :
    (started 0x01).status.busy = true ∧ State.reset.status.busy = false := by decide

/-- An invalid table; a valid one whose selected entry has the greatest LEN. -/
theorem witness_TableReadbackShowsTheSelectedEntry :
    State.reset.status.tableValid = false ∧
      (let s := withTable 4 { State.reset with tblSel := 0xFF };
        s.status.tableValid = true ∧ s.table[s.tblSel.toNat].len = 16) := by decide +kernel

theorem witness_LittleEndianPrimitives :
    (4 : Nat) ≤ 4 ∧ (0xFFFFFFFF : Word).toNat < 2 ^ (8 * 4) ∧ (0x00FFFFFF : Word).toNat < 2 ^ (8 * 3) ∧
      (0 : Word).toNat < 2 ^ (8 * 0) ∧ ([1, 2, 3, 4] : List Byte).length ≤ 4 := by decide

theorem witness_ClassifierIsMonotoneMinimalAndExact :
    (0xFF : Word) ≤ 0x100 ∧ 0 < (classify 0x100).toNat ∧ 0 < (classify 0xFFFFFFFF).toNat := by decide

theorem witness_ClassifyWritesClassOut :
    (started 0x03).eng.phase = .start ∧ (0x13 : Word).extractLsb' 0 4 = 3 ∧ (0x13 : Word) ≠ 3 := by decide

theorem witness_IllegalCommandChangesNoResult : (started 0x82).eng.phase = .start := by decide

theorem witness_TableInitBuildsEveryEntry :
    (.tableInitB4, .basic4, 4) ∈ tableInitRows ∧ (.tableInitTn, .tableNib, 2) ∈ tableInitRows ∧
      (started 0x04).eng.phase = .start ∧ 255 < 256 ∧
      ((0x44 : Word).extractLsb' 0 4 = 4 ∧ (0x44 : Word).getLsbD 6 = true) ∧
      ((0x84 : Word).extractLsb' 0 4 = 4 ∧ (0x84 : Word).extractLsb' 7 25 ≠ 0) := by decide

/-- V-ENG: one state per START check, at the boundary the vector gives. -/
theorem witness_CodecStartChecksInOrder_align :
    let s := { started 0x01 with valBase := 0x1002 }
    s.eng.phase = .start ∧ s.valBase.toNat % 4 ≠ 0 := by decide

theorem witness_CodecStartChecksInOrder_range :
    let s := { started 0x01 with valBase := 0xFFFFFFF0, valCount := 5 }
    s.eng.phase = .start ∧ s.valBase.toNat % 4 = 0 ∧ rangeBad s := by unfold rangeBad; decide

theorem witness_CodecStartChecksInOrder_overlap :
    let s := { started 0x01 with byteBase := 0x100F, byteCap := 1 }
    s.eng.phase = .start ∧ s.valBase.toNat % 4 = 0 ∧ ¬rangeBad s ∧ overlap s := by unfold rangeBad overlap; decide

theorem witness_CodecStartChecksInOrder_table :
    let s := started 0x42
    s.eng.phase = .start ∧ s.valBase.toNat % 4 = 0 ∧ ¬rangeBad s ∧ ¬overlap s ∧
      tableMissing s .decode .basic4 true := by unfold rangeBad overlap tableMissing; decide

theorem witness_CodecStartChecksInOrder_passes :
    (let s := { started 0x01 with byteBase := 0x1010, byteCap := 1 };
      s.eng.phase = .start ∧ startPasses s .encode .basic4 false) ∧
    (let s := { started 0x01 with valBase := 0xFFFFFFF0 };
      s.eng.phase = .start ∧ startPasses s .encode .basic4 false) ∧
    (let s := { started 0x62 with status := { Status.atReset.accepted with tableValid := true, tableG2 := true } };
      s.eng.phase = .start ∧ startPasses s .decode .sentinelNib true) := by
  unfold startPasses rangeBad overlap tableMissing; decide

/-- An ENCODE of `[1, 2, 3, 4]` in its RUN steps whose first block has `len` bytes. -/
def encodeSample (i : Instr) (w : Word) (v : Variant) (cap : Word) (len : Nat) : Prop :=
  let s := encoding w v [1, 2, 3, 4] cap
  (i, v) ∈ encodeRows ∧ s.eng.phase = .run ∧ s.eng.variant = v ∧ quiet s ∧ s.eng.i < s.valCount.toNat ∧
    ∃ block, encBlock s.cfg.ffPolicy v [1, 2, 3, 4] = .ok (block, 4) ∧ block.length = len

/-- Every ENCODE row, where its block just fits. -/
theorem witness_EncodeRunStepWritesOneBlock :
    encodeSample .encodeB4 0x01 .basic4 5 5 ∧ encodeSample .encodeHn 0x11 .headerlessNib 4 4 ∧
      encodeSample .encodeSn 0x21 .sentinelNib 5 5 ∧ encodeSample .encodeTn 0x31 .tableNib 5 5 := by
  unfold encodeSample quiet
  exact ⟨⟨by decide, rfl, rfl, by decide, by decide, _, rfl, rfl⟩,
    ⟨by decide, rfl, rfl, by decide, by decide, _, rfl, rfl⟩,
    ⟨by decide, rfl, rfl, by decide, by decide, _, rfl, rfl⟩,
    ⟨by decide, rfl, rfl, by decide, by decide, _, rfl, rfl⟩⟩

/-- And where it is one byte too long. -/
theorem witness_EncodeRunStepWritesOneBlock_overflow :
    encodeSample .encodeB4 0x01 .basic4 4 5 ∧ encodeSample .encodeHn 0x11 .headerlessNib 3 4 := by
  unfold encodeSample quiet
  exact ⟨⟨by decide, rfl, rfl, by decide, by decide, _, rfl, rfl⟩,
    ⟨by decide, rfl, rfl, by decide, by decide, _, rfl, rfl⟩⟩

/-- The other two ends of an ENCODE RUN step: nothing left to encode, and a marker collision. -/
theorem witness_EncodeRunStepWritesOneBlock_ends :
    (let s := encoding 0x01 .basic4 [] 5;
      quiet s ∧ s.eng.phase = .run ∧ s.eng.variant = .basic4 ∧ s.eng.i = s.valCount.toNat) ∧
    (let values : List Word := [0x01000000, 0x01000000, 0x01000000, 0x01000000];
      let s := encoding 0x01 .basic4 values 0x40
      quiet s ∧ s.eng.phase = .run ∧ s.eng.variant = .basic4 ∧ s.eng.i < s.valCount.toNat ∧
        ((List.range (min 4 (valuesLeft s))).map fun k =>
          Memory.read32 s.mem (s.valBase.toNat + 4 * (s.eng.i + k))) = values ∧
        encBlock s.cfg.ffPolicy .basic4 values = .error .collision) := by
  unfold quiet; decide +kernel

/-- The fast path at 255, not at 256; four 4-byte values collide, three do not. -/
theorem witness_Basic4EncoderBlocks :
    fastPath [255, 255, 255, 255] ∧ ¬fastPath [255, 255, 255, 256] ∧ ¬fastPath [1, 2, 3] ∧
      (let group := ([0x1000000, 0x1000000, 0x1000000, 0x1000000] : List Word).take 4;
        ¬fastPath group ∧ group.length = 4 ∧ ∀ v ∈ group, 0x1000000 ≤ v.toNat) ∧
      ¬(([0x1000000, 0x1000000, 0x1000000] : List Word).length = 4) := by
  simp [fastPath]

theorem witness_NibbleEncoderBlocks :
    ([1, 2, 3, 4] : List Word) ≠ [] ∧ fastPath [1, 2, 3, 4] ∧ ([1, 2, 3, 300] : List Word) ≠ [] ∧
      ¬fastPath [1, 2, 3, 300] := by simp [fastPath]

theorem witness_SentinelMarkerIsNeverADescriptor :
    encBlock .fault .sentinelNib [1, 2, 3, 4] = .ok ([0xF0, 1, 2, 3, 4], 4) ∧ fastPath [1, 2, 3, 4] ∧
      encBlock .fault .tableNib [0xFFFFFFFF, 0xFFFFFFFF] =
        .ok ([0x33, 0xFF, 0xFF, 0xFF, 0xFF, 0xFF, 0xFF, 0xFF, 0xFF], 2) ∧
      ¬fastPath [0xFFFFFFFF, 0xFFFFFFFF] := by
  simp only [fastPath]; exact ⟨rfl, by simp, rfl, by simp⟩

/-- A DECODE with a whole block, one with a byte too few, and one with nothing left; the SIMD form with its table. -/
theorem witness_DecodeRunStepDecodesOneBlock :
    (let s := decoding 0x22 .sentinelNib false [0x12, 0x56, 0x34, 0x12, 0x34, 0x12] 2;
      s.eng.phase = .run ∧ quiet s ∧ tableFits s .sentinelNib ∧ s.eng.i < s.valCount.toNat ∧
        s.eng.p ≤ s.byteCap.toNat ∧
        decBlock .sentinelNib (streamBytes s) (valuesLeft s) = .ok ([0x123456, 0x1234], 6)) ∧
    (let s := decoding 0x22 .sentinelNib false [0x12, 0x56, 0x34, 0x12, 0x34] 2;
      quiet s ∧ tableFits s .sentinelNib ∧ s.eng.i < s.valCount.toNat ∧
        decBlock .sentinelNib (streamBytes s) (valuesLeft s) = .error .truncated) ∧
    (let s := decoding 0x22 .sentinelNib false [] 0;
      quiet s ∧ tableFits s .sentinelNib ∧ s.eng.i = s.valCount.toNat) ∧
    (let s := withTable 2 (decoding 0x62 .sentinelNib true [0x00, 0x05, 0x06] 2);
      s.eng.phase = .run ∧ s.eng.variant = .sentinelNib ∧ s.eng.simd = true ∧ quiet s ∧
        tableFits s .sentinelNib) := by
  unfold quiet tableFits streamBytes
  refine ⟨by decide, by decide, by decide, rfl, rfl, rfl, by decide, fun _ => rfl⟩

theorem witness_HeaderInstructionIsTheDecodeStep :
    (let s := decoding 0x02 .basic4 false [0x00] 1;
      s.eng.phase = .run ∧ s.eng.variant = .basic4 ∧ s.eng.i < s.valCount.toNat ∧ s.eng.p < s.byteCap.toNat) ∧
    (let s := decoding 0x02 .basic4 false [] 1;
      s.eng.phase = .run ∧ s.eng.i < s.valCount.toNat ∧ s.byteCap.toNat ≤ s.eng.p) := by decide

/-- Three values left; four left and four bytes; four left and five bytes. -/
theorem witness_MarkedRawHeadersDecodeFourLiterals :
    (let s := decoding 0x02 .basic4 false [0xFF, 1, 2, 3, 4] 3;
      decodingStep s ∧ quiet s ∧ valuesLeft s < 4) ∧
    (let s := decoding 0x22 .sentinelNib false [0xF0, 1, 2, 3] 4;
      decodingStep s ∧ quiet s ∧ 4 ≤ valuesLeft s ∧ bytesLeft s < 5) ∧
    (let s := decoding 0x32 .tableNib true [0xF0, 1, 2, 3, 4] 4;
      decodingStep s ∧ quiet s ∧ 4 ≤ valuesLeft s ∧ 5 ≤ bytesLeft s) := by unfold decodingStep quiet; decide

theorem witness_HeaderlessRawHeadersDecodeFourLiterals :
    (let s := decoding 0x12 .headerlessNib false [0x40, 0x41, 0x42, 0x43] 3;
      decodingStep s ∧ quiet s ∧ valuesLeft s < 4) ∧
    (let s := decoding 0x12 .headerlessNib false [0x7F, 1, 2] 4;
      decodingStep s ∧ quiet s ∧ 4 ≤ valuesLeft s ∧ bytesLeft s < 4) ∧
    (let s := decoding 0x12 .headerlessNib false [0x80, 1, 2, 3] 4;
      decodingStep s ∧ quiet s ∧ 4 ≤ valuesLeft s ∧ 4 ≤ bytesLeft s) := by unfold decodingStep quiet; decide

/-- Codes 1, 0, 2, 3 take 11 bytes for a full group and 3 for one value: one byte too few, and just enough, by the scalar
rule and by the table. -/
theorem witness_Basic4CodedHeaderDecodesItsSlots :
    (let s := decoding 0x02 .basic4 false (0xE1 :: List.replicate 9 1) 4;
      decodingStep s ∧ quiet s ∧ tableFits s .basic4 ∧ bytesLeft s < 1 + payloadOffset [1, 0, 2, 3] (min 4 (valuesLeft s))) ∧
    (let s := decoding 0x02 .basic4 false [0xE1, 1, 1] 1;
      decodingStep s ∧ quiet s ∧ tableFits s .basic4 ∧ bytesLeft s = 1 + payloadOffset [1, 0, 2, 3] (min 4 (valuesLeft s))) ∧
    (let s := withTable 4 (decoding 0x42 .basic4 true (0xE1 :: List.replicate 10 1) 4);
      decodingStep s ∧ quiet s ∧ tableFits s .basic4 ∧
        bytesLeft s = 1 + payloadOffset [1, 0, 2, 3] (min 4 (valuesLeft s))) := by
  unfold decodingStep quiet tableFits
  exact ⟨by decide, by decide, by decide, by decide, fun _ => rfl, by decide⟩

theorem witness_NibbleCodedHeadersDecodeTheirSlots :
    (let s := decoding 0x12 .headerlessNib false [0x12, 1, 1, 1, 1] 2;
      decodingStep s ∧ quiet s ∧ tableFits s .tableNib ∧ bytesLeft s < 1 + payloadOffset [2, 1] (min 2 (valuesLeft s))) ∧
    (let s := decoding 0x22 .sentinelNib false [0x12, 1, 1, 1] 1;
      decodingStep s ∧ quiet s ∧ tableFits s .tableNib ∧ bytesLeft s = 1 + payloadOffset [2, 1] (min 2 (valuesLeft s))) ∧
    (let s := withTable 2 (decoding 0x32 .tableNib true [0x12, 1, 1, 1, 1, 1] 2);
      decodingStep s ∧ quiet s ∧ tableFits s .tableNib ∧ bytesLeft s = 1 + payloadOffset [2, 1] (min 2 (valuesLeft s))) := by
  unfold decodingStep quiet tableFits
  exact ⟨by decide, by decide, by decide, by decide, fun _ => rfl, by decide⟩

theorem witness_MalformedHeadersEndDecode :
    decodingStep (decoding 0x12 .headerlessNib false [0x04] 1) ∧
      decodingStep (decoding 0x22 .sentinelNib false [0xF1] 1) ∧
      decodingStep (decoding 0x32 .tableNib true [0x40] 1) := by unfold decodingStep; decide

theorem witness_BuiltEntriesHoldTheirLanes :
    (0x33 : Byte) &&& 0xCC = 0 ∧ (0x00 : Byte) &&& 0xCC = 0 ∧ (0x04 : Byte) &&& 0xCC ≠ 0 := by decide

/-- The last lane of the longest entry of each width. -/
theorem witness_GatherReadsOnlyThePayload :
    (4 ≤ 4 ∧ 3 < 4) ∧
    ((buildEntry 4 0xFF).evalid = true ∧ (15 : Byte) ∈ (buildEntry 4 0xFF).pat.toList ∧
      (15 : Byte).getLsbD 7 = false) ∧
    ((buildEntry 2 0x33).evalid = true ∧ (7 : Byte) ∈ (buildEntry 2 0x33).pat.toList ∧
      (7 : Byte).getLsbD 7 = false) := by decide

theorem witness_SimdDecodeEqualsScalarDecode : (1 : Nat) ≤ 1 := by decide

/-- A stream under FAULT, and under EMIT one whose full groups all hold a value below 0x1000000. -/
theorem witness_Basic4StreamsRoundTrip :
    encodeAll .fault .basic4 [300, 2, 3, 4, 5, 6] = .ok [[0x01, 0x2C, 0x01, 2, 3, 4], [0x00, 5, 6]] ∧
    encodeAll .emit .basic4 [0x1000000, 0x1000000, 0x1000000, 0xFFFFFF] =
      .ok [[0xBF, 0, 0, 0, 1, 0, 0, 0, 1, 0, 0, 0, 1, 0xFF, 0xFF, 0xFF]] ∧
    ∀ j, 4 * j + 4 ≤ 4 → ∃ v ∈ (([0x1000000, 0x1000000, 0x1000000, 0xFFFFFF] : List Word).drop (4 * j)).take 4,
      v.toNat < 0x1000000 :=
  ⟨by decide, by decide, fun j h => by
    obtain rfl : j = 0 := by omega
    exact ⟨0xFFFFFF, by decide, by decide⟩⟩

theorem witness_SentinelStreamsRoundTrip :
    (Variant.sentinelNib = .sentinelNib ∨ Variant.sentinelNib = .tableNib) ∧
      (Variant.tableNib = .sentinelNib ∨ Variant.tableNib = .tableNib) := by decide

/-- V-HN: a raw block whose first literal is exactly 0x40, and a stream without raw blocks. -/
theorem witness_HeaderlessStreamsRoundTripAboveTheBoundary :
    (encodeAll .fault .headerlessNib [0x40, 0x41, 0x42, 0x43] = .ok [[0x40, 0x41, 0x42, 0x43]] ∧
      rawFirstLiteralsHigh 4 [0x40, 0x41, 0x42, 0x43]) ∧
    (encodeAll .fault .headerlessNib [100, 200, 300] = .ok [[0x00, 0x64, 0xC8], [0x01, 0x2C, 0x01]] ∧
      rawFirstLiteralsHigh 3 [100, 200, 300]) := by
  refine ⟨⟨by decide, ?_⟩, by decide, ?_⟩
  · simp only [rawFirstLiteralsHigh, List.drop]; decide
  · simp only [rawFirstLiteralsHigh, List.drop]; decide

/-- First literals 0x3F, with bit 2 set, and 0x33, without. -/
theorem witness_HeaderlessFailureBoundary :
    (fastPath [0x3F, 1, 1, 1] ∧ (0x3F : Word).toNat < 0x40 ∧
      encBlock .fault .headerlessNib [0x3F, 1, 1, 1] = .ok ([0x3F, 1, 1, 1], 4) ∧
      (0x3F : Word).extractLsb' 2 2 ≠ 0) ∧
    (fastPath [0x33, 1, 1, 1] ∧ (0x33 : Word).toNat < 0x40 ∧
      encBlock .fault .headerlessNib [0x33, 1, 1, 1] = .ok ([0x33, 1, 1, 1], 4) ∧
      (0x33 : Word).extractLsb' 2 2 = 0) := by
  simp only [fastPath]
  exact ⟨⟨by simp, by decide, rfl, by decide⟩, by simp, by decide, rfl, by decide⟩

theorem witness_StreamLengthsAndBounds :
    encodeAll .fault .basic4 [1, 2, 3, 4, 0xFFFFFFFF] = .ok [[0xFF, 1, 2, 3, 4], [3, 0xFF, 0xFF, 0xFF, 0xFF]] ∧
      encodeAll .fault .tableNib [3, 300] = .ok [[0x10, 3, 0x2C, 1]] ∧
      encodeAll .fault .headerlessNib [3, 300] = .ok [[0x10, 3, 0x2C, 1]] := by decide

/-- A command just accepted over the memory `m`. -/
def accepted (w : Word) (m : Memory) : State := { started w with mem := m, before := m }

/-- An accepted command meets the invariant. -/
theorem accepted_inv (w : Word) (m : Memory) (hwf : Memory.wf m = true) (hin : Memory.inSpace m = true) :
    (accepted w m).Inv where
  memWf := hwf
  memInSpace := hin
  busyIffRunning := by simp [accepted, started, Status.accepted]
  notBusyAndDone := by simp [accepted, started, Status.accepted]
  errIffErrcode := by simp [accepted, started, Status.accepted]
  raceOnlyWhileBusy := by simp [accepted, started]
  running := by simp [accepted, started]
  tableBuilt := by simp [accepted, started, Status.accepted, Status.atReset]
  beforeKept := fun _ _ _ _ _ => rfl

/-- ENCODE.B4 of `[1, 2, 3, 4]`, accepted. -/
def startedEncode : State := accepted 0x01 (memWords [] 0x1000 [1, 2, 3, 4])

/-- DECODE.B4 of the block `FF 01 02 03 04`, accepted. -/
def startedDecode : State := accepted 0x02 (memBytes [] 0x2000 [0xFF, 1, 2, 3, 4])

theorem witness_EncodeCommandWritesTheStream :
    startedEncode.Inv ∧ startedEncode.inputs = [] ∧ startedEncode.eng.phase = .start ∧ startedEncode.race = [] ∧
      decodeCmd startedEncode.eng.w = .encodeB4 ∧ startPasses startedEncode .encode .basic4 false ∧
      encodeAll startedEncode.cfg.ffPolicy .basic4 (valueWords startedEncode) = .ok [[0xFF, 1, 2, 3, 4]] ∧
      [[0xFF, 1, 2, 3, (4 : Byte)]].flatten.length ≤ startedEncode.byteCap.toNat := by
  refine ⟨accepted_inv _ _ (by decide) (by decide), rfl, rfl, rfl, by decide, ?_, ?_, by decide⟩
  · unfold startPasses rangeBad overlap tableMissing; decide
  · unfold valueWords; decide

theorem witness_DecodeCommandWritesTheValues :
    startedDecode.Inv ∧ startedDecode.inputs = [] ∧ startedDecode.eng.phase = .start ∧ startedDecode.race = [] ∧
      decodeCmd startedDecode.eng.w = .decodeB4 ∧ startPasses startedDecode .decode .basic4 false ∧
      decodeAll (decBlock .basic4)
        (Memory.readBytes startedDecode.mem startedDecode.byteBase.toNat startedDecode.byteCap.toNat)
        startedDecode.valCount.toNat = .ok ([1, 2, 3, 4], 5) := by
  refine ⟨accepted_inv _ _ (by decide) (by decide), rfl, rfl, rfl, by decide, ?_, by decide +kernel⟩
  unfold startPasses rangeBad overlap tableMissing; decide

theorem witness_EveryCommandCompletes :
    startedDecode.Inv ∧ startedDecode.status.busy = true ∧ startedDecode.inputs = [] ∧
      startedDecode.eng.phase = .start :=
  ⟨accepted_inv _ _ (by decide) (by decide), rfl, rfl, rfl⟩

/-- ENCODE.B4 in its RUN steps. -/
def runningEncode : State := { startedEncode with eng := { startedEncode.eng with phase := .run, op := .encode } }

/-- DECODE.B4 in its RUN steps. -/
def runningDecode : State := { startedDecode with eng := { startedDecode.eng with phase := .run, op := .decode } }

theorem runningEncode_inv : runningEncode.Inv where
  memWf := by decide
  memInSpace := by decide
  busyIffRunning := by decide
  notBusyAndDone := by decide
  errIffErrcode := by decide
  raceOnlyWhileBusy := by decide
  running := fun _ => ⟨.encode, .basic4, false, by decide⟩
  tableBuilt := fun h => absurd h (by decide)
  beforeKept := fun _ _ _ _ _ => rfl

theorem runningDecode_inv : runningDecode.Inv where
  memWf := by decide
  memInSpace := by decide
  busyIffRunning := by decide
  notBusyAndDone := by decide
  errIffErrcode := by decide
  raceOnlyWhileBusy := by decide
  running := fun _ => ⟨.decode, .basic4, false, by decide⟩
  tableBuilt := fun h => absurd h (by decide)
  beforeKept := fun _ _ _ _ _ => rfl

theorem witness_EveryStepKeepsTheInvariant : runningEncode.Inv ∧ ∃ t, step runningEncode = .next t :=
  ⟨runningEncode_inv, _, rfl⟩

/-- A START step, an ENCODE RUN step and a DECODE RUN step. -/
theorem witness_EngineWritesOnlyItsBlock :
    (startedEncode.Inv ∧ startedEncode.eng.phase ≠ .run ∧ ∃ t, engineStep startedEncode t) ∧
    (runningEncode.Inv ∧ runningEncode.eng.phase = .run ∧ runningEncode.eng.op = .encode ∧
      ∃ t, engineStep runningEncode t) ∧
    (runningDecode.Inv ∧ runningDecode.eng.phase = .run ∧ runningDecode.eng.op = .decode ∧
      ∃ t, engineStep runningDecode t) :=
  ⟨⟨accepted_inv _ _ (by decide) (by decide), by decide, _, rfl, rfl⟩,
    ⟨runningEncode_inv, rfl, rfl, _, rfl, rfl⟩, ⟨runningDecode_inv, rfl, rfl, _, rfl, rfl⟩⟩

/-- A step that writes a block, and a step that completes. -/
theorem witness_BlockStepsAreAtomic :
    runningDecode.Inv ∧ runningDecode.eng.phase = .run ∧ (∃ t, engineStep runningDecode t ∧ t.eng.phase = .run) ∧
      ∃ t, engineStep (encoding 0x01 .basic4 [] 5) t ∧ t.eng.phase = .idle :=
  ⟨runningDecode_inv, rfl, ⟨_, ⟨rfl, rfl⟩, by decide⟩, ⟨_, ⟨rfl, rfl⟩, by decide⟩⟩

theorem witness_OperandsAreFixedWhileBusy :
    let s := { started 0x01 with inputs := [.regWrite .word 0x0C 9] }
    s.status.busy = true ∧ (∀ rest, s.inputs ≠ .reset :: rest) ∧ ∃ t, step s = .next t :=
  ⟨rfl, fun _ => by simp, _, rfl⟩

/-- A TABLE_INIT step changes the table, a CLASSIFY step CLASS_OUT, a DECODE's last step RESULT. -/
theorem witness_ResultRegistersHaveOneWriter :
    (startedDecode.Inv ∧ (∀ rest, startedDecode.inputs ≠ .reset :: rest) ∧ ∃ t, step startedDecode = .next t) ∧
    observe (step (started 0x04)) (fun t => decide (t.table = (started 0x04).table)) = some false ∧
    observe (step { started 0x03 with classIn := 0x100 }) (fun t => t.classOut) = some 1 ∧
    observe (step { decoding 0x02 .basic4 false [0xFF] 1 with result := 7 }) (fun t => t.result) = some 0 :=
  ⟨⟨accepted_inv _ _ (by decide) (by decide), fun _ => by simp [startedDecode, accepted, started, State.reset], _, rfl⟩,
    by decide +kernel, by decide, by decide⟩

/-- The last word of `Mem`. -/
theorem witness_HostMemoryAccessWhileIdle :
    State.reset.status.busy = false ∧ Memory.wf State.reset.mem = true ∧
      0xFFFFFFFC + AccessSize.word.bytes ≤ 2 ^ 32 := by decide

/-- The last byte of VB for an ENCODE, the first byte of BB for a DECODE. -/
theorem witness_RacedByteReadsOldOrNew :
    ((.encodeB4, .encode, .basic4, false) ∈ codecRows ∧ startedEncode.Inv ∧ startedEncode.race = [] ∧
      startedEncode.status.busy = true ∧ decodeCmd startedEncode.eng.w = .encodeB4 ∧ 0x100F < 2 ^ 32 ∧
      startedEncode.inVB 0x100F = true ∧ startedEncode.inBB 0x100F = false) ∧
    ((.decodeB4, .decode, .basic4, false) ∈ codecRows ∧ startedDecode.Inv ∧ startedDecode.race = [] ∧
      startedDecode.status.busy = true ∧ decodeCmd startedDecode.eng.w = .decodeB4 ∧ 0x2000 < 2 ^ 32 ∧
      startedDecode.inBB 0x2000 = true ∧ startedDecode.inVB 0x2000 = false) :=
  ⟨⟨by decide, accepted_inv _ _ (by decide) (by decide), rfl, rfl, by decide, by decide, by decide, by decide⟩,
    ⟨by decide, accepted_inv _ _ (by decide) (by decide), rfl, rfl, by decide, by decide, by decide, by decide⟩⟩

/-- Reset of an idle block, of an accepted ENCODE, and in the middle of an ENCODE and of a DECODE. -/
theorem witness_ResetInputResetsTheBlock :
    ({ State.reset with inputs := [.reset] } : State).inputs = [.reset] ∧ State.reset.status.busy = false ∧
      (startedEncode.Inv ∧ startedEncode.status.busy = true) ∧ (runningEncode.Inv ∧ runningEncode.status.busy = true) ∧
      (runningDecode.Inv ∧ runningDecode.status.busy = true) :=
  ⟨rfl, rfl, ⟨accepted_inv _ _ (by decide) (by decide), rfl⟩, ⟨runningEncode_inv, rfl⟩, ⟨runningDecode_inv, rfl⟩⟩

/-- ENCODE.B4 of no values into 16 bytes that hold 0xEE, accepted. -/
def startedEmpty : State :=
  { accepted 0x01 (memBytes [] 0x2000 (List.replicate 16 0xEE)) with valCount := 0, byteCap := 16 }

/-- The last word of `Mem` beside a running ENCODE, and a byte buffer that an ENCODE of no values never writes. -/
theorem witness_HostReadsWhileBusy :
    (runningEncode.Inv ∧ runningEncode.status.busy = true ∧ 0xFFFFFFFC + AccessSize.word.bytes ≤ 2 ^ 32) ∧
    (startedEmpty.Inv ∧ startedEmpty.status.busy = true ∧ startedEmpty.race = [] ∧ startedEmpty.inBB 0x2000 = true ∧
      ∀ draw u, endsIn startedEmpty draw u → ¬writtenAt startedEmpty u 0x2000) := by
  refine ⟨⟨runningEncode_inv, rfl, by decide⟩, ?_, rfl, rfl, by decide, ?_⟩
  · have h := accepted_inv 0x01 (memBytes [] 0x2000 (List.replicate 16 0xEE)) (by decide) (by decide)
    exact ⟨h.memWf, h.memInSpace, h.busyIffRunning, h.notBusyAndDone, h.errIffErrcode, h.raceOnlyWhileBusy,
      fun hr => absurd hr (by decide), h.tableBuilt, fun _ _ _ _ _ => rfl⟩
  · rintro draw u ⟨hi, k, hk, hr⟩ ⟨row, hrow, hcmd, hw⟩
    have hk' : k ≤ 2 := hk
    have hp : u.eng.p = 0 := by
      let s1 : State := { startedEmpty with
        inputs := [], draws := draw + 1,
        eng := { phase := .run, op := .encode, w := 0x01, variant := .basic4, simd := false, i := 0, p := 0 } }
      have he : startedEmpty.startError .encode .basic4 false = .none := by decide
      have h1 : core.step { startedEmpty with inputs := [], draws := draw } = .next s1 :=
        congrArg Host.Outcome.next ((startCodec_cases (State.load .encode .basic4 false
          (State.tick { startedEmpty with inputs := [], draws := draw }))).resolve_left fun h => h.1 he).2
      have h2 : core.step s1 = .next (s1.tick.complete .none) := rfl
      interval_cases k <;> simp only [Host.Core.run, h1, h2] at hr <;> have hu := Host.Outcome.next.inj hr
      · exact Phase.noConfusion ((congrArg (fun t : State => t.eng.phase) hu).trans hi : Phase.start = Phase.idle)
      · exact Phase.noConfusion ((congrArg (fun t : State => t.eng.phase) hu).trans hi : Phase.run = Phase.idle)
      · exact hu ▸ rfl
    have hop : row.2.1 = .encode := by
      revert hrow hcmd
      simp only [codecRows, decodeRows, List.map, List.cons_append, List.nil_append, List.mem_cons, List.not_mem_nil,
        or_false]
      rintro (rfl | rfl | rfl | rfl | rfl | rfl | rfl | rfl | rfl | rfl | rfl | rfl) hcmd <;>
        first | rfl | exact absurd hcmd (by decide)
    rw [if_pos hop, hp] at hw
    exact absurd hw (by decide)

/-- A running command that meets the invariant still does after the host's first race. -/
theorem raced_inv {s : State} (h : s.Inv) (hb : s.status.busy = true) (hr : s.race = []) {a : Nat}
    (ha : a < Config.memSize) (v : Byte) :
    State.Inv { s with mem := Memory.write s.mem a v, race := [(a, v), (a, Memory.read s.mem a)] } := by
  refine ⟨Memory.wf_write h.memWf, Memory.inSpace_write h.memInSpace ha, h.busyIffRunning, h.notBusyAndDone,
    h.errIffErrcode, fun hi => absurd hi (h.busyIffRunning.1 hb), h.running, h.tableBuilt, fun ho b hbuf hn hw => ?_⟩
  have hne : b ≠ a := fun he => by simp [State.racedBytes, he] at hn
  exact (h.beforeKept ho b hbuf (by simp [State.racedBytes, hr]) hw).trans (Memory.read_write_other hne).symm

/-- ENCODE.B4 in its RUN steps, the first byte of BB raced by the host. -/
def racedEncode : State :=
  { runningEncode with
    mem := Memory.write runningEncode.mem 0x2000 0xEE
    race := [(0x2000, 0xEE), (0x2000, Memory.read runningEncode.mem 0x2000)] }

/-- DECODE.B4 in its RUN steps, the last byte of VB raced by the host. -/
def racedDecode : State :=
  { runningDecode with
    mem := Memory.write runningDecode.mem 0x100F 0xEE
    race := [(0x100F, 0xEE), (0x100F, Memory.read runningDecode.mem 0x100F)] }

/-- The first byte of the block of an ENCODE, the last byte of the values of a DECODE, and a host write to the first byte of
BB. -/
theorem witness_RacedWritesKeepEitherByte :
    (racedEncode.Inv ∧ raced racedEncode 0x2000 ∧ racedEncode.eng.phase = .run ∧ racedEncode.eng.op = .encode ∧
      (∃ t, engineStep racedEncode t ∧ t.eng.phase = .run) ∧
      encBlock racedEncode.cfg.ffPolicy racedEncode.eng.variant racedEncode.tick.nextValues =
        .ok ([0xFF, 1, 2, 3, 4], 4) ∧ racedEncode.byteBase.toNat + racedEncode.eng.p + 0 = 0x2000) ∧
    (racedDecode.Inv ∧ raced racedDecode 0x100F ∧ racedDecode.eng.phase = .run ∧ racedDecode.eng.op = .decode ∧
      (∃ t, engineStep racedDecode t ∧ t.eng.phase = .run) ∧
      decBlock racedDecode.eng.variant racedDecode.tick.stream (valuesLeft racedDecode) = .ok ([1, 2, 3, 4], 5) ∧
      ([1, 2, 3, (4 : Word)].flatMap fun v => leBytes v 4)[15]? = some 0 ∧
      racedDecode.valBase.toNat + 4 * racedDecode.eng.i + 15 = 0x100F) ∧
    ((.encodeB4, .encode, .basic4, false) ∈ codecRows ∧ racedEncode.status.busy = true ∧
      decodeCmd racedEncode.eng.w = .encodeB4 ∧ 0x2000 < 2 ^ 32 ∧ racedEncode.inBB 0x2000 = true) := by
  refine ⟨⟨raced_inv runningEncode_inv rfl rfl (by decide) _, ⟨0xEE, by decide⟩, rfl, rfl,
    ⟨_, ⟨rfl, rfl⟩, by decide⟩, by decide +kernel, by decide⟩,
    ⟨raced_inv runningDecode_inv rfl rfl (by decide) _, ⟨0xEE, by decide⟩, rfl, rfl,
      ⟨_, ⟨rfl, rfl⟩, by decide⟩, by decide +kernel, by decide, by decide⟩,
    by decide, rfl, by decide, by decide, by decide⟩

end Sys2Proof.Tests
end

