-- ==== Sys2Proof/Proofs/LittleEndian.lean ====
section
/-! The byte lists of 00_scope.md R10: the bytes of `leBytes` by position and the value of `leValue` as a positional sum. -/

namespace Sys2Proof.Machine

/-- A byte of the word shifted down by one byte is the next byte of the word. -/
theorem extractLsb'_ushiftRight_byte (v : Word) (k : Nat) :
    (v >>> 8).extractLsb' (8 * k) 8 = v.extractLsb' (8 * (k + 1)) 8 := by
  apply BitVec.eq_of_toNat_eq
  simp only [BitVec.extractLsb'_toNat, BitVec.toNat_ushiftRight, ← Nat.shiftRight_add]
  rw [Nat.mul_succ, Nat.add_comm]

theorem getElem?_leBytes (v : Word) (len k : Nat) (h : k < len) :
    (leBytes v len)[k]? = some (v.extractLsb' (8 * k) 8) := by
  induction len generalizing v k with
  | zero => omega
  | succ len ih =>
    cases k with
    | zero => rfl
    | succ k =>
      rw [leBytes, List.getElem?_cons_succ, ih _ _ (by omega), extractLsb'_ushiftRight_byte]

/-- The sum of `B[k] * 2^(8k)` that R10 gives for `le_value(B)`. -/
def byteSum (bytes : List Byte) : Nat :=
  ((List.range bytes.length).map fun k => (bytes.getD k 0).toNat * 2 ^ (8 * k)).sum

theorem byteSum_cons (b : Byte) (bs : List Byte) : byteSum (b :: bs) = b.toNat + 256 * byteSum bs := by
  have shift : ∀ k, ((b :: bs).getD (k + 1) 0).toNat * 2 ^ (8 * (k + 1)) =
      256 * ((bs.getD k 0).toNat * 2 ^ (8 * k)) := fun k => by
    rw [List.getD_cons_succ, Nat.mul_succ, pow_add]; ring
  unfold byteSum
  rw [List.length_cons, List.range_succ_eq_map, List.map_cons, List.map_map, List.sum_cons, ← List.sum_map_mul_left]
  simp only [Function.comp_def, Nat.succ_eq_add_one, shift, List.getD_cons_zero, Nat.mul_zero, pow_zero, Nat.mul_one]

theorem toNat_leValue_eq_byteSum (bytes : List Byte) (h : bytes.length ≤ 4) :
    (leValue bytes).toNat = byteSum bytes := by
  induction bytes with
  | nil => rfl
  | cons b bs ih =>
    have hbs : bs.length ≤ 3 := Nat.le_of_succ_le_succ h
    rw [(toNat_leValue b bs hbs).2, ih (by omega), byteSum_cons]

/-- Settles O17: the bytes by position, the inverse and the positional sum, each by its own lemma. -/
theorem littleEndianPrimitives : Obligations.LittleEndianPrimitives :=
  ⟨fun v len _ => ⟨length_leBytes v len, getElem?_leBytes v len, leValue_leBytes v len⟩, toNat_leValue_eq_byteSum⟩

end Sys2Proof.Machine
end

