-- ==== Sys2Proof/Proofs/EngineMoves.lean ====
section
/-! What one step can do, said once: the entry at the head of the inputs moves the host's side or the engine
(`step_next_cases`), and an engine turn of a state that meets the invariant is one of eight moves (`EngineMove`). -/

namespace Sys2Proof.Machine

open Sys2Proof.Claims

/-! ### What a command word and a header byte select -/

/-- Every command word is an ENCODE or DECODE, CLASSIFY, a TABLE_INIT, or ILLEGAL (R58). -/
theorem decodeCmd_cases (w : Word) :
    (∃ op v b, codecOp (decodeCmd w) = some (op, v, b)) ∨ decodeCmd w = .classify ∨
      (∃ row ∈ tableInitRows, decodeCmd w = row.1) ∨ decodeCmd w = .illegal w := by
  by_cases hw : cmdWordLegal w = true
  · have hmem := (cmdWordLegal_iff w).1 hw
    simp only [legalWords, List.mem_cons, List.not_mem_nil, or_false] at hmem
    rcases hmem with rfl | rfl | rfl | rfl | rfl | rfl | rfl | rfl | rfl | rfl | rfl | rfl | rfl | rfl | rfl | rfl | rfl <;>
      simp [decodeCmd, codecOp, tableInitRows]
  · exact .inr (.inr (.inr (decodeCmd_illegal (by simpa using hw))))

/-- An instruction with a codec operation is a row of R58's ENCODE and DECODE words. -/
theorem exists_codecRow_of_codecOp {i : Instr} {x : EngOp × Variant × Bool} (h : codecOp i = some x) :
    ∃ row ∈ codecRows, i = row.1 := by
  cases i <;> simp_all [codecOp, codecRows, decodeRows]

theorem exec_classify (s : State) : exec .classify s = execClassify s := rfl

theorem exec_illegal (w : Word) (s : State) : exec (.illegal w) s = execIllegal w s := rfl

theorem exec_tableInit {row : Instr × Variant × Nat} (h : row ∈ tableInitRows) (s : State) :
    exec row.1 s = tableInitCommand row.2.1 s := by
  simp only [tableInitRows, List.mem_cons, List.not_mem_nil, or_false] at h
  rcases h with rfl | rfl | rfl | rfl <;> rfl

/-- A header instruction is one DECODE block step with a block function that stays within the bytes and the values left
(R79, R80, R83, R87, R93, R113). -/
theorem exec_decodeHdr (v : Variant) (h : Byte) (s : State) :
    ∃ dec, exec (decodeHdr v h) s = .next (decodeBlock dec s) ∧
      ∀ S rem, 1 ≤ rem → DecodesWithin S rem (dec S rem) := by
  have coded : ∀ v h c cs S rem, 1 ≤ rem → DecodesWithin S rem (s.codedDecoder v h (c :: cs) S rem) :=
    fun v h c cs S _ hr => s.codedDecoder_within v h S (List.cons_ne_nil c cs) hr
  have marked : ∀ S rem, 1 ≤ rem → DecodesWithin S rem (decRawMarked S rem) := fun S rem _ => decRawMarked_within S rem
  have headerless : ∀ h S rem, 1 ≤ rem → DecodesWithin S rem (decRawHeaderless h S rem) :=
    fun h S rem _ => decRawHeaderless_within h S rem
  have malformed : ∀ S rem, 1 ≤ rem → DecodesWithin S rem (decMalformed S rem) := fun S rem _ => decMalformed_within S rem
  cases v <;> simp only [decodeHdr]
  case basic4 =>
    split
    · exact ⟨_, rfl, marked⟩
    · exact ⟨_, rfl, coded _ _ _ _⟩
  case headerlessNib =>
    split
    · exact ⟨_, rfl, headerless _⟩
    · split
      · exact ⟨_, rfl, headerless _⟩
      · split
        · exact ⟨_, rfl, coded _ _ _ _⟩
        · exact ⟨_, rfl, malformed⟩
  case sentinelNib =>
    split
    · exact ⟨_, rfl, marked⟩
    · split
      · exact ⟨_, rfl, coded _ _ _ _⟩
      · exact ⟨_, rfl, malformed⟩
  case tableNib =>
    split
    · exact ⟨_, rfl, marked⟩
    · split
      · exact ⟨_, rfl, coded _ _ _ _⟩
      · exact ⟨_, rfl, malformed⟩

/-! ### The operand registers under the engine -/

theorem operandsKept_complete (s : State) (e : ErrCode) : operandsKept s (s.complete e) :=
  ⟨rfl, rfl, rfl, rfl, rfl, rfl, rfl⟩

theorem operandsKept_startCodec (s : State) : operandsKept s (startCodec s) := by
  rcases startCodec_cases s with ⟨-, h⟩ | ⟨-, h⟩ <;> rw [h]
  · exact operandsKept_complete s _
  · exact ⟨rfl, rfl, rfl, rfl, rfl, rfl, rfl⟩

theorem operandsKept_encodeRun (s : State) : operandsKept s (encodeRun s) := by
  unfold encodeRun
  split
  · exact operandsKept_complete s _
  · split
    · exact operandsKept_complete s _
    · split
      · exact operandsKept_complete s _
      · exact ⟨rfl, rfl, rfl, rfl, rfl, rfl, rfl⟩

theorem operandsKept_decodeBlock (dec : List Byte → Nat → Except ErrCode (List Word × Nat)) (s : State) :
    operandsKept s (decodeBlock dec s) := by
  unfold decodeBlock
  split
  · exact operandsKept_complete s _
  · exact ⟨rfl, rfl, rfl, rfl, rfl, rfl, rfl⟩

theorem operandsKept_decodeRun (s : State) : operandsKept s (decodeRun s) := by
  unfold decodeRun
  split
  · exact operandsKept_complete s _
  · exact operandsKept_decodeBlock _ s

/-- A command keeps the operands when its START step and its RUN step do. -/
theorem runCommand_keepsOperands {start run : State → State} (hstart : ∀ s, operandsKept s (start s))
    (hrun : ∀ s, operandsKept s (run s)) (s : State) : ∃ t, runCommand start run s = .next t ∧ operandsKept s t := by
  unfold runCommand
  split
  · exact ⟨s, rfl, rfl, rfl, rfl, rfl, rfl, rfl, rfl⟩
  · exact ⟨_, rfl, hstart s⟩
  · exact ⟨_, rfl, hrun s⟩

theorem exec_decodeCmd_keepsOperands (w : Word) (s : State) :
    ∃ t, exec (decodeCmd w) s = .next t ∧ operandsKept s t := by
  have same : ∀ s, operandsKept s s := fun s => ⟨rfl, rfl, rfl, rfl, rfl, rfl, rfl⟩
  rcases decodeCmd_cases w with ⟨op, v, b, hc⟩ | hc | ⟨row, hrow, hc⟩ | hc
  · rw [exec_of_codecOp hc]
    split
    · exact runCommand_keepsOperands (fun s => operandsKept_startCodec (s.load _ v false)) operandsKept_encodeRun s
    · exact runCommand_keepsOperands (fun s => operandsKept_startCodec (s.load _ v b)) operandsKept_decodeRun s
  · rw [hc, exec_classify]
    refine runCommand_keepsOperands ?_ same s
    exact fun _ => ⟨rfl, rfl, rfl, rfl, rfl, rfl, rfl⟩
  · rw [hc, exec_tableInit hrow]
    refine runCommand_keepsOperands ?_ same s
    exact fun _ => ⟨rfl, rfl, rfl, rfl, rfl, rfl, rfl⟩
  · rw [hc, exec_illegal]
    refine runCommand_keepsOperands ?_ same s
    exact fun _ => ⟨rfl, rfl, rfl, rfl, rfl, rfl, rfl⟩

/-- From every state an engine turn answers a next state, with the operand registers as they were (R35, R117, R130). -/
theorem engineTurn_keepsOperands (s : State) : ∃ t, engineTurn s = .next t ∧ operandsKept s t := by
  by_cases hi : s.eng.phase = .idle
  · exact ⟨s, engineTurn_idle hi, rfl, rfl, rfl, rfl, rfl, rfl, rfl⟩
  · rw [engineTurn_busy hi]
    cases hd : s.tick.headerDue with
    | false => rw [State.fetch_command hd]; exact exec_decodeCmd_keepsOperands _ s.tick
    | true =>
      rw [State.fetch_header hd]
      obtain ⟨dec, he, -⟩ := exec_decodeHdr s.tick.eng.variant (s.tick.engRead s.tick.byteAddr) s.tick
      exact ⟨_, he, operandsKept_decodeBlock dec s.tick⟩

/-! ### The moves of the engine -/

/-- What one turn of a running engine does to `s`: a START step ends its command at once or goes to RUN, and a RUN step
completes or writes one block that fits (R98 to R100, R102, R109). -/
inductive EngineMove (s : State) : State → Prop
  | illegal : s.eng.phase = .start → EngineMove s (s.loadIllegal.complete .illegalCmd)
  | classify : s.eng.phase = .start → decodeCmd s.eng.w = .classify →
      EngineMove s (State.complete .none { s.load .classify .basic4 false with classOut := classify s.classIn })
  | tableInit (row : Instr × Variant × Nat) : s.eng.phase = .start → row ∈ tableInitRows → decodeCmd s.eng.w = row.1 →
      EngineMove s (State.complete .none
        { s.load .tableInit row.2.1 false with
          table := buildTable row.2.1.group
          status := { s.status with tableG2 := decide (row.2.1.group = 2), tableValid := true } })
  | startFails (op : EngOp) (v : Variant) (b : Bool) (e : ErrCode) : s.eng.phase = .start →
      codecOp (decodeCmd s.eng.w) = some (op, v, b) → EngineMove s ((s.load op v b).complete e)
  | startPasses (op : EngOp) (v : Variant) (b : Bool) : s.eng.phase = .start →
      codecOp (decodeCmd s.eng.w) = some (op, v, b) → s.startError op v (b || v == .tableNib) = .none →
      EngineMove s { s.load op v b with eng := { (s.load op v b).eng with phase := .run } }
  | completes (e : ErrCode) : s.eng.phase = .run → EngineMove s (s.complete e)
  | writesBlock (block : List Byte) (k : Nat) : s.eng.phase = .run → s.eng.op = .encode →
      s.eng.p + block.length ≤ s.byteCap.toNat → s.eng.i + k ≤ s.n → EngineMove s (s.putBlock block k)
  | writesValues (values : List Word) (len : Nat) : s.eng.phase = .run → s.eng.op = .decode →
      s.eng.i + values.length ≤ s.n → s.eng.p + len ≤ s.byteCap.toNat → EngineMove s (s.putValues values len)

theorem engineMove_startCodec {s : State} {op : EngOp} {v : Variant} {b : Bool} (hp : s.eng.phase = .start)
    (hc : codecOp (decodeCmd s.eng.w) = some (op, v, b)) : EngineMove s (startCodec (s.load op v b)) := by
  rcases startCodec_cases (s.load op v b) with ⟨-, h⟩ | ⟨hpass, h⟩ <;> rw [h]
  · exact .startFails op v b _ hp hc
  · exact .startPasses op v b hp hc hpass

theorem engineMove_encodeRun {s : State} (hp : s.eng.phase = .run) (hop : s.eng.op = .encode) (hi : s.eng.i ≤ s.n) :
    EngineMove s (encodeRun s) := by
  rcases encodeRun_cases hi with ⟨-, h⟩ | ⟨-, h | h⟩ | ⟨-, block, k, -, hfit, -, hk, -, h⟩ <;> rw [h]
  · exact .completes _ hp
  · exact .completes _ hp
  · exact .completes _ hp
  · exact .writesBlock block k hp hop hfit hk

theorem engineMove_decodeBlock {s : State} {dec : List Byte → Nat → Except ErrCode (List Word × Nat)}
    (hp : s.eng.phase = .run) (hop : s.eng.op = .decode) (hi : s.eng.i ≤ s.n) (hcap : s.eng.p ≤ s.byteCap.toNat)
    (hd : DecodesWithin s.stream s.rem (dec s.stream s.rem)) : EngineMove s (decodeBlock dec s) := by
  rcases decodeBlock_cases hd hi hcap with ⟨e, -, h⟩ | ⟨values, len, -, -, hv, -, hl, h⟩ <;> rw [h]
  · exact .completes e hp
  · exact .writesValues values len hp hop hv hl

theorem engineMove_decodeRun {s : State} (hp : s.eng.phase = .run) (hop : s.eng.op = .decode) (hi : s.eng.i ≤ s.n)
    (hcap : s.eng.p ≤ s.byteCap.toNat) : EngineMove s (decodeRun s) := by
  unfold decodeRun
  split
  · exact .completes _ hp
  · have hrem : 1 ≤ s.rem := by unfold State.rem; omega
    exact engineMove_decodeBlock hp hop hi hcap (s.blockDecoder_within _ hrem)

/-- The START step of every command word is a move. -/
theorem engineMove_start {s t : State} (hp : s.eng.phase = .start) (ht : exec (decodeCmd s.eng.w) s = .next t) :
    EngineMove s t := by
  rcases decodeCmd_cases s.eng.w with ⟨op, v, b, hc⟩ | hc | ⟨row, hrow, hc⟩ | hc
  · rw [exec_of_codecOp hc] at ht
    rcases codecOp_isCodec hc with ⟨rfl, rfl⟩ | rfl
    · obtain rfl : startCodec (s.load .encode v false) = t := by
        simpa [encodeCommand, runCommand_start hp] using ht
      exact engineMove_startCodec hp hc
    · obtain rfl : startCodec (s.load .decode v b) = t := by simpa [decodeCommand, runCommand_start hp] using ht
      exact engineMove_startCodec hp hc
  · rw [hc, exec_classify, execClassify, runCommand_start hp] at ht
    cases ht
    exact .classify hp hc
  · rw [hc, exec_tableInit hrow, tableInitCommand, runCommand_start hp] at ht
    cases ht
    exact .tableInit row hp hrow hc
  · rw [hc, exec_illegal, execIllegal, runCommand_start hp] at ht
    cases ht
    exact .illegal hp

/-- The RUN step of a consistent ENCODE or DECODE, its command word's or its header's, is a move. -/
theorem engineMove_run {s t : State} (hp : s.eng.phase = .run) (hrun : s.runConsistent)
    (ht : exec s.fetch s = .next t) : EngineMove s t := by
  obtain ⟨op, v, b, hc, hop, -, -, -, hi, hcap⟩ := hrun
  cases hd : s.headerDue with
  | false =>
    rw [State.fetch_command hd, exec_of_codecOp hc] at ht
    rcases codecOp_isCodec hc with ⟨rfl, rfl⟩ | rfl
    · obtain rfl : encodeRun s = t := by simpa [encodeCommand, runCommand_run hp] using ht
      exact engineMove_encodeRun hp hop hi
    · obtain rfl : decodeRun s = t := by simpa [decodeCommand, runCommand_run hp] using ht
      exact engineMove_decodeRun hp hop hi hcap
  | true =>
    obtain ⟨dec, he, hdec⟩ := exec_decodeHdr s.eng.variant (s.engRead s.byteAddr) s
    rw [State.fetch_header hd, he] at ht
    cases ht
    simp only [State.headerDue, Bool.and_eq_true, decide_eq_true_eq] at hd
    obtain ⟨⟨⟨-, hdecode⟩, hlt⟩, -⟩ := hd
    exact engineMove_decodeBlock hp hdecode hi hcap (hdec _ _ (by unfold State.rem; omega))

/-- An engine turn of a state that meets the invariant holds an idle engine, and moves a running one. -/
theorem engineTurn_cases {s t : State} (h : s.Inv) (ht : engineTurn s = .next t) :
    (s.eng.phase = .idle ∧ t = s) ∨ EngineMove s.tick t := by
  cases hp : s.eng.phase with
  | idle =>
    rw [engineTurn_idle hp] at ht
    cases ht
    exact .inl ⟨rfl, rfl⟩
  | start =>
    rw [engineTurn_busy (by simp [hp]), State.fetch_command (State.headerDue_start (s := s.tick) hp)] at ht
    exact .inr (engineMove_start hp ht)
  | run =>
    rw [engineTurn_busy (by simp [hp])] at ht
    exact .inr (engineMove_run hp (h.running hp) ht)

/-! ### The entries of the interleaving -/

theorem State.pop_inputs_self (s : State) : s.pop s.inputs = s := rfl

/-- A step that answers a next state is a turn of the engine, a host read, a register write, a write to `Mem` below 2^32,
or a reset pulse. -/
theorem step_next_cases {s t : State} (h : step s = .next t) :
    (∃ rest, engineTurn (s.pop rest) = .next t) ∨
    (∃ rest d, t = { (s.pop rest).tick with hostData := d }) ∨
    (∃ rest offset v, t = (s.pop rest).tick.writeOffset offset v) ∨
    (∃ rest addr bytes, addr + bytes.length ≤ Config.memSize ∧ t = (s.pop rest).tick.hostWriteBytes addr bytes) ∨
    (∃ rest, s.inputs = .reset :: rest ∧ hostReset (s.pop rest).tick = .next t) := by
  cases hin : s.inputs with
  | nil => exact .inl ⟨s.inputs, by rw [s.pop_inputs_self, ← step_of_no_input hin, h]⟩
  | cons i rest =>
    cases i with
    | engine => exact .inl ⟨rest, by rw [← step_of_engine hin, h]⟩
    | wait =>
      cases hb : s.status.busy with
      | true => exact .inl ⟨s.inputs, by rw [s.pop_inputs_self, ← step_of_wait_busy hin hb, h]⟩
      | false =>
        rw [step_of_wait_done hin hb] at h
        cases h
        exact .inr (.inl ⟨rest, _, rfl⟩)
    | regWrite size addr v =>
      rw [step_of_regWrite hin, hostRegWrite] at h
      split at h
      · cases h
      · cases h
        exact .inr (.inr (.inl ⟨rest, _, v, rfl⟩))
    | regRead size addr =>
      rw [step_of_regRead hin, hostRegRead] at h
      split at h
      · cases h
      · cases h
        exact .inr (.inl ⟨rest, _, rfl⟩)
    | memWrite size addr v =>
      rw [step_of_memWrite hin, hostMemWrite] at h
      split at h
      · cases h
      · rename_i hspace
        cases h
        exact .inr (.inr (.inr (.inl ⟨rest, addr, _, by rw [length_leBytes]; omega, rfl⟩)))
    | memRead size addr =>
      rw [step_of_memRead hin, hostMemRead] at h
      split at h
      · cases h
      · cases h
        exact .inr (.inl ⟨rest, _, rfl⟩)
    | reset =>
      rw [step_of_reset hin] at h
      exact .inr (.inr (.inr (.inr ⟨rest, rfl, h⟩)))

end Sys2Proof.Machine
end

