-- ==== Sys2Proof/Proofs/InvariantKept.lean ====
section
/-! The invariant of the block is kept by every step: by each move of the engine, by each access of the host, and by a
reset pulse, whose look-ahead stays inside `Mem`. -/

namespace Sys2Proof.Machine

open Sys2Proof.Claims

/-! ### What the invariant does not speak of -/

/-- The invariant speaks neither of the pending inputs nor of the draw counter nor of what the host last read. -/
theorem State.Inv.bookkeeping {s : State} (h : s.Inv) (rest : List Input) (d : Word) (k : Nat) :
    State.Inv { s with inputs := rest, hostData := d, draws := k } :=
  ⟨h.memWf, h.memInSpace, h.busyIffRunning, h.notBusyAndDone, h.errIffErrcode, h.raceOnlyWhileBusy, h.running,
    h.tableBuilt, h.beforeKept⟩

theorem State.Inv.pop {s : State} (h : s.Inv) (rest : List Input) : (s.pop rest).Inv := h.bookkeeping rest _ _

theorem State.Inv.tick {s : State} (h : s.Inv) : s.tick.Inv := h.bookkeeping _ _ _

/-- With BUSY = 0 the engine is IDLE (R35). -/
theorem State.Inv.phase_idle {s : State} (h : s.Inv) (hb : s.status.busy = false) : s.eng.phase = .idle := by
  by_contra hp
  simp [h.busyIffRunning.2 hp] at hb

/-! ### The moves of the engine -/

/-- Completion needs of the state only its memory and its table: nothing runs after it (R102). -/
theorem State.Inv.of_complete {s : State} (hwf : Memory.wf s.mem = true) (hin : Memory.inSpace s.mem = true)
    (htable : s.status.tableValid = true → s.table = buildTable (if s.status.tableG2 then 2 else 4)) (e : ErrCode) :
    (s.complete e).Inv where
  memWf := hwf
  memInSpace := hin
  busyIffRunning := by simp [State.complete]
  notBusyAndDone := by simp
  errIffErrcode := by simp
  raceOnlyWhileBusy := fun _ => rfl
  running := by simp [State.complete]
  tableBuilt := htable
  beforeKept := by simp [State.ownsBuffers]

/-- A table just built is the build of the width that TABLE_G2 names (R109). -/
theorem buildTable_group (v : Variant) :
    buildTable v.group = buildTable (if decide (v.group = 2) then 2 else 4) :=
  congrArg buildTable (by cases v <;> rfl)

/-- A START check that passes has both buffers inside `Mem` (R97, R98). -/
theorem State.buffers_inSpace {s : State} {op : EngOp} {v : Variant} {b : Bool} (h : s.startError op v b = .none) :
    s.valBase.toNat + 4 * s.n ≤ Config.memSize ∧ s.byteBase.toNat + s.byteCap.toNat ≤ Config.memSize := by
  have hrange : s.rangeBad = false := by
    unfold State.startError at h
    split at h
    · cases h
    · split at h
      · cases h
      · rename_i hr; simpa using hr
  simp only [State.rangeBad, Bool.or_eq_false_iff, decide_eq_false_iff_not] at hrange
  omega

/-- The START step that passes every check leaves a consistent command at cursors 0, which has written nothing (R98). -/
theorem State.Inv.startPasses {s : State} (h : s.Inv) {op : EngOp} {v : Variant} {b : Bool} (hp : s.eng.phase = .start)
    (hc : codecOp (decodeCmd s.eng.w) = some (op, v, b)) (hpass : s.startError op v (b || v == .tableNib) = .none) :
    State.Inv { s.load op v b with eng := { (s.load op v b).eng with phase := .run } } where
  memWf := h.memWf
  memInSpace := h.memInSpace
  busyIffRunning := ⟨fun _ => by simp, fun _ => h.busyIffRunning.2 (by simp [hp])⟩
  notBusyAndDone := h.notBusyAndDone
  errIffErrcode := h.errIffErrcode
  raceOnlyWhileBusy := by simp
  running := fun _ => ⟨op, v, b, hc, rfl, rfl, rfl, hpass, Nat.zero_le _, Nat.zero_le _⟩
  tableBuilt := h.tableBuilt
  beforeKept := fun ho a hbuf hrace _ => h.beforeKept ho a hbuf hrace (by simp [State.engineWrote, hp])

/-- The state with both cursors set. -/
def State.advance (s : State) (i p : Nat) : State := { s with eng := { s.eng with i := i, p := p } }

/-- The invariant in a RUN step that writes `bs` at `a`, moves the cursors and goes on: the bytes written lie inside `Mem`,
the cursors stay within their buffers, and whatever the step changes or wrote before counts as written after it. -/
theorem State.Inv.writes {s : State} (h : s.Inv) (hp : s.eng.phase = .run) {a i p : Nat} {bs : List Byte}
    (hspace : a + bs.length ≤ Config.memSize) (hi : i ≤ s.n) (hcap : p ≤ s.byteCap.toNat)
    (hwrote : ∀ c, (s.advance i p).engineWrote c = false →
      s.engineWrote c = false ∧ (c < a ∨ a + bs.length ≤ c)) :
    State.Inv { s.advance i p with mem := s.engWriteBytes s.mem a bs, race := s.engRaceBytes a bs } where
  memWf := s.wf_engWriteBytes a bs h.memWf
  memInSpace := s.inSpace_engWriteBytes h.memInSpace hspace
  busyIffRunning := h.busyIffRunning
  notBusyAndDone := h.notBusyAndDone
  errIffErrcode := h.errIffErrcode
  raceOnlyWhileBusy := fun hidle => absurd (hp.symm.trans hidle) (by decide)
  running := fun _ => by
    obtain ⟨op, v, b, hc, hop, hv, hsimd, hpass, -, -⟩ := h.running hp
    exact ⟨op, v, b, hc, hop, hv, hsimd, hpass, hi, hcap⟩
  tableBuilt := h.tableBuilt
  beforeKept := fun ho c hbuf hrace hw => by
    obtain ⟨hw, hout⟩ := hwrote c hw
    exact (h.beforeKept ho c hbuf (State.racedBytes_nil_of_engRaceBytes rfl hrace) hw).trans
      (s.read_engWriteBytes_outside hout).symm

/-- What ENCODE has written at cursor p is BB[0 .. p) (R45). -/
theorem State.engineWrote_encode {s : State} {v : Variant} {b : Bool} (hp : s.eng.phase = .run)
    (hc : codecOp (decodeCmd s.eng.w) = some (.encode, v, b)) (a : Nat) :
    s.engineWrote a = false ↔ a < s.byteBase.toNat ∨ s.byteBase.toNat + s.eng.p ≤ a := by
  simp only [State.engineWrote, hp, hc, decide_true, Bool.true_and, Bool.and_eq_false_iff, decide_eq_false_iff_not]
  omega

/-- What DECODE has written at cursor i is the value words 0 .. i-1 (R45). -/
theorem State.engineWrote_decode {s : State} {v : Variant} {b : Bool} (hp : s.eng.phase = .run)
    (hc : codecOp (decodeCmd s.eng.w) = some (.decode, v, b)) (a : Nat) :
    s.engineWrote a = false ↔ a < s.valBase.toNat ∨ s.valBase.toNat + 4 * s.eng.i ≤ a := by
  simp only [State.engineWrote, hp, hc, decide_true, Bool.true_and, Bool.and_eq_false_iff, decide_eq_false_iff_not]
  omega

theorem State.Inv.putBlock {s : State} (h : s.Inv) (hp : s.eng.phase = .run) (hop : s.eng.op = .encode)
    {block : List Byte} {k : Nat} (hfit : s.eng.p + block.length ≤ s.byteCap.toNat) (hk : s.eng.i + k ≤ s.n) :
    (s.putBlock block k).Inv := by
  obtain ⟨op, v, b, hc, rfl, -, -, hpass, -, -⟩ := h.running hp
  rw [hop] at hc
  have hspace := (State.buffers_inSpace hpass).2
  refine h.writes hp (by unfold State.byteAddr; omega) hk hfit fun c hw => ?_
  rw [State.engineWrote_encode (s := s.advance (s.eng.i + k) (s.eng.p + block.length)) hp hc] at hw
  rw [State.engineWrote_encode hp hc]
  simp only [State.byteAddr, State.advance] at hw ⊢
  omega

theorem State.Inv.putValues {s : State} (h : s.Inv) (hp : s.eng.phase = .run) (hop : s.eng.op = .decode)
    {values : List Word} {len : Nat} (hv : s.eng.i + values.length ≤ s.n) (hl : s.eng.p + len ≤ s.byteCap.toNat) :
    (s.putValues values len).Inv := by
  obtain ⟨op, v, b, hc, rfl, -, -, hpass, -, -⟩ := h.running hp
  rw [hop] at hc
  have hspace := (State.buffers_inSpace hpass).1
  refine h.writes hp (by rw [length_flatMap_leBytes4]; unfold State.valAddr; omega) hv hl fun c hw => ?_
  rw [State.engineWrote_decode (s := s.advance (s.eng.i + values.length) (s.eng.p + len)) hp hc] at hw
  rw [State.engineWrote_decode hp hc, length_flatMap_leBytes4]
  simp only [State.valAddr, State.advance] at hw ⊢
  omega

/-- Every move of the engine keeps the invariant. -/
theorem EngineMove.keepsInv {s t : State} (h : s.Inv) (hm : EngineMove s t) : t.Inv := by
  cases hm with
  | illegal =>
    refine .of_complete ?_ ?_ ?_ _
    exacts [h.memWf, h.memInSpace, h.tableBuilt]
  | classify =>
    refine .of_complete ?_ ?_ ?_ _
    exacts [h.memWf, h.memInSpace, h.tableBuilt]
  | tableInit row =>
    refine .of_complete ?_ ?_ ?_ _
    exacts [h.memWf, h.memInSpace, fun _ => buildTable_group row.2.1]
  | startFails =>
    refine .of_complete ?_ ?_ ?_ _
    exacts [h.memWf, h.memInSpace, h.tableBuilt]
  | startPasses op v b hp hc hpass => exact h.startPasses hp hc hpass
  | completes => exact .of_complete h.memWf h.memInSpace h.tableBuilt _
  | writesBlock block k hp hop hfit hk => exact h.putBlock hp hop hfit hk
  | writesValues values len hp hop hv hl => exact h.putValues hp hop hv hl

theorem engineTurn_keepsInv {s t : State} (h : s.Inv) (ht : engineTurn s = .next t) : t.Inv := by
  rcases engineTurn_cases h ht with ⟨-, rfl⟩ | hm
  · exact h
  · exact hm.keepsInv h.tick

/-! ### The host's accesses -/

/-- The host starts a command only when none runs; what `Mem` then holds is what it held before the command (R96). -/
theorem State.Inv.accept {s : State} (h : s.Inv) (hb : s.status.busy = false) (w : Word) : (s.accept w).Inv := by
  rw [State.accept, if_neg (by simp [hb])]
  exact
    { memWf := h.memWf
      memInSpace := h.memInSpace
      busyIffRunning := by simp
      notBusyAndDone := by simp
      errIffErrcode := by simp
      raceOnlyWhileBusy := fun _ => rfl
      running := by simp
      tableBuilt := h.tableBuilt
      beforeKept := fun _ _ _ _ _ => rfl }

/-- While no command runs, the invariant does not speak of the operand registers. -/
theorem State.Inv.setOperands {s : State} (h : s.Inv) (hb : s.status.busy = false) (vb n bb cap c : Word) (sel : Byte) :
    State.Inv { s with
      valBase := vb, valCount := n, byteBase := bb, byteCap := cap, classIn := c, tblSel := sel } where
  memWf := h.memWf
  memInSpace := h.memInSpace
  busyIffRunning := h.busyIffRunning
  notBusyAndDone := h.notBusyAndDone
  errIffErrcode := h.errIffErrcode
  raceOnlyWhileBusy := h.raceOnlyWhileBusy
  running := fun hp => absurd ((h.phase_idle hb).symm.trans hp) (by decide)
  tableBuilt := h.tableBuilt
  beforeKept := fun ho => by simp [State.ownsBuffers, hb] at ho

theorem State.Inv.storeReg {s : State} (h : s.Inv) (hb : s.status.busy = false) (v : Word) (r : Reg) :
    (s.storeReg v r).Inv := by
  cases r with
  | cmd => exact h.accept hb v
  | valBase => exact h.setOperands hb v _ _ _ _ _
  | valCount => exact h.setOperands hb _ v _ _ _ _
  | byteBase => exact h.setOperands hb _ _ v _ _ _
  | byteCap => exact h.setOperands hb _ _ _ v _ _
  | classIn => exact h.setOperands hb _ _ _ _ v _
  | tblSel => exact h.setOperands hb _ _ _ _ _ _
  | _ => exact h

theorem State.Inv.writeOffset {s : State} (h : s.Inv) (offset : Nat) (v : Word) : (s.writeOffset offset v).Inv := by
  rcases s.writeOffset_cases offset v with hw | ⟨hb, r, -, hw⟩ <;> rw [hw]
  · exact h
  · exact h.storeReg hb v r

/-- A byte that the host writes is either in no buffer of the running command or on record as raced, so `beforeKept` says
nothing of it (R51). -/
theorem State.Inv.hostWriteByte {s : State} (h : s.Inv) {a : Nat} (ha : a < Config.memSize) (v : Byte) :
    (s.hostWriteByte a v).Inv := by
  rcases s.hostWriteByte_cases a v with ⟨hout, hw⟩ | ⟨hin, w, -, hw⟩ <;> rw [hw]
  · refine ⟨Memory.wf_write h.memWf, Memory.inSpace_write h.memInSpace ha, h.busyIffRunning, h.notBusyAndDone,
      h.errIffErrcode, h.raceOnlyWhileBusy, h.running, h.tableBuilt, fun ho c hbuf hrace hwrote => ?_⟩
    have hne : c ≠ a := by
      rintro rfl
      exact absurd (hout.symm.trans (Bool.and_eq_true_iff.2 ⟨ho, hbuf⟩)) (by decide)
    exact (h.beforeKept ho c hbuf hrace hwrote).trans (Memory.read_write_other hne).symm
  · have hbusy : s.status.busy = true := by
      simp only [State.ownsBuffers, Bool.and_eq_true] at hin
      exact hin.1.1
    refine ⟨Memory.wf_write h.memWf, Memory.inSpace_write h.memInSpace ha, h.busyIffRunning, h.notBusyAndDone,
      h.errIffErrcode, fun hidle => absurd hidle (h.busyIffRunning.1 hbusy), h.running, h.tableBuilt,
      fun ho c hbuf hrace hwrote => ?_⟩
    have hne : c ≠ a := by
      rintro rfl
      simp [State.racedBytes] at hrace
    have hrace' : s.racedBytes c = [] := by simpa [State.racedBytes, hne.symm] using hrace
    exact (h.beforeKept ho c hbuf hrace' hwrote).trans (Memory.read_write_other hne).symm

theorem State.Inv.hostWriteBytes {s : State} (h : s.Inv) {a : Nat} {bs : List Byte}
    (ha : a + bs.length ≤ Config.memSize) : (s.hostWriteBytes a bs).Inv := by
  induction bs generalizing s a with
  | nil => exact h
  | cons b bs ih =>
    rw [List.length_cons] at ha
    exact ih (h.hostWriteByte (by omega) b) (by omega)

/-! ### The reset pulse -/

/-- The bytes up to both cursors lie inside `Mem`. -/
def State.cursorsInSpace (s : State) : Prop :=
  s.valBase.toNat + 4 * s.eng.i ≤ Config.memSize ∧ s.byteBase.toNat + s.eng.p ≤ Config.memSize

theorem State.runConsistent.cursorsInSpace {s : State} (h : s.runConsistent) : s.cursorsInSpace := by
  obtain ⟨op, v, b, -, -, -, -, hpass, hi, hp⟩ := h
  have hspace := State.buffers_inSpace hpass
  unfold State.cursorsInSpace
  omega

theorem State.cursorsInSpace_zero {s : State} (hi : s.eng.i = 0) (hp : s.eng.p = 0) : s.cursorsInSpace := by
  have hv := s.valBase.isLt
  have hb := s.byteBase.isLt
  unfold State.cursorsInSpace Config.memSize
  omega

/-- A move leaves the START phase, at cursors whose bytes lie inside `Mem`. -/
theorem EngineMove.cursorsInSpace {s t : State} (h : s.Inv) (hm : EngineMove s t) :
    t.eng.phase ≠ .start ∧ t.cursorsInSpace := by
  cases hm with
  | illegal => exact ⟨by simp [State.complete], State.cursorsInSpace_zero rfl rfl⟩
  | classify => exact ⟨by simp [State.complete], State.cursorsInSpace_zero rfl rfl⟩
  | tableInit => exact ⟨by simp [State.complete], State.cursorsInSpace_zero rfl rfl⟩
  | startFails => exact ⟨by simp [State.complete], State.cursorsInSpace_zero rfl rfl⟩
  | startPasses => exact ⟨by simp, State.cursorsInSpace_zero rfl rfl⟩
  | completes e hp => exact ⟨by simp [State.complete], (h.running hp).cursorsInSpace⟩
  | writesBlock block k hp hop hfit hk =>
    exact ⟨by simp [State.putBlock, hp], ((h.putBlock hp hop hfit hk).running hp).cursorsInSpace⟩
  | writesValues values len hp hop hv hl =>
    exact ⟨by simp [State.putValues, hp], ((h.putValues hp hop hv hl).running hp).cursorsInSpace⟩

/-- A command of `s` past its START step: the invariant holds, and both cursors lie inside `Mem` from the bases of `s`. -/
def State.underway (s u : State) : Prop :=
  u.Inv ∧ u.eng.phase ≠ .start ∧ u.cursorsInSpace ∧ operandsKept s u

theorem engineTurn_underway {s t : State} (h : s.Inv) (hp : s.eng.phase ≠ .idle) (ht : engineTurn s = .next t) :
    s.underway t := by
  obtain ⟨t', ht', hops⟩ := engineTurn_keepsOperands s
  obtain rfl : t' = t := by rw [ht'] at ht; cases ht; rfl
  rcases engineTurn_cases h ht with ⟨hidle, -⟩ | hm
  · exact absurd hidle hp
  · obtain ⟨hstart, hcur⟩ := hm.cursorsInSpace h.tick
    exact ⟨hm.keepsInv h.tick, hstart, hcur, hops⟩

theorem operandsKept_trans {s t u : State} (h : operandsKept s t) (h' : operandsKept t u) : operandsKept s u := by
  unfold operandsKept at *
  simp_all

theorem State.underway.turn {s u t : State} (h : s.underway u) (ht : engineTurn u = .next t) : s.underway t := by
  obtain ⟨hinv, hstart, hcur, hops⟩ := h
  by_cases hp : u.eng.phase = .idle
  · rw [engineTurn_idle hp] at ht
    cases ht
    exact ⟨hinv, hstart, hcur, hops⟩
  · obtain ⟨hinv', hstart', hcur', hops'⟩ := engineTurn_underway hinv hp ht
    exact ⟨hinv', hstart', hcur', operandsKept_trans hops hops'⟩

/-- Where a running command ends if the host does nothing more, its cursors lie inside `Mem`: the first turn leaves START,
and every turn after it keeps them there. -/
theorem State.outlook_underway {s : State} (h : s.Inv) (hb : s.status.busy = true) (draw : Nat) :
    s.underway (s.outlook draw) := by
  have hp := h.busyIffRunning.1 hb
  obtain ⟨t, ht, -⟩ := engineTurn_keepsOperands { s with inputs := [], draws := draw }
  have hfirst : s.underway t := 
    engineTurn_underway (s := { s with inputs := [], draws := draw }) (h.bookkeeping [] s.hostData draw) hp ht
  rw [State.outlook, State.runOn, if_neg hp, ht]
  exact State.runOn_keeps (fun _ _ => State.underway.turn) _ hfirst

/-- The bytes a reset leaves open lie inside `Mem`. -/
theorem State.couldWrite_inSpace {s : State} (h : s.Inv) : s.couldWrite.1 + s.couldWrite.2 ≤ Config.memSize := by
  rcases s.couldWrite_cases with hw | ⟨hb, op, v, b, -, hw⟩
  · simp [hw]
  · obtain ⟨-, -, ⟨hval, hbyte⟩, -, hvb, -, hbb, -⟩ := s.outlook_underway h hb (Config.freeRun s.draws 0)
    rw [hvb] at hval
    rw [hbb] at hbyte
    rcases hw with ⟨-, hw⟩ | ⟨-, hw⟩ <;> rw [hw]
    · exact hbyte
    · exact hval

/-- After a reset pulse nothing runs and no table is valid (R131). -/
theorem hostReset_keepsInv {s t : State} (h : s.Inv) (ht : hostReset s = .next t) : t.Inv := by
  cases ht
  exact
    { memWf := Memory.wf_scramble _ _ _ h.memWf
      memInSpace := Memory.inSpace_scramble _ h.memInSpace (State.couldWrite_inSpace h)
      busyIffRunning := by simp [State.reset, Status.atReset, Engine.atReset]
      notBusyAndDone := by simp [State.reset, Status.atReset]
      errIffErrcode := by simp [State.reset, Status.atReset]
      raceOnlyWhileBusy := fun _ => rfl
      running := by simp [State.reset, Engine.atReset]
      tableBuilt := by simp [State.reset, Status.atReset]
      beforeKept := by simp [State.ownsBuffers, State.reset, Status.atReset] }

/-! ### Every step -/

/-- Settles O46: every way a step can answer a next state keeps the invariant. -/
theorem everyStepKeepsTheInvariant : Obligations.EveryStepKeepsTheInvariant := by
  intro s t h ht
  rcases step_next_cases ht with ⟨rest, hturn⟩ | ⟨rest, d, rfl⟩ | ⟨rest, offset, v, rfl⟩ |
    ⟨rest, addr, bytes, hspace, rfl⟩ | ⟨rest, -, hreset⟩
  · exact engineTurn_keepsInv (h.pop rest) hturn
  · exact (h.pop rest).bookkeeping rest d _
  · exact (h.pop rest).tick.writeOffset offset v
  · exact (h.pop rest).tick.hostWriteBytes hspace
  · exact hostReset_keepsInv (h.pop rest).tick hreset

end Sys2Proof.Machine
end

