-- ==== Sys2Proof/Proofs/HostAndEngineRights.lean ====
section
/-! Which accesses stop the machine, and which registers a step may change: the host's operands stand while a command runs,
and each result register has one command that writes it. -/

namespace Sys2Proof.Machine

open Sys2Proof.Claims

/-! ### What stops -/

/-- A register access that the window refuses is outside it, narrow, or misaligned (R17, R18 item 1). -/
theorem State.windowOffset_error {s : State} {size : AccessSize} {addr : Nat} {r : Refusal}
    (h : s.windowOffset size addr = .error r) :
    size ≠ .word ∨ addr < s.cfg.regBase ∨ s.cfg.regBase + 0x100 ≤ addr ∨ (addr - s.cfg.regBase) % 4 ≠ 0 := by
  unfold State.windowOffset Config.windowSize at h
  split at h
  · rename_i hout; exact .inr (hout.imp id .inl)
  · split at h
    · rename_i hbad; exact hbad.imp id fun hal => .inr (.inr hal)
    · cases h

theorem hostRegWrite_cases (size : AccessSize) (addr : Nat) (v : Word) (s : State) :
    (∃ r, s.windowOffset size addr = .error r ∧ hostRegWrite size addr v s = .refused r) ∨
      ∃ t, hostRegWrite size addr v s = .next t := by
  unfold hostRegWrite
  split
  · rename_i r h; exact .inl ⟨r, h, rfl⟩
  · exact .inr ⟨_, rfl⟩

theorem hostRegRead_cases (size : AccessSize) (addr : Nat) (s : State) :
    (∃ r, s.windowOffset size addr = .error r ∧ hostRegRead size addr s = .refused r) ∨
      ∃ t, hostRegRead size addr s = .next t := by
  unfold hostRegRead
  split
  · rename_i r h; exact .inl ⟨r, h, rfl⟩
  · exact .inr ⟨_, rfl⟩

theorem hostMemWrite_cases (size : AccessSize) (addr : Nat) (v : Word) (s : State) :
    (2 ^ 32 < addr + size.bytes ∧ hostMemWrite size addr v s = .fault .outsideMem) ∨
      ∃ t, hostMemWrite size addr v s = .next t := by
  unfold hostMemWrite
  split
  · rename_i h; exact .inl ⟨h, rfl⟩
  · exact .inr ⟨_, rfl⟩

theorem hostMemRead_cases (size : AccessSize) (addr : Nat) (s : State) :
    (2 ^ 32 < addr + size.bytes ∧ hostMemRead size addr s = .fault .outsideMem) ∨
      ∃ t, hostMemRead size addr s = .next t := by
  unfold hostMemRead
  split
  · rename_i h; exact .inl ⟨h, rfl⟩
  · exact .inr ⟨_, rfl⟩

/-- A step answers a next state, or it is a register access that is not admitted, or an access to `Mem` past its top. -/
theorem step_stops_cases (s : State) :
    (∃ t, step s = .next t) ∨
    (∃ r size addr v rest, step s = .refused r ∧
      (s.inputs = .regWrite size addr v :: rest ∨ s.inputs = .regRead size addr :: rest) ∧
      (size ≠ .word ∨ addr < s.cfg.regBase ∨ s.cfg.regBase + 0x100 ≤ addr ∨ (addr - s.cfg.regBase) % 4 ≠ 0)) ∨
    (∃ f size addr v rest, step s = .fault f ∧
      (s.inputs = .memWrite size addr v :: rest ∨ s.inputs = .memRead size addr :: rest) ∧
      2 ^ 32 < addr + size.bytes) := by
  have turn : ∀ u, ∃ t, engineTurn u = .next t := fun u => (engineTurn_keepsOperands u).imp fun _ h => h.1
  cases hin : s.inputs with
  | nil => rw [step_of_no_input hin]; exact .inl (turn s)
  | cons i rest =>
    cases i with
    | engine => rw [step_of_engine hin]; exact .inl (turn _)
    | wait =>
      cases hb : s.status.busy with
      | true => rw [step_of_wait_busy hin hb]; exact .inl (turn s)
      | false => rw [step_of_wait_done hin hb]; exact .inl ⟨_, rfl⟩
    | regWrite size addr v =>
      rw [step_of_regWrite hin]
      rcases hostRegWrite_cases size addr v (s.pop rest).tick with ⟨r, hr, h⟩ | h
      · exact .inr (.inl ⟨r, size, addr, v, rest, h, .inl rfl, State.windowOffset_error hr⟩)
      · exact .inl h
    | regRead size addr =>
      rw [step_of_regRead hin]
      rcases hostRegRead_cases size addr (s.pop rest).tick with ⟨r, hr, h⟩ | h
      · exact .inr (.inl ⟨r, size, addr, 0, rest, h, .inr rfl, State.windowOffset_error hr⟩)
      · exact .inl h
    | memWrite size addr v =>
      rw [step_of_memWrite hin]
      rcases hostMemWrite_cases size addr v (s.pop rest).tick with ⟨hlt, h⟩ | h
      · exact .inr (.inr ⟨_, size, addr, v, rest, h, .inl rfl, hlt⟩)
      · exact .inl h
    | memRead size addr =>
      rw [step_of_memRead hin]
      rcases hostMemRead_cases size addr (s.pop rest).tick with ⟨hlt, h⟩ | h
      · exact .inr (.inr ⟨_, size, addr, 0, rest, h, .inr rfl, hlt⟩)
      · exact .inl h
    | reset => rw [step_of_reset hin]; exact .inl ⟨_, rfl⟩

/-- Settles O10: the engine and the reset always answer, and each kind of host access stops in one way only. -/
theorem stepStopsOnlyOnBadHostAccess : Obligations.StepStopsOnlyOnBadHostAccess := by
  intro s
  rcases step_stops_cases s with ⟨t, h⟩ | ⟨r, size, addr, v, rest, h, haccess⟩ | ⟨f, size, addr, v, rest, h, haccess⟩
  · exact ⟨fun r hr => by simp [h] at hr, fun f hf => by simp [h] at hf⟩
  · exact ⟨fun _ _ => ⟨size, addr, v, rest, haccess⟩, fun f hf => by simp [h] at hf⟩
  · exact ⟨fun r hr => by simp [h] at hr, fun _ _ => ⟨size, addr, v, rest, haccess⟩⟩

/-! ### The operands of a running command -/

theorem operandsKept_hostWriteBytes (s : State) (a : Nat) (bs : List Byte) :
    operandsKept s (s.hostWriteBytes a bs) := by
  rw [s.hostWriteBytes_frame]
  exact ⟨rfl, rfl, rfl, rfl, rfl, rfl, rfl⟩

/-- Settles O50: the engine keeps the operands, a register write has no effect while BUSY = 1, and the host's other
accesses touch no register. -/
theorem operandsAreFixedWhileBusy : Obligations.OperandsAreFixedWhileBusy := by
  intro s t hb hreset ht
  rcases step_next_cases ht with ⟨rest, hturn⟩ | ⟨rest, d, rfl⟩ | ⟨rest, offset, v, rfl⟩ |
    ⟨rest, addr, bytes, -, rfl⟩ | ⟨rest, hin, -⟩
  · obtain ⟨t', ht', hops⟩ := engineTurn_keepsOperands (s.pop rest)
    obtain rfl : t' = t := by rw [ht'] at hturn; cases hturn; rfl
    exact hops
  · exact ⟨rfl, rfl, rfl, rfl, rfl, rfl, rfl⟩
  · rw [State.writeOffset_busy (s := (s.pop rest).tick) hb]
    exact ⟨rfl, rfl, rfl, rfl, rfl, rfl, rfl⟩
  · exact operandsKept_hostWriteBytes (s.pop rest).tick addr bytes
  · exact absurd hin (hreset rest)

/-! ### The writers of the result registers -/

/-- From `s` to `t` the table, CLASS_OUT, RESULT and VDONE are changed by their own commands only. -/
def onlyOwnWriters (s t : State) : Prop :=
  (t.table ≠ s.table → s.eng.phase = .start ∧ ∃ row ∈ tableInitRows, decodeCmd s.eng.w = row.1) ∧
    (t.classOut ≠ s.classOut → s.eng.phase = .start ∧ decodeCmd s.eng.w = .classify) ∧
    ((t.result ≠ s.result ∨ t.vdone ≠ s.vdone) →
      s.eng.phase ≠ .idle ∧ ∃ row ∈ codecRows, decodeCmd s.eng.w = row.1)

theorem onlyOwnWriters_of_eq {s t : State} (htable : t.table = s.table) (hclass : t.classOut = s.classOut)
    (hresult : t.result = s.result) (hvdone : t.vdone = s.vdone) : onlyOwnWriters s t :=
  ⟨fun h => absurd htable h, fun h => absurd hclass h, fun h => h.elim (absurd hresult) (absurd hvdone)⟩

/-- A running ENCODE or DECODE may change RESULT and VDONE. -/
theorem onlyOwnWriters_of_codec {s t : State} {x : EngOp × Variant × Bool} (hp : s.eng.phase ≠ .idle)
    (hc : codecOp (decodeCmd s.eng.w) = some x) (htable : t.table = s.table) (hclass : t.classOut = s.classOut) :
    onlyOwnWriters s t :=
  ⟨fun h => absurd htable h, fun h => absurd hclass h, fun _ => ⟨hp, exists_codecRow_of_codecOp hc⟩⟩

theorem EngineMove.onlyOwnWriters {s t : State} (h : s.Inv) (hm : EngineMove s t) : onlyOwnWriters s t := by
  cases hm with
  | illegal => exact onlyOwnWriters_of_eq rfl rfl rfl rfl
  | classify hp hc =>
    exact ⟨fun ht => absurd rfl ht, fun _ => ⟨hp, hc⟩, fun ht => ht.elim (absurd rfl) (absurd rfl)⟩
  | tableInit row hp hrow hc =>
    exact ⟨fun _ => ⟨hp, row, hrow, hc⟩, fun ht => absurd rfl ht, fun ht => ht.elim (absurd rfl) (absurd rfl)⟩
  | startFails op v b e hp hc => exact onlyOwnWriters_of_codec (by simp [hp]) hc rfl rfl
  | startPasses => exact onlyOwnWriters_of_eq rfl rfl rfl rfl
  | completes e hp =>
    obtain ⟨op, v, b, hc, -⟩ := h.running hp
    exact onlyOwnWriters_of_codec (by simp [hp]) hc rfl rfl
  | writesBlock => exact onlyOwnWriters_of_eq rfl rfl rfl rfl
  | writesValues => exact onlyOwnWriters_of_eq rfl rfl rfl rfl

theorem State.storeReg_onlyOwnWriters (s : State) (v : Word) (r : Reg) : onlyOwnWriters s (s.storeReg v r) := by
  cases r with
  | cmd =>
    simp only [State.storeReg, State.accept]
    split <;> exact onlyOwnWriters_of_eq rfl rfl rfl rfl
  | _ => exact onlyOwnWriters_of_eq rfl rfl rfl rfl

/-- Settles O51: the moves of the engine write results by their own commands, and no host access writes any. -/
theorem resultRegistersHaveOneWriter : Obligations.ResultRegistersHaveOneWriter := by
  intro s t h hreset ht
  rcases step_next_cases ht with ⟨rest, hturn⟩ | ⟨rest, d, rfl⟩ | ⟨rest, offset, v, rfl⟩ |
    ⟨rest, addr, bytes, -, rfl⟩ | ⟨rest, hin, -⟩
  · rcases engineTurn_cases (h.pop rest) hturn with ⟨-, rfl⟩ | hm
    · exact onlyOwnWriters_of_eq rfl rfl rfl rfl
    · have hw : onlyOwnWriters (s.pop rest).tick t := hm.onlyOwnWriters (h.pop rest).tick
      exact hw
  · exact onlyOwnWriters_of_eq rfl rfl rfl rfl
  · rcases (s.pop rest).tick.writeOffset_cases offset v with hw | ⟨-, r, -, hw⟩ <;> rw [hw]
    · exact onlyOwnWriters_of_eq rfl rfl rfl rfl
    · exact (s.pop rest).tick.storeReg_onlyOwnWriters v r
  · rw [State.hostWriteBytes_frame]
    exact onlyOwnWriters_of_eq rfl rfl rfl rfl
  · exact absurd hin (hreset rest)

end Sys2Proof.Machine
end

