-- ==== Sys2Proof/Proofs/RegisterWindow.lean ====
section
/-! The register window: which offset is which register, what a read returns and a write does, and the images of STATUS and
of the table's readback registers (10_state.md R17 to R32). -/

namespace Sys2Proof.Machine

open Sys2Proof.Claims

/-! ### Accesses at an offset -/

theorem State.windowOffset_of_aligned (s : State) {o : Nat} (ho : o < 0x100) (hal : o % 4 = 0) :
    s.windowOffset .word (s.cfg.regBase + o) = .ok o := by
  unfold State.windowOffset Config.windowSize
  rw [if_neg (by omega), Nat.add_sub_cancel_left, if_neg (by simp [hal])]

theorem State.windowOffset_not_admitted (s : State) {size : AccessSize} {addr : Nat} (hlo : s.cfg.regBase ≤ addr)
    (hhi : addr < s.cfg.regBase + 0x100) (hbad : size ≠ .word ∨ (addr - s.cfg.regBase) % 4 ≠ 0) :
    s.windowOffset size addr = .error .accessNotAdmitted := by
  unfold State.windowOffset Config.windowSize
  rw [if_neg (by omega), if_pos hbad]

theorem hostRegWrite_aligned (s : State) (v : Word) {o : Nat} (ho : o < 0x100) (hal : o % 4 = 0) :
    hostRegWrite .word (s.cfg.regBase + o) v s = .next (s.writeOffset o v) := by
  rw [hostRegWrite, s.windowOffset_of_aligned ho hal]

theorem hostRegRead_aligned (s : State) {o : Nat} (ho : o < 0x100) (hal : o % 4 = 0) :
    hostRegRead .word (s.cfg.regBase + o) s = .next { s with hostData := s.readOffset o } := by
  rw [hostRegRead, s.windowOffset_of_aligned ho hal]

theorem step_regWrite_aligned (s : State) (rest : List Input) (v : Word) {o : Nat} (ho : o < 0x100) (hal : o % 4 = 0) :
    step { s with inputs := .regWrite .word (s.cfg.regBase + o) v :: rest } = .next ((after s rest).writeOffset o v) :=
  hostRegWrite_aligned (after s rest) v ho hal

theorem step_regRead_aligned (s : State) (rest : List Input) {o : Nat} (ho : o < 0x100) (hal : o % 4 = 0) :
    step { s with inputs := .regRead .word (s.cfg.regBase + o) :: rest } =
      .next { after s rest with hostData := s.readOffset o } :=
  hostRegRead_aligned (after s rest) ho hal

theorem step_regAccess_not_admitted (s : State) (rest : List Input) (v : Word) {size : AccessSize} {addr : Nat}
    (hlo : s.cfg.regBase ≤ addr) (hhi : addr < s.cfg.regBase + 0x100)
    (hbad : size ≠ .word ∨ (addr - s.cfg.regBase) % 4 ≠ 0) :
    step { s with inputs := .regWrite size addr v :: rest } = .refused .accessNotAdmitted ∧
      step { s with inputs := .regRead size addr :: rest } = .refused .accessNotAdmitted := by
  have hw : (after s rest).windowOffset size addr = .error .accessNotAdmitted :=
    (after s rest).windowOffset_not_admitted hlo hhi hbad
  have hwrite : hostRegWrite size addr v (after s rest) = .refused .accessNotAdmitted := by rw [hostRegWrite, hw]
  have hread : hostRegRead size addr (after s rest) = .refused .accessNotAdmitted := by rw [hostRegRead, hw]
  exact ⟨hwrite, hread⟩

/-! ### The register map -/

theorem Reg.offset_lt (r : Reg) : r.offset < 0x48 := by cases r <;> decide

theorem Reg.offset_aligned (r : Reg) : r.offset % 4 = 0 := by cases r <;> rfl

/-- No register lies at a reserved offset (R17). -/
theorem Reg.at_reserved {o : Nat} (ho : 0x48 ≤ o) : Reg.at o = none := by
  refine List.find?_eq_none.2 fun r _ heq => ?_
  have hlt := r.offset_lt
  rw [beq_iff_eq] at heq
  omega

theorem State.readOffset_offset (s : State) (r : Reg) : s.readOffset r.offset = s.readReg r := by
  rw [State.readOffset, Reg.at_offset]

theorem State.readOffset_reserved (s : State) {o : Nat} (ho : 0x48 ≤ o) : s.readOffset o = 0 := by
  rw [State.readOffset, Reg.at_reserved ho]

theorem State.writeOffset_reserved (s : State) {o : Nat} (ho : 0x48 ≤ o) (v : Word) : s.writeOffset o v = s := by
  rw [State.writeOffset, Reg.at_reserved ho]
  exact ite_self s

theorem State.writeOffset_offset {s : State} (hb : s.status.busy = false) (v : Word) (r : Reg) :
    s.writeOffset r.offset v = s.storeReg v r := by
  rw [State.writeOffset, Reg.at_offset, if_neg (by simp [hb])]

/-- The read-only registers (R19 to R32). -/
def Reg.readOnly : List Reg :=
  [.status, .result, .vdone, .classOut, .tblInfo, .tblPat0, .tblPat1, .tblPat2, .tblPat3, .id, .version]

/-- A write at the offset of a read-only register has no effect, whatever BUSY is (R18 items 2 and 4). -/
theorem State.writeOffset_readOnly (s : State) (v : Word) {r : Reg} (hr : r ∈ Reg.readOnly) :
    s.writeOffset r.offset v = s := by
  cases hb : s.status.busy with
  | true => exact State.writeOffset_busy hb _ v
  | false =>
    rw [State.writeOffset_offset hb]
    cases r with
    | cmd | valBase | valCount | byteBase | byteCap | classIn | tblSel => exact absurd hr (by decide)
    | _ => rfl

/-- A read at a register's address returns its value and changes nothing else (R18 item 5). -/
theorem step_regRead (s : State) (rest : List Input) (r : Reg) :
    step { s with inputs := .regRead .word (s.cfg.regBase + r.offset) :: rest } =
      .next { after s rest with hostData := s.readReg r } := by
  rw [step_regRead_aligned s rest (r.offset_lt.trans (by decide)) r.offset_aligned, State.readOffset_offset]

theorem step_regRead_reserved (s : State) (rest : List Input) {o : Nat} (hlo : 0x48 ≤ o) (hhi : o ≤ 0xFC)
    (hal : o % 4 = 0) :
    step { s with inputs := .regRead .word (s.cfg.regBase + o) :: rest } = .next { after s rest with hostData := 0 } := by
  rw [step_regRead_aligned s rest (by omega) hal, s.readOffset_reserved hlo]

/-- A write without effect at its offset leaves the step's own bookkeeping (R18 items 2 and 4). -/
theorem step_regWrite_noEffect {s : State} {rest : List Input} {v : Word} {o : Nat} (ho : o < 0x100) (hal : o % 4 = 0)
    (h : (after s rest).writeOffset o v = after s rest) :
    step { s with inputs := .regWrite .word (s.cfg.regBase + o) v :: rest } = .next (after s rest) := by
  rw [step_regWrite_aligned s rest v ho hal, h]

/-- A write at a register's address while BUSY = 0 stores into that register (R18 item 6). -/
theorem step_regWrite_idle {s : State} (hb : s.status.busy = false) (rest : List Input) (v : Word) (r : Reg) :
    step { s with inputs := .regWrite .word (s.cfg.regBase + r.offset) v :: rest } =
      .next ((after s rest).storeReg v r) := by
  rw [step_regWrite_aligned s rest v (r.offset_lt.trans (by decide)) r.offset_aligned,
    State.writeOffset_offset (s := after s rest) hb]

/-- Settles O11: an access at an aligned offset goes to the register there, if there is one, and every other is refused. -/
theorem registerAccessRules : Obligations.RegisterAccessRules := by
  intro s rest v
  have readOnly : ∀ o ∈ [0x04, 0x18, 0x1C, 0x24, 0x2C, 0x30, 0x34, 0x38, 0x3C, 0x40, 0x44], ∃ r ∈ Reg.readOnly,
      o = r.offset := by decide
  have read := step_regRead s rest
  refine ⟨fun size addr => step_regAccess_not_admitted s rest v, ?_, ?_, ?_, read, ?_, ?_⟩
  · rintro o (ho | ⟨hlo, hhi, hal⟩)
    · obtain ⟨r, hr, rfl⟩ := readOnly o ho
      exact step_regWrite_noEffect (r.offset_lt.trans (by decide)) r.offset_aligned
        ((after s rest).writeOffset_readOnly v hr)
    · exact step_regWrite_noEffect (by omega) hal ((after s rest).writeOffset_reserved hlo v)
  · rintro o (rfl | ⟨hlo, hhi, hal⟩)
    · exact read .cmd
    · exact step_regRead_reserved s rest hlo hhi hal
  · intro o hb ho hal
    exact step_regWrite_noEffect ho hal (State.writeOffset_busy (s := after s rest) hb o v)
  · refine ⟨read .valBase, read .valCount, read .byteBase, read .byteCap, read .result, read .vdone, read .classIn, ?_, ?_,
      read .id, read .version⟩
    · rw [BitVec.ofNat_toNat]; exact read .classOut
    · rw [BitVec.ofNat_toNat]; exact read .tblSel
  · intro hb
    have write := step_regWrite_idle hb rest v
    exact ⟨write .valBase, write .valCount, write .byteBase, write .byteCap, write .classIn, write .tblSel⟩

/-! ### STATUS -/

theorem getLsbD_bitField (b : Bool) {k i : Nat} (hk : k < 32) : (bitField b k).getLsbD i = (b && decide (i = k)) := by
  rw [bitField, BitVec.getLsbD_shiftLeft, BitVec.getLsbD_setWidth, BitVec.getLsbD_ofBool]
  by_cases hi : i = k
  · simp [hi, hk]
  · have : i < k ∨ ¬ (i - k = 0) := by omega
    rcases this with h | h <;> simp [h, hi]

/-- STATUS bit by bit (R20). -/
theorem Status.getLsbD_word (st : Status) (i : Nat) (hi : i < 32) :
    st.word.getLsbD i =
      (st.busy && decide (i = 0) || st.done && decide (i = 1) || st.err && decide (i = 2) ||
        (decide (4 ≤ i) && st.errcode.code.getLsbD (i - 4)) || st.tableValid && decide (i = 8) ||
        st.tableG2 && decide (i = 9)) := by
  have hcode : (st.errcode.code.setWidth 32 <<< 4 : Word).getLsbD i =
      (decide (4 ≤ i) && st.errcode.code.getLsbD (i - 4)) := by
    rw [BitVec.getLsbD_shiftLeft, BitVec.getLsbD_setWidth, decide_eq_true hi, decide_eq_true (by omega : i - 4 < 32)]
    by_cases h : i < 4
    · simp [h]
    · simp [h, Nat.le_of_not_lt h]
  simp only [Status.word, BitVec.getLsbD_or, hcode, getLsbD_bitField, Nat.reduceLT]

theorem Status.extractLsb'_word_errcode (st : Status) : st.word.extractLsb' 4 4 = st.errcode.code := by
  apply BitVec.eq_of_getLsbD_eq
  intro i hi
  rw [BitVec.getLsbD_extractLsb', st.getLsbD_word _ (by omega)]
  simp [hi, show ¬ 4 + i = 0 ∧ ¬ 4 + i = 1 ∧ ¬ 4 + i = 2 ∧ ¬ 4 + i = 8 ∧ ¬ 4 + i = 9 by omega]

/-- Bits [31:10] of STATUS are 0: every field ends below them (R20). -/
theorem Status.extractLsb'_word_reserved (st : Status) : st.word.extractLsb' 10 22 = 0 := by
  apply BitVec.eq_of_getLsbD_eq
  intro i hi
  have pastCode : st.errcode.code.getLsbD (10 + i - 4) = false := BitVec.getLsbD_of_ge _ _ (by omega)
  rw [BitVec.getLsbD_extractLsb', st.getLsbD_word _ (by omega), pastCode]
  simp [show ¬ 10 + i = 1 ∧ ¬ 10 + i = 2 ∧ ¬ 10 + i = 8 ∧ ¬ 10 + i = 9 by omega]

/-- The numbers of the error codes are those of R117. -/
theorem ErrCode.code_eq_errorNumber (e : ErrCode) : e.code = errorNumber e := by cases e <;> rfl

/-- Settles O13: each field of STATUS by its own bits, the error codes by their table. -/
theorem statusRegisterHoldsItsFields : Obligations.StatusRegisterHoldsItsFields := by
  intro s
  have bit := s.status.getLsbD_word
  refine ⟨?_, ?_, ?_, ?_, s.status.extractLsb'_word_errcode.trans (ErrCode.code_eq_errorNumber _), ?_, ?_,
    s.status.extractLsb'_word_reserved⟩ <;>
  · rw [State.readReg, bit _ (by decide)]
    simp

/-! ### The readback of the table -/

theorem Entry.lane_of_lt (e : Entry) {k : Nat} (hk : k < 16) : e.lane k = e.pat[k] := by
  simp [Entry.lane, List.getD, hk]

/-- TBL_PATk holds lanes 4k .. 4k+3 in byte order (R31). -/
theorem Entry.extractLsb'_patWord (e : Entry) {k : Nat} (hk : k < 4) {j : Nat} (hj : j < 4) :
    (e.patWord k).extractLsb' (8 * j) 8 = e.pat[4 * k + j] := by
  obtain ⟨h0, h1, h2, h3⟩ := extractLsb'_leValue (e.lane (4 * k)) (e.lane (4 * k + 1)) (e.lane (4 * k + 2))
    (e.lane (4 * k + 3))
  rw [← e.lane_of_lt (by omega)]
  match j, hj with
  | 0, _ => exact h0
  | 1, _ => exact h1
  | 2, _ => exact h2
  | 3, _ => exact h3

/-- TBL_INFO bit by bit (R30). -/
theorem Entry.getLsbD_infoWord (e : Entry) (i : Nat) :
    e.infoWord.getLsbD i = (decide (i < 5) && (BitVec.ofNat 5 e.len).getLsbD i || e.evalid && decide (i = 8)) := by
  rw [Entry.infoWord, BitVec.getLsbD_or, getLsbD_bitField _ (by decide), BitVec.getLsbD_setWidth]
  by_cases h : i < 5
  · simp [h, show i < 32 by omega]
  · simp [h, BitVec.getLsbD_of_ge _ i (Nat.le_of_not_lt h)]

theorem Entry.extractLsb'_infoWord_len (e : Entry) : e.infoWord.extractLsb' 0 5 = BitVec.ofNat 5 e.len := by
  apply BitVec.eq_of_getLsbD_eq
  intro i hi
  rw [BitVec.getLsbD_extractLsb', e.getLsbD_infoWord]
  simp [hi, show ¬ i = 8 by omega]

/-- The bits of TBL_INFO that hold neither LEN nor EVALID are 0 (R30). -/
theorem Entry.extractLsb'_infoWord_zero (e : Entry) {lo k : Nat} (hlo : 5 ≤ lo) (h8 : 8 < lo ∨ lo + k ≤ 8) :
    e.infoWord.extractLsb' lo k = 0 := by
  apply BitVec.eq_of_getLsbD_eq
  intro i hi
  rw [BitVec.getLsbD_extractLsb', e.getLsbD_infoWord]
  simp [show ¬ lo + i < 5 by omega, show ¬ lo + i = 8 by omega]

theorem State.whenTableValid_of_valid {s : State} (h : s.status.tableValid = true) (w : Word) :
    s.whenTableValid w = w := if_pos h

theorem State.whenTableValid_of_invalid {s : State} (h : s.status.tableValid = false) (w : Word) :
    s.whenTableValid w = 0 := if_neg (by simp [h])

theorem State.readback_of_invalid {s : State} (h : s.status.tableValid = false) :
    s.readReg .tblInfo = 0 ∧ s.readReg .tblPat0 = 0 ∧ s.readReg .tblPat1 = 0 ∧ s.readReg .tblPat2 = 0 ∧
      s.readReg .tblPat3 = 0 := by
  have zero := State.whenTableValid_of_invalid h
  exact ⟨zero _, zero _, zero _, zero _, zero _⟩

/-- Settles O14: the five registers are the selected entry's images while the table is valid, and 0 while it is not. -/
theorem tableReadbackShowsTheSelectedEntry : Obligations.TableReadbackShowsTheSelectedEntry := by
  refine ⟨fun s => ⟨State.readback_of_invalid, fun hv => ?_⟩, State.readback_of_invalid rfl⟩
  simp only [State.readReg, State.whenTableValid_of_valid hv]
  have lanes := fun k hk j hj => s.selected.extractLsb'_patWord (k := k) hk (j := j) hj
  refine ⟨fun hlen => ?_, ?_, s.selected.extractLsb'_infoWord_zero (by decide) (by decide),
    s.selected.extractLsb'_infoWord_zero (by decide) (by decide), fun j hj => ?_, lanes 1 (by decide),
    lanes 2 (by decide), lanes 3 (by decide)⟩
  · rw [Entry.extractLsb'_infoWord_len, BitVec.toNat_ofNat]
    exact Nat.mod_eq_of_lt (Nat.lt_of_le_of_lt hlen (by decide))
  · rw [Entry.getLsbD_infoWord]
    simp [State.selected, Table.entry]
  · have lane := lanes 0 (by decide) j hj
    simp only [Nat.mul_zero, Nat.zero_add] at lane
    exact lane

/-! ### Reset -/

/-- Settles O15: each register by its reset value; the readback registers read 0 because no table is valid. -/
theorem resetRegistersReadAsTheMapSays : Obligations.ResetRegistersReadAsTheMapSays := by
  refine ⟨fun r hr => ?_, rfl, rfl, rfl, rfl, rfl, rfl⟩
  cases r with
  | tblInfo | tblPat0 | tblPat1 | tblPat2 | tblPat3 => exact State.whenTableValid_of_invalid rfl _
  | id | version => exact absurd hr (by decide)
  | _ => rfl

end Sys2Proof.Machine
end

