-- ==== Sys2Proof/Proofs/SimdPath.lean ====
section
/-! The shuffle table gathers what the scalar rule assembles: on a full group the entry built for a coded header gives
the slot values of R80 and R83, so the SIMD block function is the scalar one (45_simd.md R115). -/

namespace Sys2Proof.Machine

/-! ### The slots of a payload (R63) -/

theorem slotOffset_add_codeBytes_le {codes : List LengthCode} {k : Nat} {c : LengthCode} (h : codes[k]? = some c) :
    slotOffset codes k + codeBytes c ≤ payloadLen codes := by
  induction codes generalizing k with
  | nil => cases h
  | cons d ds ih =>
    cases k with
    | zero =>
      obtain rfl : d = c := by simpa using h
      simp [slotOffset, payloadLen]
    | succ k =>
      have := ih (k := k) (by simpa using h)
      simp only [slotOffset, payloadLen]
      omega

theorem slotOffset_le (codes : List LengthCode) (k : Nat) : slotOffset codes k ≤ 4 * k := by
  induction codes generalizing k with
  | nil => cases k <;> simp [slotOffset]
  | cons d ds ih =>
    cases k with
    | zero => simp [slotOffset]
    | succ k =>
      have := ih k
      have := codeBytes_le d
      simp only [slotOffset]
      omega

/-- Slot k of the scalar rule is the little-endian value of its bytes from payload offset o_k on (R63). -/
theorem getElem?_slotValues {codes : List LengthCode} {k : Nat} {c : LengthCode} (h : codes[k]? = some c)
    (bytes : List Byte) :
    (slotValues codes bytes)[k]? = some (leValue ((bytes.drop (slotOffset codes k)).take (codeBytes c))) := by
  induction codes generalizing k bytes with
  | nil => cases h
  | cons d ds ih =>
    cases k with
    | zero =>
      obtain rfl : d = c := by simpa using h
      simp [slotValues, slotOffset]
    | succ k => simp [slotValues, slotOffset, ih (k := k) (by simpa using h), List.drop_drop]

/-! ### The gather of a built entry (R108, R112) -/

theorem lane_validEntry (codes : List LengthCode) {j : Nat} (hj : j < 16) :
    (validEntry codes).lane j = patternByte codes j := by
  rw [Entry.lane_of_lt _ hj, validEntry, Vector.getElem_ofFn]

theorem gatherByte_offset {x : Nat} (hx : x < 16) (Q : List Byte) : gatherByte (BitVec.ofNat 8 x) Q = Q.getD x 0 := by
  have hbit : (BitVec.ofNat 8 x).getLsbD 7 = false := by
    rw [BitVec.getLsbD_ofNat, Nat.testBit_lt_two_pow (by omega), Bool.and_false]
  have hlow : ((BitVec.ofNat 8 x).extractLsb' 0 4).toNat = x := by
    simp only [BitVec.extractLsb'_toNat, BitVec.toNat_ofNat, Nat.shiftRight_zero]
    omega
  rw [gatherByte, hbit, if_neg Bool.false_ne_true, hlow]

/-- Lane 4k + b of a built entry gathers payload byte o_k + b, or 0 past the bytes of slot k. -/
theorem gatherByte_lane {codes : List LengthCode} {k : Nat} {c : LengthCode} (h : codes[k]? = some c) (hk : k < 4)
    (Q : List Byte) {b : Nat} (hb : b < 4) :
    gatherByte ((validEntry codes).lane (4 * k + b)) Q =
      if b ≤ c.toNat then Q.getD (slotOffset codes k + b) 0 else 0 := by
  have hoff := slotOffset_le codes k
  rw [lane_validEntry codes (by omega), patternByte, show (4 * k + b) / 4 = k by omega,
    show (4 * k + b) % 4 = b by omega, h]
  dsimp only
  split
  · exact gatherByte_offset (by omega) Q
  · rfl

theorem take_drop_eq_map_getD {Q : List Byte} {o m : Nat} (h : o + m ≤ Q.length) :
    (Q.drop o).take m = (List.range m).map fun b => Q.getD (o + b) 0 := by
  refine List.ext_getElem (by simp; omega) fun j hj _ => ?_
  simp only [List.length_take, List.length_drop] at hj
  rw [List.getElem_take, List.getElem_drop, List.getElem_map, List.getElem_range, List.getD_eq_getElem _ _ (by omega)]

/-- The four lanes of slot k give the little-endian value of the slot's bytes. -/
theorem gatherValue_validEntry {codes : List LengthCode} {k : Nat} {c : LengthCode} (h : codes[k]? = some c)
    (hk : k < 4) {Q : List Byte} (hQ : payloadLen codes ≤ Q.length) :
    gatherValue (validEntry codes) Q k = leValue ((Q.drop (slotOffset codes k)).take (codeBytes c)) := by
  have hfit := slotOffset_add_codeBytes_le h
  have lane (b : Nat) (hb : b < 4) := gatherByte_lane h hk Q hb
  have lane0 := lane 0 (by decide)
  rw [Nat.add_zero] at lane0
  rw [take_drop_eq_map_getD (by omega), gatherValue, lane0, lane 1 (by decide), lane 2 (by decide), lane 3 (by decide)]
  have hcodes : ∀ c : LengthCode, c = 0 ∨ c = 1 ∨ c = 2 ∨ c = 3 := by decide
  rcases hcodes c with rfl | rfl | rfl | rfl <;> simp [codeBytes, List.range_succ, leValue]

/-- A built entry gathers the slot values of the scalar rule (R115). -/
theorem gather_validEntry {codes : List LengthCode} (hlen : codes.length ≤ 4) {bytes : List Byte}
    (hbytes : payloadLen codes ≤ bytes.length) :
    gather (validEntry codes) (bytes.take (payloadLen codes)) codes.length = slotValues codes bytes := by
  refine List.ext_getElem (by simp [gather]) fun k hk _ => ?_
  have hk : k < codes.length := by simpa [gather] using hk
  have hcode : codes[k]? = some codes[k] := List.getElem?_eq_getElem hk
  have hfit := slotOffset_add_codeBytes_le hcode
  have hscalar := getElem?_slotValues hcode bytes
  rw [List.getElem?_eq_getElem (by simpa using hk), Option.some.injEq] at hscalar
  simp only [gather, List.getElem_map, List.getElem_range]
  rw [hscalar, gatherValue_validEntry hcode (by omega) (by simp [hbytes]), List.drop_take, List.take_take,
    Nat.min_eq_left (by omega)]

/-! ### The block function (R113, R115) -/

theorem length_codesOf (v : Variant) (h : Byte) : (codesOf v h).length = v.group := by cases v <;> rfl

theorem group_le_four (v : Variant) : v.group ≤ 4 := by cases v <;> decide

/-- A coded header of a nibble variant has its unused bits clear (R62, R65). -/
theorem hdrClass_coded_nib {v : Variant} (hv : v ≠ .basic4) {h : Byte} (hc : hdrClass v h = .coded) :
    h &&& 0xCC = 0 := by
  by_contra hbits
  cases v with
  | basic4 => exact hv rfl
  | headerlessNib | sentinelNib | tableNib =>
    rw [hdrClass, if_neg hbits] at hc
    split at hc <;> cases hc

/-- A coded header's entry in the build of its variant's group width is the entry of its LengthCodes (R108, R109). -/
theorem buildEntry_of_coded {v : Variant} {h : Byte} (hc : hdrClass v h = .coded) :
    buildEntry v.group h = validEntry (codesOf v h) := by
  cases v with
  | basic4 => rfl
  | headerlessNib | sentinelNib | tableNib =>
    rw [buildEntry, if_neg (by decide), if_pos (hdrClass_coded_nib (by decide) hc)]
    rfl

theorem decGather_validEntry {codes : List LengthCode} (hlen : codes.length ≤ 4) {rem : Nat}
    (hrem : codes.length ≤ rem) (S : List Byte) :
    decGather (validEntry codes) codes.length S = decCoded codes S rem := by
  have hentry : (validEntry codes).len = payloadLen codes := rfl
  rw [decGather, decCoded, List.take_of_length_le hrem, hentry]
  split
  · rfl
  · rename_i hlong
    rw [gather_validEntry hlen (by simp; omega)]

/-- With the table built for its group width the SIMD block function is the scalar one (R115). -/
theorem decBlockSimd_buildTable (v : Variant) (S : List Byte) (rem : Nat) :
    decBlockSimd (buildTable v.group) v S rem = decBlock v S rem := by
  cases S with
  | nil => rfl
  | cons h S =>
    simp only [decBlockSimd, decBlock]
    cases hclass : hdrClass v h with
    | raw | malformed => rfl
    | coded =>
      simp only [entry_buildTable]
      split
      · rfl
      · rename_i hrem
        rw [buildEntry_of_coded hclass, ← length_codesOf v h]
        exact decGather_validEntry (length_codesOf v h ▸ group_le_four v) (by rw [length_codesOf]; omega) _

end Sys2Proof.Machine
end

