-- ==== Sys2Proof/Proofs/RunSteps.lean ====
section
/-! What a RUN step does, said once (`BlockStep`): a header instruction is the block step of its DECODE command, on
whatever bytes the engine reads, and a step either completes or writes the block of the scalar block function and moves
both cursors on. So a command completes within n + 2 turns, where `State.outlook` finds it (44_engine.md R99, R100,
R103). -/

namespace Sys2Proof.Machine

open Sys2Proof.Claims

/-! ### A header instruction is its command's block step (R100) -/

/-- The block function that the class of header `h` selects under variant `v` (R65, R113). -/
def State.classDecoder (s : State) (v : Variant) (h : Byte) : List Byte → Nat → Except ErrCode (List Word × Nat) :=
  match hdrClass v h with
  | .raw => decRaw v
  | .coded => s.codedDecoder v h (codesOf v h)
  | .malformed => decMalformed

theorem State.classDecoder_raw {s : State} {v : Variant} {h : Byte} (hc : hdrClass v h = .raw) :
    s.classDecoder v h = decRaw v := by rw [State.classDecoder, hc]

theorem State.classDecoder_coded {s : State} {v : Variant} {h : Byte} (hc : hdrClass v h = .coded) :
    s.classDecoder v h = s.codedDecoder v h (codesOf v h) := by rw [State.classDecoder, hc]

theorem State.classDecoder_malformed {s : State} {v : Variant} {h : Byte} (hc : hdrClass v h = .malformed) :
    s.classDecoder v h = decMalformed := by rw [State.classDecoder, hc]

/-- The block function of ENG.V and ENG.simd is that of the first byte's class. -/
theorem State.blockDecoder_cons (s : State) (h : Byte) (S : List Byte) (rem : Nat) :
    s.blockDecoder (h :: S) rem = s.classDecoder s.eng.variant h (h :: S) rem := by
  cases hclass : hdrClass s.eng.variant h with
  | raw | malformed =>
    simp only [State.blockDecoder, State.classDecoder, hclass]
    split
    · simp only [decBlockSimd, hclass]
    · simp only [decBlock, hclass]
  | coded =>
    rw [State.classDecoder_coded hclass, State.codedDecoder]
    cases hsimd : s.eng.simd with
    | false => simp [State.blockDecoder, hsimd, decBlock, hclass]
    | true =>
      simp only [State.blockDecoder, hsimd, if_true, decBlockSimd, hclass, true_and]
      by_cases hrem : rem < s.eng.variant.group
      · rw [if_pos hrem, if_neg (by omega)]
      · rw [if_neg hrem, if_pos (by omega)]

theorem nibDescriptor_of_legal : ∀ h : Byte, h &&& 0xCC = 0 →
    nibDescriptor (h.extractLsb' 0 2) (h.extractLsb' 4 2) = h := by decide +kernel

theorem b4Descriptor_codes : ∀ h : Byte,
    b4Descriptor (h.extractLsb' 0 2) (h.extractLsb' 2 2) (h.extractLsb' 4 2) (h.extractLsb' 6 2) = h := by
  decide +kernel

/-- The literal of HN.RAW.HI is its header, a raw one (R65, R87). -/
theorem literal_of_rawHi : ∀ h : Byte, h &&& 0x80 = 0x80 → 0x80 ||| (h.extractLsb' 0 7).setWidth 8 = h ∧ 0x40 ≤ h := by
  decide +kernel

/-- The literal of HN.RAW.LO is its header, a raw one (R65, R87). -/
theorem literal_of_rawLo : ∀ h : Byte, h &&& 0xC0 = 0x40 → 0x40 ||| (h.extractLsb' 0 6).setWidth 8 = h ∧ 0x40 ≤ h := by
  decide +kernel

theorem lt_of_neither_raw : ∀ h : Byte, ¬h &&& 0x80 = 0x80 → ¬h &&& 0xC0 = 0x40 → ¬0x40 ≤ h := by decide +kernel

/-- The coded block function of a nibble variant by the operands of the header's instruction (R62, R83). -/
theorem State.classDecoder_nibCoded {s : State} {v : Variant} {h : Byte} (hv : v ≠ .basic4)
    (hc : hdrClass v h = .coded) :
    s.classDecoder v h =
      s.codedDecoder v (nibDescriptor (h.extractLsb' 0 2) (h.extractLsb' 4 2))
        [h.extractLsb' 0 2, h.extractLsb' 4 2] := by
  rw [State.classDecoder_coded hc, nibDescriptor_of_legal h (hdrClass_coded_nib hv hc)]
  cases v with
  | basic4 => exact absurd rfl hv
  | headerlessNib | sentinelNib | tableNib => rfl

/-- A headerless raw block at `h` is the block function of the raw class: `h` is its first literal (R87). -/
theorem decodeBlock_decRawHeaderless {s : State} {h : Byte} {S : List Byte} (hS : s.stream = h :: S)
    (hc : hdrClass .headerlessNib h = .raw) :
    decodeBlock (decRawHeaderless h) s = decodeBlock (s.classDecoder .headerlessNib h) s := by
  rw [State.classDecoder_raw hc, decodeBlock, decodeBlock, hS]
  rfl

/-- A header instruction is one block step with the block function of its class (R79, R80, R83, R87, R93). -/
theorem exec_decodeHdr_eq_decodeBlock {s : State} {h : Byte} {S : List Byte} (hS : s.stream = h :: S) (v : Variant) :
    exec (decodeHdr v h) s = .next (decodeBlock (s.classDecoder v h) s) := by
  cases v with
  | basic4 =>
    by_cases hraw : h = 0xFF
    · rw [State.classDecoder_raw (by exact if_pos hraw), decodeHdr, if_pos hraw]
      rfl
    · rw [State.classDecoder_coded (by exact if_neg hraw), decodeHdr, if_neg hraw]
      exact congrArg (fun d => Host.Outcome.next (decodeBlock (s.codedDecoder .basic4 d (codesB4 h)) s))
        (b4Descriptor_codes h)
  | headerlessNib =>
    by_cases hhi : h &&& 0x80 = 0x80
    · obtain ⟨hx, hge⟩ := literal_of_rawHi h hhi
      rw [← decodeBlock_decRawHeaderless hS (if_pos hge), decodeHdr, if_pos hhi]
      exact congrArg (fun x => Host.Outcome.next (decodeBlock (decRawHeaderless x) s)) hx
    · by_cases hlo : h &&& 0xC0 = 0x40
      · obtain ⟨hx, hge⟩ := literal_of_rawLo h hlo
        rw [← decodeBlock_decRawHeaderless hS (if_pos hge), decodeHdr, if_neg hhi, if_pos hlo]
        exact congrArg (fun x => Host.Outcome.next (decodeBlock (decRawHeaderless x) s)) hx
      · have hlt := lt_of_neither_raw h hhi hlo
        rw [decodeHdr, if_neg hhi, if_neg hlo]
        by_cases hlegal : h &&& 0xCC = 0
        · rw [State.classDecoder_nibCoded (by decide) (by exact (if_neg hlt).trans (if_pos hlegal)), if_pos hlegal]
          rfl
        · rw [State.classDecoder_malformed (by exact (if_neg hlt).trans (if_neg hlegal)), if_neg hlegal]
          rfl
  | sentinelNib | tableNib =>
    rw [decodeHdr]
    by_cases hraw : h = 0xF0
    · rw [State.classDecoder_raw (by exact if_pos hraw), if_pos hraw]
      rfl
    · rw [if_neg hraw]
      by_cases hlegal : h &&& 0xCC = 0
      · rw [State.classDecoder_nibCoded (by decide) (by exact (if_neg hraw).trans (if_pos hlegal)), if_pos hlegal]
        rfl
      · rw [State.classDecoder_malformed (by exact (if_neg hraw).trans (if_neg hlegal)), if_neg hlegal]
        rfl

/-- With a byte left the first byte of the stream is the one that the engine fetches as header, raced or not. -/
theorem State.stream_cons {s : State} (hp : s.eng.p < s.byteCap.toNat) :
    ∃ S, s.stream = s.engRead s.byteAddr :: S := by
  obtain ⟨k, hk⟩ : ∃ k, min Config.maxBlock (s.byteCap.toNat - s.eng.p) = k + 1 :=
    Nat.exists_eq_succ_of_ne_zero (by unfold Config.maxBlock; omega)
  exact ⟨s.engReadBytes (s.byteAddr + 1) k, by rw [State.stream, hk, State.engReadBytes]⟩

/-- The header's instruction and the DECODE command answer the same state, raced or not (R100). -/
theorem exec_header_eq_decodeRun {s : State} (hd : s.headerDue = true) : exec s.fetch s = .next (decodeRun s) := by
  rw [State.fetch_header hd]
  simp only [State.headerDue, Bool.and_eq_true, decide_eq_true_eq] at hd
  obtain ⟨⟨-, hi⟩, hp⟩ := hd
  obtain ⟨S, hS⟩ := State.stream_cons hp
  rw [exec_decodeHdr_eq_decodeBlock hS, decodeRun, if_neg (by omega), decodeBlock, decodeBlock, hS,
    State.blockDecoder_cons]

/-! ### The RUN steps under the invariant -/

theorem State.Inv.engineTurn_encode {s : State} (h : s.Inv) (hp : s.eng.phase = .run) (hop : s.eng.op = .encode) :
    engineTurn s = .next (encodeRun s.tick) := by
  obtain ⟨op, v, b, hc, rfl, -⟩ := h.running hp
  rw [hop] at hc
  rw [engineTurn_busy (by simp [hp]), State.fetch_command (State.headerDue_encode (s := s.tick) hop),
    exec_of_codecOp (i := decodeCmd s.tick.eng.w) hc, if_pos rfl, encodeCommand, runCommand_run (s := s.tick) hp]

theorem State.Inv.engineTurn_decode {s : State} (h : s.Inv) (hp : s.eng.phase = .run) (hop : s.eng.op = .decode) :
    engineTurn s = .next (decodeRun s.tick) := by
  rw [engineTurn_busy (by simp [hp])]
  cases hd : s.tick.headerDue with
  | true => exact exec_header_eq_decodeRun hd
  | false =>
    obtain ⟨op, v, b, hc, rfl, -⟩ := h.running hp
    rw [hop] at hc
    rw [State.fetch_command hd, exec_of_codecOp (i := decodeCmd s.tick.eng.w) hc, if_neg (by decide), decodeCommand,
      runCommand_run (s := s.tick) hp]

/-- A table ready for a variant is the build of its group width (R98, R109). -/
theorem State.Inv.table_of_ready {s : State} (h : s.Inv) {v : Variant} (hready : s.tableReady v = true) :
    s.table = buildTable v.group := by
  simp only [State.tableReady, Bool.and_eq_true, beq_iff_eq] at hready
  obtain ⟨hvalid, hwidth⟩ := hready
  rw [h.tableBuilt hvalid, hwidth, ← buildTable_group]

/-- A SIMD DECODE whose START checks pass has its table ready (R98). -/
theorem State.tableReady_of_startError {s : State} {v : Variant} (h : s.startError .decode v true = .none) :
    s.tableReady v = true := by
  unfold State.startError at h
  split_ifs at h with halign hrange hoverlap htable
  simpa using htable

/-- In a RUN step of DECODE the block function is the scalar one, by the table or not (R115). -/
theorem State.Inv.blockDecoder_eq {s : State} (h : s.Inv) (hp : s.eng.phase = .run) (hop : s.eng.op = .decode) :
    s.blockDecoder = decBlock s.eng.variant := by
  obtain ⟨op, v, b, -, rfl, rfl, -, hpass, -⟩ := h.running hp
  unfold State.blockDecoder
  split
  · rename_i hsimd
    rw [hop, hsimd] at hpass
    funext S rem
    rw [h.table_of_ready (State.tableReady_of_startError hpass), decBlockSimd_buildTable]
  · rfl

/-- What a RUN step of `s` does: it completes, or it writes the block that the block function answers, which fits, and
moves both cursors on (R99, R100). -/
inductive BlockStep (s : State) : State → Prop
  | completes (e : ErrCode) : BlockStep s (s.complete e)
  | encodes (block : List Byte) (k : Nat) : s.eng.op = .encode →
      encBlock s.cfg.ffPolicy s.eng.variant s.nextValues = .ok (block, k) → s.eng.p + block.length ≤ s.byteCap.toNat →
      1 ≤ block.length → s.eng.i + k ≤ s.n → 1 ≤ k → BlockStep s (s.putBlock block k)
  | decodes (values : List Word) (len : Nat) : s.eng.op = .decode →
      decBlock s.eng.variant s.stream s.rem = .ok (values, len) → s.eng.p + len ≤ s.byteCap.toNat → 1 ≤ len →
      s.eng.i + values.length ≤ s.n → 1 ≤ values.length → BlockStep s (s.putValues values len)

theorem blockStep_encodeRun {s : State} (hop : s.eng.op = .encode) (hi : s.eng.i ≤ s.n) :
    BlockStep s (encodeRun s) := by
  rcases encodeRun_cases hi with ⟨-, h⟩ | ⟨-, h | h⟩ | ⟨-, block, k, hb, hfit, hk, hik, hlen, h⟩ <;> rw [h]
  · exact .completes _
  · exact .completes _
  · exact .completes _
  · exact .encodes block k hop hb hfit hlen hik hk

theorem blockStep_decodeRun {s : State} (hop : s.eng.op = .decode) (hdec : s.blockDecoder = decBlock s.eng.variant)
    (hi : s.eng.i ≤ s.n) (hp : s.eng.p ≤ s.byteCap.toNat) : BlockStep s (decodeRun s) := by
  unfold decodeRun
  split
  · exact .completes _
  · have hrem : 1 ≤ s.rem := by unfold State.rem; omega
    rcases decodeBlock_cases (s.blockDecoder_within _ hrem) hi hp with
      ⟨e, -, h⟩ | ⟨values, len, hd, hv, hiv, hl, hpl, h⟩ <;> rw [h]
    · exact .completes e
    · exact .decodes values len hop (hdec ▸ hd) hpl hl hiv hv

/-- A turn of a command in its RUN steps is such a step. -/
theorem State.Inv.blockStep {s t : State} (h : s.Inv) (hp : s.eng.phase = .run) (ht : engineTurn s = .next t) :
    BlockStep s.tick t := by
  obtain ⟨op, v, b, hc, hop, -, -, -, hi, hcap⟩ := h.running hp
  rcases codecOp_isCodec hc with ⟨rfl, -⟩ | rfl
  · rw [h.engineTurn_encode hp hop] at ht
    cases ht
    exact blockStep_encodeRun hop hi
  · rw [h.engineTurn_decode hp hop] at ht
    cases ht
    exact blockStep_decodeRun hop (h.tick.blockDecoder_eq hp hop) hi hcap

/-! ### A command completes within n + 2 turns (R103) -/

/-- A bound on the turns a command still takes: its START step, a step for each value left, and the one that
completes. -/
def State.turnsLeft (s : State) : Nat :=
  match s.eng.phase with
  | .idle => 0
  | .start => s.n + 2
  | .run => s.n - s.eng.i + 1

theorem State.turnsLeft_idle {s : State} (h : s.eng.phase = .idle) : s.turnsLeft = 0 := by rw [State.turnsLeft, h]

theorem State.turnsLeft_start {s : State} (h : s.eng.phase = .start) : s.turnsLeft = s.n + 2 := by
  rw [State.turnsLeft, h]

theorem State.turnsLeft_run {s : State} (h : s.eng.phase = .run) : s.turnsLeft = s.n - s.eng.i + 1 := by
  rw [State.turnsLeft, h]

theorem State.turnsLeft_le (s : State) : s.turnsLeft ≤ s.n + 2 := by
  unfold State.turnsLeft
  split <;> omega

/-- A START step ends the command or goes to RUN with cursor i at 0 (R98). -/
theorem EngineMove.phase_of_start {s t : State} (hm : EngineMove s t) (hp : s.eng.phase = .start) :
    t.eng.phase = .idle ∨ (t.eng.phase = .run ∧ t.eng.i = 0 ∧ t.n = s.n) := by
  cases hm with
  | illegal | classify | tableInit | startFails => exact .inl rfl
  | startPasses => exact .inr ⟨rfl, rfl, rfl⟩
  | completes _ hrun | writesBlock _ _ hrun | writesValues _ _ hrun => exact absurd (hp.symm.trans hrun) (by decide)

/-- A RUN step ends the command or covers at least one of the values left (R99, R100). -/
theorem BlockStep.completes_or_advances {s t : State} (hs : BlockStep s t) (hp : s.eng.phase = .run) :
    t.eng.phase = .idle ∨ (t.eng.phase = .run ∧ s.eng.i < t.eng.i ∧ t.eng.i ≤ s.n ∧ t.n = s.n) := by
  cases hs with
  | completes => exact .inl rfl
  | encodes block k _ _ _ _ hik hk => exact .inr ⟨hp, Nat.lt_add_of_pos_right hk, hik, rfl⟩
  | decodes values len _ _ _ _ hiv hv => exact .inr ⟨hp, Nat.lt_add_of_pos_right hv, hiv, rfl⟩

/-- Every turn of a running command lowers the bound: a block covers at least one value. -/
theorem State.Inv.turnsLeft_lt {s t : State} (h : s.Inv) (hp : s.eng.phase ≠ .idle) (ht : engineTurn s = .next t) :
    t.turnsLeft < s.turnsLeft := by
  cases hphase : s.eng.phase with
  | idle => exact absurd hphase hp
  | start =>
    rw [State.turnsLeft_start hphase]
    rcases engineTurn_cases h ht with ⟨hidle, -⟩ | hm
    · exact absurd hidle hp
    · rcases hm.phase_of_start hphase with ht | ⟨ht, hi, hn⟩
      · rw [State.turnsLeft_idle ht]
        omega
      · rw [State.turnsLeft_run ht, hi, hn, State.tick_n]
        omega
  | run =>
    rw [State.turnsLeft_run hphase]
    rcases (h.blockStep hphase ht).completes_or_advances hphase with ht | ⟨ht, hlt, hle, hn⟩
    · rw [State.turnsLeft_idle ht]
      omega
    · rw [State.tick_eng] at hlt
      rw [State.tick_n] at hle hn
      rw [State.turnsLeft_run ht, hn]
      omega

theorem State.Inv.runOn_idle_of_turnsLeft {s : State} (h : s.Inv) {fuel : Nat} (hf : s.turnsLeft ≤ fuel) :
    (s.runOn fuel).eng.phase = .idle := by
  induction fuel generalizing s with
  | zero =>
    by_contra hp
    obtain ⟨t, ht, -⟩ := engineTurn_keepsOperands s
    exact absurd (h.turnsLeft_lt hp ht) (by omega)
  | succ fuel ih =>
    by_cases hp : s.eng.phase = .idle
    · rw [State.runOn_idle hp, hp]
    · obtain ⟨t, ht, -⟩ := engineTurn_keepsOperands s
      have hlt := h.turnsLeft_lt hp ht
      rw [State.runOn, if_neg hp, ht]
      exact ih (engineTurn_keepsInv h ht) (by omega)

/-- A move takes no entry of the interleaving, and leaves ENG.w. -/
theorem EngineMove.inputs_word {s t : State} (hm : EngineMove s t) : t.inputs = s.inputs ∧ t.eng.w = s.eng.w := by
  cases hm <;> exact ⟨rfl, rfl⟩

theorem State.Inv.inputs_word_turn {s t : State} (h : s.Inv) (ht : engineTurn s = .next t) :
    t.inputs = s.inputs ∧ t.eng.w = s.eng.w := by
  rcases engineTurn_cases h ht with ⟨-, rfl⟩ | hm
  · exact ⟨rfl, rfl⟩
  · exact hm.inputs_word

/-- With nothing pending, the run to completion is a run of the machine. -/
theorem State.Inv.run_runOn {s : State} (h : s.Inv) (hin : s.inputs = []) (fuel : Nat) :
    ∃ k, k ≤ fuel ∧ Host.Core.run core k s = .next (s.runOn fuel) := by
  induction fuel generalizing s with
  | zero => exact ⟨0, Nat.le_refl _, rfl⟩
  | succ fuel ih =>
    by_cases hp : s.eng.phase = .idle
    · exact ⟨0, Nat.zero_le _, by rw [State.runOn_idle hp]; rfl⟩
    · obtain ⟨t, ht, -⟩ := engineTurn_keepsOperands s
      have hin' : t.inputs = [] := by rw [(h.inputs_word_turn ht).1, hin]
      obtain ⟨k, hk, hrun⟩ := ih (engineTurn_keepsInv h ht) hin'
      refine ⟨k + 1, by omega, ?_⟩
      have hstep : core.step s = .next t := (step_of_no_input hin).trans ht
      rw [State.runOn, if_neg hp, ht]
      simp only [Host.Core.run, hstep, hrun]

/-- The look-ahead ends where the command ends if the host does nothing more (R103). -/
theorem State.Inv.endsIn_outlook {s : State} (h : s.Inv) (draw : Nat) : endsIn s draw (s.outlook draw) := by
  have h' : State.Inv { s with inputs := [], draws := draw } := h.bookkeeping [] s.hostData draw
  exact ⟨h'.runOn_idle_of_turnsLeft (State.turnsLeft_le _), h'.run_runOn rfl _⟩

end Sys2Proof.Machine
end

