-- ==== Sys2Proof/Proofs/EngineMemory.lean ====
section
/-! What the engine reads and writes of `Mem`: an encoder's block looks at four values (20_memory.md R46), a step changes
no byte outside its block, a command none that it has not written by its end (R45), and a byte written over a raced one is
kept for the host's reads (R51). -/

namespace Sys2Proof.Machine

open Sys2Proof.Claims

/-! ### What an ENCODE step looks at -/

theorem rawTest_iff (vs : List Word) : rawTest vs = true ↔ 4 ≤ vs.length ∧ ∀ v ∈ vs.take 4, v ≤ 0xFF := by
  rw [rawTest, Bool.and_eq_true, decide_eq_true_iff, List.all_eq_true]
  simp only [decide_eq_true_iff]
  rfl

theorem rawTest_take_four (vs : List Word) : rawTest (vs.take 4) = rawTest vs := by
  rw [Bool.eq_iff_iff, rawTest_iff, rawTest_iff, List.take_take, Nat.min_self]
  simp

/-- Settles O27: the fast-path test, the raw block and the coded block each take at most the first four values. -/
theorem encoderLooksAtFourValues : Obligations.EncoderLooksAtFourValues := by
  intro policy v vs
  have hraw : encRaw v (vs.take 4) = encRaw v vs := by cases v <;> simp [encRaw, List.take_take]
  have hcoded : encCoded policy v (vs.take 4) = encCoded policy v vs := by cases v <;> simp [encCoded, List.take_take]
  rw [encBlock, encBlock, rawTest_take_four, hraw, hcoded]

/-! ### What a step writes -/

/-- A move outside the RUN steps writes nothing (R45). -/
theorem EngineMove.mem_of_not_run {s t : State} (hm : EngineMove s t) (hp : s.eng.phase ≠ .run) : t.mem = s.mem := by
  cases hm with
  | illegal | classify | tableInit | startFails | startPasses => rfl
  | completes _ hrun | writesBlock _ _ hrun | writesValues _ _ hrun => exact absurd hrun hp

theorem State.Inv.mem_of_not_run {s t : State} (h : s.Inv) (hp : s.eng.phase ≠ .run) (ht : engineTurn s = .next t) :
    t.mem = s.mem := by
  rcases engineTurn_cases h ht with ⟨-, rfl⟩ | hm
  · rfl
  · exact hm.mem_of_not_run hp

/-- A RUN step of ENCODE changes only the stream bytes that its cursor passes (R45). -/
theorem BlockStep.frame_encode {s t : State} (hs : BlockStep s t) (hop : s.eng.op = .encode)
    (hcap : s.eng.p ≤ s.byteCap.toNat) :
    s.eng.p ≤ t.eng.p ∧ t.eng.p ≤ s.byteCap.toNat ∧
      memoryFrame s t (s.byteBase.toNat + s.eng.p) (t.eng.p - s.eng.p) := by
  cases hs with
  | completes e => exact ⟨Nat.le_refl _, hcap, fun _ _ => rfl⟩
  | encodes block k _ _ hfit =>
    refine ⟨Nat.le_add_right _ _, hfit, ?_⟩
    rw [State.putBlock_eng, Nat.add_sub_cancel_left]
    exact fun a ha => s.read_putBlock_outside ha
  | decodes _ _ hdec => exact absurd (hop.symm.trans hdec) (by decide)

/-- A RUN step of DECODE changes only the value words that its cursor passes (R45). -/
theorem BlockStep.frame_decode {s t : State} (hs : BlockStep s t) (hop : s.eng.op = .decode) (hi : s.eng.i ≤ s.n) :
    s.eng.i ≤ t.eng.i ∧ t.eng.i ≤ s.valCount.toNat ∧
      memoryFrame s t (s.valBase.toNat + 4 * s.eng.i) (4 * (t.eng.i - s.eng.i)) := by
  cases hs with
  | completes e => exact ⟨Nat.le_refl _, hi, fun _ _ => rfl⟩
  | encodes _ _ henc => exact absurd (hop.symm.trans henc) (by decide)
  | decodes values len _ _ _ _ hiv =>
    refine ⟨Nat.le_add_right _ _, hiv, ?_⟩
    rw [State.putValues_eng, Nat.add_sub_cancel_left]
    exact fun a ha => s.read_putValues_outside ha

/-- Settles O48: outside the RUN steps nothing is written, and a RUN step writes its block only. -/
theorem engineWritesOnlyItsBlock : Obligations.EngineWritesOnlyItsBlock := by
  rintro s t h ⟨hin, ht⟩
  rw [step_of_no_input hin] at ht
  refine ⟨fun hp => h.mem_of_not_run hp ht, fun hp hop => ?_, fun hp hop => ?_⟩
  · obtain ⟨-, -, -, -, -, -, -, -, -, hcap⟩ := h.running hp
    exact (h.blockStep hp ht).frame_encode hop hcap
  · obtain ⟨-, -, -, -, -, -, -, -, hi, -⟩ := h.running hp
    exact (h.blockStep hp ht).frame_decode hop hi

/-! ### What a step writes over a race (R51) -/

theorem raced_iff {s : State} {a : Nat} : raced s a ↔ s.racedBytes a ≠ [] := by
  simp [raced, List.eq_nil_iff_forall_not_mem]

/-- Each byte of the engine's write stands in `Mem`, or the host's racing byte does and the engine's is on record. -/
theorem engineWrites_engWriteBytes {s t : State} {a : Nat} {bs : List Byte} (hwf : Memory.wf s.mem = true)
    (hmem : t.mem = s.engWriteBytes s.mem a bs) (hrace : t.race = s.engRaceBytes a bs) {j : Nat} {b : Byte}
    (hj : bs[j]? = some b) : engineWrites s t (a + j) b := by
  rw [engineWrites, raced_iff, hmem, hrace]
  exact ⟨s.read_engWriteBytes_inside a hwf hj,
    fun hr => State.mem_engRaceBytes.2 (.inr ⟨hr, Nat.le_add_right _ _, by simpa using hj⟩)⟩

theorem BlockStep.engineWrites_encode {s t : State} (hs : BlockStep s t) (hwf : Memory.wf s.mem = true)
    (hop : s.eng.op = .encode) (ht : t.eng.phase = .run) {block : List Byte} {k : Nat}
    (hb : encBlock s.cfg.ffPolicy s.eng.variant s.nextValues = .ok (block, k)) {j : Nat} {b : Byte}
    (hj : block[j]? = some b) : engineWrites s t (s.byteAddr + j) b := by
  cases hs with
  | completes e => cases ht
  | encodes block' k' _ hb' =>
    obtain ⟨rfl, rfl⟩ : block = block' ∧ k = k' := by simpa using hb.symm.trans hb'
    exact engineWrites_engWriteBytes hwf rfl rfl hj
  | decodes _ _ hdec => exact absurd (hop.symm.trans hdec) (by decide)

theorem BlockStep.engineWrites_decode {s t : State} (hs : BlockStep s t) (hwf : Memory.wf s.mem = true)
    (hop : s.eng.op = .decode) (ht : t.eng.phase = .run) {values : List Word} {len : Nat}
    (hd : decBlock s.eng.variant s.stream s.rem = .ok (values, len)) {j : Nat} {b : Byte}
    (hj : (values.flatMap fun v => leBytes v 4)[j]? = some b) : engineWrites s t (s.valAddr + j) b := by
  cases hs with
  | completes e => cases ht
  | encodes _ _ henc => exact absurd (hop.symm.trans henc) (by decide)
  | decodes values' len' _ hd' =>
    obtain ⟨rfl, rfl⟩ : values = values' ∧ len = len' := by simpa using hd.symm.trans hd'
    exact engineWrites_engWriteBytes hwf rfl rfl hj

/-! ### What a command writes by its end (R45) -/

/-- A codec row is what `codecOp` says of its instruction. -/
theorem codecOp_of_codecRow {row : Instr × EngOp × Variant × Bool} (h : row ∈ codecRows) :
    ∃ b, codecOp row.1 = some (row.2.1, row.2.2.1, b) := by
  simp only [codecRows, decodeRows, List.map, List.cons_append, List.nil_append, List.mem_cons, List.not_mem_nil,
    or_false] at h
  rcases h with rfl | rfl | rfl | rfl | rfl | rfl | rfl | rfl | rfl | rfl | rfl | rfl <;> exact ⟨_, rfl⟩

/-- The bytes a command has written at the cursors of `u`, by its operation (R45). -/
theorem writtenAt_iff {s : State} {op : EngOp} {v : Variant} {b : Bool}
    (hc : codecOp (decodeCmd s.eng.w) = some (op, v, b)) (u : State) (a : Nat) :
    writtenAt s u a ↔
      if op = .encode then s.byteBase.toNat ≤ a ∧ a < s.byteBase.toNat + u.eng.p
      else s.valBase.toNat ≤ a ∧ a < s.valBase.toNat + 4 * u.eng.i := by
  have hrowOp : ∀ row ∈ codecRows, decodeCmd s.eng.w = row.1 → row.2.1 = op := fun row hrow hw => by
    obtain ⟨b', hb'⟩ := codecOp_of_codecRow hrow
    rw [hw, hb'] at hc
    cases hc
    rfl
  constructor
  · rintro ⟨row, hrow, hw, ha⟩
    rwa [hrowOp row hrow hw] at ha
  · intro ha
    obtain ⟨row, hrow, hw⟩ := exists_codecRow_of_codecOp hc
    exact ⟨row, hrow, hw, by rwa [hrowOp row hrow hw]⟩

/-- Between two states with one command and one pair of buffers `writtenAt` does not tell. -/
theorem writtenAt_congr {s u : State} (hw : u.eng.w = s.eng.w) (hops : operandsKept s u) (t : State) (a : Nat) :
    writtenAt s t a ↔ writtenAt u t a := by
  obtain ⟨-, hvb, -, hbb, -⟩ := hops
  simp only [writtenAt, hw, hvb, hbb]

/-- In its RUN steps a command has written the bytes below its own cursors. -/
theorem State.Inv.writtenAt_self {s : State} (h : s.Inv) (hp : s.eng.phase = .run) (a : Nat) :
    writtenAt s s a ↔ s.engineWrote a = true := by
  obtain ⟨op, v, b, hc, -⟩ := h.running hp
  rw [writtenAt_iff hc]
  rcases codecOp_isCodec hc with ⟨rfl, -⟩ | rfl <;> simp [State.engineWrote, hp, hc]

theorem State.engineWrote_of_not_run {s : State} (hp : s.eng.phase ≠ .run) (a : Nat) : s.engineWrote a = false := by
  simp [State.engineWrote, hp]

/-- A turn leaves a byte that is not written at its end, and that byte was not written before it. -/
theorem State.Inv.turn_frame {s t : State} (h : s.Inv) (ht : engineTurn s = .next t) {a : Nat}
    (ha : ¬writtenAt s t a) : Memory.read t.mem a = Memory.read s.mem a ∧ s.engineWrote a = false := by
  by_cases hp : s.eng.phase = .run
  · obtain ⟨op, v, b, hc, hop, -, -, -, hi, hcap⟩ := h.running hp
    rw [writtenAt_iff hc] at ha
    rcases codecOp_isCodec hc with ⟨rfl, -⟩ | rfl
    · obtain ⟨hle, -, hframe⟩ := (h.blockStep hp ht).frame_encode hop hcap
      simp only [if_true, State.tick_eng, State.tick_byteBase] at ha hle hframe
      exact ⟨hframe a (by omega), (State.engineWrote_encode hp hc a).2 (by omega)⟩
    · obtain ⟨hle, -, hframe⟩ := (h.blockStep hp ht).frame_decode hop hi
      simp only [reduceCtorEq, if_false, State.tick_eng, State.tick_valBase] at ha hle hframe
      exact ⟨hframe a (by omega), (State.engineWrote_decode hp hc a).2 (by omega)⟩
  · rw [h.mem_of_not_run hp ht]
    exact ⟨rfl, s.engineWrote_of_not_run hp a⟩

/-- `u` runs the command of `s`, and what is not written at its cursors is as in `s`, where it was not written
either. -/
def State.keepsUnwritten (s u : State) : Prop :=
  u.eng.w = s.eng.w ∧
    ∀ a, ¬writtenAt s u a → Memory.read u.mem a = Memory.read s.mem a ∧ s.engineWrote a = false

theorem State.keepsUnwritten.turn {s u t : State} (hkeeps : s.keepsUnwritten u) (hu : s.underway u)
    (ht : engineTurn u = .next t) : s.keepsUnwritten t := by
  obtain ⟨hinv, hstart, -, hops⟩ := hu
  obtain ⟨hw, hkept⟩ := hkeeps
  by_cases hp : u.eng.phase = .idle
  · rw [engineTurn_idle hp] at ht
    cases ht
    exact ⟨hw, hkept⟩
  · have hrun : u.eng.phase = .run := by
      cases hphase : u.eng.phase with
      | idle => exact absurd hphase hp
      | start => exact absurd hphase hstart
      | run => rfl
    refine ⟨(hinv.inputs_word_turn ht).2.trans hw, fun a ha => ?_⟩
    obtain ⟨hread, hwrote⟩ := hinv.turn_frame ht (mt (writtenAt_congr hw hops t a).2 ha)
    have hnot : ¬writtenAt s u a := by
      rw [writtenAt_congr hw hops, hinv.writtenAt_self hrun, hwrote]
      decide
    exact ⟨hread.trans (hkept a hnot).1, (hkept a hnot).2⟩

/-- A byte that a command has not written by its end stands there as it does now, and is not yet written (R45). -/
theorem State.Inv.outlook_frame {s : State} (h : s.Inv) (hb : s.status.busy = true) (draw : Nat) {a : Nat}
    (ha : ¬writtenAt s (s.outlook draw) a) :
    Memory.read (s.outlook draw).mem a = Memory.read s.mem a ∧ s.engineWrote a = false := by
  have hp := h.busyIffRunning.1 hb
  have h' : State.Inv { s with inputs := [], draws := draw } := h.bookkeeping [] s.hostData draw
  obtain ⟨t, ht, -⟩ := engineTurn_keepsOperands { s with inputs := [], draws := draw }
  have hfirst : s.underway t ∧ s.keepsUnwritten t :=
    ⟨engineTurn_underway (s := { s with inputs := [], draws := draw }) h' hp ht,
      (h'.inputs_word_turn ht).2, fun a ha => h'.turn_frame ht ha⟩
  have hlast : s.underway (s.outlook draw) ∧ s.keepsUnwritten (s.outlook draw) := by
    rw [State.outlook, State.runOn, if_neg hp, ht]
    exact State.runOn_keeps (P := fun u => s.underway u ∧ s.keepsUnwritten u)
      (fun _ _ ⟨hu, hkeeps⟩ hturn => ⟨hu.turn hturn, hkeeps.turn hu hturn⟩) _ hfirst
  obtain ⟨-, -, hkept⟩ := hlast
  exact hkept a ha

end Sys2Proof.Machine
end

