-- ==== Sys2Proof/Proofs/HostMemory.lean ====
section
/-! The host's accesses to `Mem`: plain while no command runs (20_memory.md R41, R44), and by R51 while one does. -/

namespace Sys2Proof.Machine

open Sys2Proof.Claims

/-! ### The accesses below 2^32 -/

theorem step_memWrite_of_le (s : State) (rest : List Input) {size : AccessSize} {addr : Nat} (v : Word)
    (h : addr + size.bytes ≤ 2 ^ 32) :
    step { s with inputs := .memWrite size addr v :: rest } =
      .next ((after s rest).hostWriteBytes addr (leBytes v size.bytes)) :=
  (step_of_memWrite rfl).trans (by exact if_neg (Nat.not_lt.2 h))

theorem step_memRead_of_le (s : State) (rest : List Input) {size : AccessSize} {addr : Nat}
    (h : addr + size.bytes ≤ 2 ^ 32) :
    step { s with inputs := .memRead size addr :: rest } =
      .next { after s rest with hostData := leValue ((after s rest).hostReadBytes addr size.bytes) } :=
  (step_of_memRead rfl).trans (by exact if_neg (Nat.not_lt.2 h))

/-- Settles O52: with BUSY = 0 the host's write and read are those of `Mem`. -/
theorem hostMemoryAccessWhileIdle : Obligations.HostMemoryAccessWhileIdle := by
  intro s rest size addr v hb hwf hspace
  have hlen : (leBytes v size.bytes).length = size.bytes := length_leBytes v _
  refine ⟨⟨_, step_memWrite_of_le s rest v hspace, ?_⟩, ?_⟩
  · rw [State.hostWriteBytes_idle (s := after s rest) hb]
    refine ⟨rfl, ?_, fun a ha => Memory.read_writeBytes_outside (by rwa [hlen])⟩
    have hread := Memory.readBytes_writeBytes addr (leBytes v size.bytes) hwf
    rwa [hlen] at hread
  · rw [step_memRead_of_le s rest hspace, State.hostReadBytes_idle (s := after s rest) hb]
    rfl

/-! ### A host write while a command runs (R51) -/

theorem ownsBuffers_of_codecRow {s : State} {row : Instr × EngOp × Variant × Bool} (hrow : row ∈ codecRows)
    (hb : s.status.busy = true) (hw : decodeCmd s.eng.w = row.1) : s.ownsBuffers = true := by
  obtain ⟨b, hc⟩ := codecOp_of_codecRow hrow
  simp [State.ownsBuffers, hb, hw, hc]

theorem State.inOutputBuffer_encode {s : State} {v : Variant} {b : Bool}
    (hc : codecOp (decodeCmd s.eng.w) = some (.encode, v, b)) (a : Nat) : s.inOutputBuffer a = s.inBB a := by
  rw [State.inOutputBuffer, hc]

theorem State.inOutputBuffer_decode {s : State} {v : Variant} {b : Bool}
    (hc : codecOp (decodeCmd s.eng.w) = some (.decode, v, b)) (a : Nat) : s.inOutputBuffer a = s.inVB a := by
  rw [State.inOutputBuffer, hc]

/-- Outside the buffer that the command writes the engine has written nothing (R38, R45). -/
theorem State.Inv.engineWrote_of_not_inOutputBuffer {s : State} (h : s.Inv) {a : Nat}
    (ha : s.inOutputBuffer a = false) : s.engineWrote a = false := by
  by_cases hp : s.eng.phase = .run
  · obtain ⟨op, v, b, hc, -, -, -, -, hi, hcap⟩ := h.running hp
    rcases codecOp_isCodec hc with ⟨rfl, -⟩ | rfl
    · rw [State.inOutputBuffer_encode hc, State.inBB, Bool.and_eq_false_iff, decide_eq_false_iff_not,
        decide_eq_false_iff_not] at ha
      rw [State.engineWrote_encode hp hc]
      omega
    · rw [State.inOutputBuffer_decode hc, State.inVB, Bool.and_eq_false_iff, decide_eq_false_iff_not,
        decide_eq_false_iff_not] at ha
      rw [State.engineWrote_decode hp hc]
      omega
  · exact s.engineWrote_of_not_run hp a

/-- A host byte write to a buffer of the running command: the byte stands in `Mem` or, over one the engine has written,
the engine's does, and the race record takes both. -/
theorem step_memWrite_raced {s : State} (rest : List Input) {addr : Nat} (v : Word) (hspace : addr < 2 ^ 32)
    (howns : s.ownsBuffers = true) (hbuf : (s.inVB addr || s.inBB addr) = true) :
    ∃ w, (w = v.extractLsb' 0 8 ∨ (s.engineWrote addr = true ∧ w = Memory.read s.mem addr)) ∧
      step { s with inputs := .memWrite .byte addr v :: rest } =
        .next { after s rest with
          mem := Memory.write s.mem addr w
          race := (addr, v.extractLsb' 0 8) :: (addr, Memory.read s.mem addr) :: s.race } := by
  rw [step_memWrite_of_le (size := .byte) s rest v hspace]
  rcases (after s rest).hostWriteByte_cases addr (v.extractLsb' 0 8) with ⟨hout, -⟩ | ⟨-, w, hw, heq⟩
  · have hin : (s.ownsBuffers && (s.inVB addr || s.inBB addr)) = true := by rw [howns, hbuf]; rfl
    exact absurd (hin.symm.trans hout) (by decide)
  · exact ⟨w, hw, congrArg Host.Outcome.next heq⟩

/-- Settles O53: the first race on a byte that the command reads keeps the old byte and the new one for the engine's
reads. -/
theorem racedByteReadsOldOrNew : Obligations.RacedByteReadsOldOrNew := by
  intro s rest addr v row hrow h hrace hb hw hspace hin
  obtain ⟨b, hc⟩ := codecOp_of_codecRow hrow
  rw [← hw] at hc
  obtain ⟨hbuf, hinput⟩ : (s.inVB addr || s.inBB addr) = true ∧ s.inOutputBuffer addr = false := by
    rcases codecOp_isCodec hc with ⟨hop, -⟩ | hop <;> rw [hop] at hin hc
    · obtain ⟨hvb, hbb⟩ := hin
      exact ⟨by rw [hvb, Bool.true_or], (State.inOutputBuffer_encode hc addr).trans hbb⟩
    · obtain ⟨hbb, hvb⟩ := hin
      exact ⟨by rw [hbb, Bool.or_true], (State.inOutputBuffer_decode hc addr).trans hvb⟩
  obtain ⟨w, hstands, hstep⟩ := step_memWrite_raced rest v hspace (ownsBuffers_of_codecRow hrow hb hw) hbuf
  rcases hstands with rfl | ⟨hwrote, -⟩
  · refine ⟨_, hstep, Memory.read_write_same h.memWf, fun a ha => Memory.read_write_other (by omega), fun d => ?_⟩
    have hread := State.engRead_mem_candidates { after s rest with
      mem := Memory.write s.mem addr (v.extractLsb' 0 8)
      race := (addr, v.extractLsb' 0 8) :: (addr, Memory.read s.mem addr) :: s.race
      draws := d } addr
    simpa [State.racedBytes, hrace, Memory.read_write_same h.memWf] using hread
  · exact absurd (hwrote.symm.trans (h.engineWrote_of_not_inOutputBuffer hinput)) (by decide)

/-- Settles O55: the engine's bytes by `BlockStep`, the host's by the race that its write makes. -/
theorem racedWritesKeepEitherByte : Obligations.RacedWritesKeepEitherByte := by
  refine ⟨fun s t h hstep hp ht => ?_, fun s rest addr v row hrow h hb hw hspace hbuf => ?_⟩
  · obtain ⟨hin, hturn⟩ := hstep
    rw [step_of_no_input hin] at hturn
    have hs := h.blockStep hp hturn
    exact ⟨fun hop _ _ hblock _ _ hj => hs.engineWrites_encode h.memWf hop ht hblock hj,
      fun hop _ _ hvalues _ _ hj => hs.engineWrites_decode h.memWf hop ht hvalues hj⟩
  · obtain ⟨w, hstands, hstep⟩ :=
      step_memWrite_raced rest v hspace (ownsBuffers_of_codecRow hrow hb hw) (by simpa using hbuf)
    refine ⟨_, hstep, fun a ha => Memory.read_write_other (by omega), ?_, by simp, by simp⟩
    rcases hstands with rfl | ⟨hwrote, rfl⟩
    · exact .inl (Memory.read_write_same h.memWf)
    · have hp : s.eng.phase = .run := by
        by_contra hp
        rw [s.engineWrote_of_not_run hp] at hwrote
        cases hwrote
      exact .inr ⟨hp, (h.writtenAt_self hp addr).2 hwrote, Memory.read_write_same h.memWf⟩

/-! ### A host read while a command runs (R51) -/

/-- Outside the buffers of a running ENCODE or DECODE a host read is the byte of `Mem`. -/
theorem State.hostReadByte_outside {s : State} {a : Nat} (h : (s.ownsBuffers && (s.inVB a || s.inBB a)) = false) :
    s.hostReadByte a = Memory.read s.mem a := by
  rw [State.hostReadByte, h, if_neg Bool.false_ne_true]

theorem State.Inv.hostMayRead_hostReadByte {s : State} (h : s.Inv) (a : Nat) : hostMayRead s a (s.hostReadByte a) := by
  rcases s.hostReadByte_cases a with hmem | ⟨hbuf, hfrom⟩
  · exact .inl hmem
  · refine .inr ⟨by simpa using hbuf, ?_⟩
    rcases hfrom with hbefore | hrace | hend
    · exact .inl hbefore
    · exact .inr (.inl (State.mem_racedBytes.1 hrace))
    · exact .inr (.inr ⟨_, _, h.endsIn_outlook _, hend⟩)

/-- A byte that no race has met and that the command does not write by its end reads as it stands. -/
theorem State.Inv.hostReadByte_of_not_written {s : State} (h : s.Inv) (hb : s.status.busy = true) (hrace : s.race = [])
    {a : Nat} (ha : ∀ draw u, endsIn s draw u → ¬writtenAt s u a) : s.hostReadByte a = Memory.read s.mem a := by
  cases hin : s.ownsBuffers && (s.inVB a || s.inBB a) with
  | false => exact State.hostReadByte_outside hin
  | true =>
    obtain ⟨howns, hbuf⟩ := Bool.and_eq_true_iff.1 hin
    have hnone : s.racedBytes a = [] := by simp [State.racedBytes, hrace]
    obtain ⟨hend, hwrote⟩ := h.outlook_frame hb _ (ha _ _ (h.endsIn_outlook (Config.freeRun s.draws a)))
    exact State.hostReadByte_settled (h.beforeKept howns a hbuf hnone hwrote) hend hnone

/-- Settles O54: each byte by what `hostReadByte` draws from, the look-ahead being where the command ends. -/
theorem hostReadsWhileBusy : Obligations.HostReadsWhileBusy := by
  intro s rest size addr h hb hspace
  have hafter : (after s rest).Inv := h.bookkeeping rest s.hostData _
  refine ⟨_, State.length_hostReadBytes _ addr _, step_memRead_of_le s rest hspace, fun k b hk => ?_⟩
  have hlt : k < size.bytes := by simpa using (List.getElem?_eq_some_iff.1 hk).1
  rw [State.getElem?_hostReadBytes _ hlt, Option.some.injEq] at hk
  subst hk
  exact ⟨hafter.hostMayRead_hostReadByte (addr + k), fun hrace ha => hafter.hostReadByte_of_not_written hb hrace ha⟩

end Sys2Proof.Machine
end

