-- ==== Sys2Proof/Proofs/Encoding.lean ====
section
/-! The decoder and the encoder are inverse: a header byte decodes to the row its class gives (`classRow`), and a
command word is ILLEGAL exactly off the list of R58 (30_encoding.md R56 to R65). With them the expansions of R69 and
R70. -/

namespace Sys2Proof.Machine

open Sys2Proof.Laws

/-! ### The ranges of R65 -/

/-- The bits that a nibble descriptor does not use are clear exactly on these ranges. -/
theorem nibbleBits_clear_iff : ∀ h : Byte, h &&& 0xCC = 0 ↔
    h.toNat ≤ 0x03 ∨ (0x10 ≤ h.toNat ∧ h.toNat ≤ 0x13) ∨ (0x20 ≤ h.toNat ∧ h.toNat ≤ 0x23) ∨
      (0x30 ≤ h.toNat ∧ h.toNat ≤ 0x33) := by decide +kernel

theorem rawHi_mask_iff : ∀ h : Byte, h &&& 0x80 = 0x80 ↔ ¬h.toNat ≤ 0x7F := by decide +kernel

theorem rawLo_mask_iff : ∀ h : Byte, h &&& 0xC0 = 0x40 ↔ 0x40 ≤ h.toNat ∧ h.toNat ≤ 0x7F := by decide +kernel

/-! ### The row of a header's class -/

/-- The row of the opcode table for a header `h` of a class in a variant (R65); BASIC4 has no MALFORMED row. -/
def classRow (h : Byte) : Variant → HdrClass → Option Instr
  | .basic4, .raw => some .b4Raw
  | .basic4, .coded =>
    some (.b4Coded (h.extractLsb' 0 2) (h.extractLsb' 2 2) (h.extractLsb' 4 2) (h.extractLsb' 6 2))
  | .basic4, .malformed => none
  | .headerlessNib, .raw =>
    some (if h.toNat ≤ 0x7F then .hnRawLo (h.extractLsb' 0 6) else .hnRawHi (h.extractLsb' 0 7))
  | .headerlessNib, .coded => some (.hnCoded (h.extractLsb' 0 2) (h.extractLsb' 4 2))
  | .headerlessNib, .malformed => some (.hnMalformed h)
  | .sentinelNib, .raw => some .snRaw
  | .sentinelNib, .coded => some (.snCoded (h.extractLsb' 0 2) (h.extractLsb' 4 2))
  | .sentinelNib, .malformed => some (.snMalformed h)
  | .tableNib, .raw => some .tnRaw
  | .tableNib, .coded => some (.tnCoded (h.extractLsb' 0 2) (h.extractLsb' 4 2))
  | .tableNib, .malformed => some (.tnMalformed h)

/-- The decoder gives the row of the header's class. -/
theorem classRow_hdrClass (v : Variant) (h : Byte) : classRow h v (hdrClass v h) = some (decodeHdr v h) := by
  cases v with
  | basic4 =>
    simp only [hdrClass, decodeHdr]
    split <;> rfl
  | headerlessNib =>
    simp only [hdrClass, decodeHdr, rawHi_mask_iff, rawLo_mask_iff, BitVec.le_def, BitVec.reduceToNat]
    by_cases hraw : 0x40 ≤ h.toNat
    · by_cases hlo : h.toNat ≤ 0x7F <;> simp [classRow, hraw, hlo]
    · have hlo : h.toNat ≤ 0x7F := by omega
      simp only [hraw, hlo, not_true, false_and, if_false]
      split <;> rfl
  | sentinelNib | tableNib =>
    simp only [hdrClass, decodeHdr]
    split
    · rfl
    · split <;> rfl

theorem decodeHdr_eq_iff {v : Variant} {h : Byte} {i : Instr} :
    decodeHdr v h = i ↔ classRow h v (hdrClass v h) = some i := by
  rw [classRow_hdrClass, Option.some.injEq]

/-- A row belongs to one class of one variant. -/
theorem mapOf_of_classRow {v : Variant} {h : Byte} {c : HdrClass} {i : Instr} (hrow : classRow h v c = some i) :
    mapOf i = (true, some (v, c)) := by
  cases v <;> cases c
  case basic4.malformed => cases hrow
  case headerlessNib.raw =>
    obtain rfl := Option.some.inj hrow
    split <;> rfl
  all_goals
    cases hrow
    rfl

/-- A header has a class exactly when the decoder gives that class's row. -/
theorem hdrClass_eq_iff {v : Variant} {h : Byte} {c : HdrClass} {i : Instr} (hrow : classRow h v c = some i) :
    hdrClass v h = c ↔ decodeHdr v h = i := by
  constructor
  · rintro rfl
    exact decodeHdr_eq_iff.2 hrow
  · intro hd
    have hmap := (mapOf_of_classRow (decodeHdr_eq_iff.1 hd)).symm.trans (mapOf_of_classRow hrow)
    simpa using hmap

theorem classRow_hnRawLo_iff {h : Byte} {c : HdrClass} :
    classRow h .headerlessNib c = some (.hnRawLo (h.extractLsb' 0 6)) ↔ c = .raw ∧ h.toNat ≤ 0x7F := by
  cases c <;> simp [classRow]

theorem classRow_hnRawHi_iff {h : Byte} {c : HdrClass} :
    classRow h .headerlessNib c = some (.hnRawHi (h.extractLsb' 0 7)) ↔ c = .raw ∧ 0x80 ≤ h.toNat := by
  cases c <;> simp [classRow, Nat.lt_iff_add_one_le]

/-- Settles O4: the classes by the ranges of their tests, the rows by `classRow`. -/
theorem headerBytesFallInTheirClasses : Obligations.HeaderBytesFallInTheirClasses := by
  intro h
  refine ⟨?_, ?_, ?_, ?_, hdrClass_eq_iff rfl, hdrClass_eq_iff rfl,
    classRow_hnRawLo_iff.symm.trans decodeHdr_eq_iff.symm, classRow_hnRawHi_iff.symm.trans decodeHdr_eq_iff.symm,
    hdrClass_eq_iff rfl, hdrClass_eq_iff rfl, hdrClass_eq_iff rfl, hdrClass_eq_iff rfl, hdrClass_eq_iff rfl,
    hdrClass_eq_iff rfl, hdrClass_eq_iff rfl, hdrClass_eq_iff rfl⟩
  · simp only [hdrClass, ← BitVec.toNat_inj, BitVec.reduceToNat]
  · simp only [hdrClass, BitVec.le_def, BitVec.reduceToNat, nibbleBits_clear_iff]
  · simp only [hdrClass, nibbleBits_clear_iff, ← BitVec.toNat_inj (x := h), BitVec.reduceToNat]
  · simp only [hdrClass, nibbleBits_clear_iff, ← BitVec.toNat_inj (x := h), BitVec.reduceToNat]

/-! ### Decode of encode -/

/-- Bits that lie in the class of a row, with the row's operands as their fields, decode to it. -/
theorem decodeHdr_of_liesIn {v : Variant} {h : Byte} {c : HdrClass} {i : Instr} {legal : Bool}
    (hmap : liesIn (legal, some (v, c)) (.hdr v h)) (hrow : classRow h v c = some i) : decodeHdr v h = i := by
  have hc : hdrClass v h = c := by simpa [liesIn, eq_comm] using hmap
  exact (hdrClass_eq_iff hrow).1 hc

/-- The fields of a BASIC4 descriptor are its LengthCodes (R60, R61). -/
theorem b4Descriptor_fields : ∀ c0 c1 c2 c3 : LengthCode,
    (b4Descriptor c0 c1 c2 c3).extractLsb' 0 2 = c0 ∧ (b4Descriptor c0 c1 c2 c3).extractLsb' 2 2 = c1 ∧
      (b4Descriptor c0 c1 c2 c3).extractLsb' 4 2 = c2 ∧ (b4Descriptor c0 c1 c2 c3).extractLsb' 6 2 = c3 := by
  decide +kernel

/-- The fields of a nibble descriptor are its LengthCodes (R60, R62). -/
theorem nibDescriptor_fields : ∀ c0 c1 : LengthCode,
    (nibDescriptor c0 c1).extractLsb' 0 2 = c0 ∧ (nibDescriptor c0 c1).extractLsb' 4 2 = c1 := by decide +kernel

theorem rawLo_literal_fields : ∀ x : BitVec 6,
    (0x40 ||| x.setWidth 8 : Byte).toNat ≤ 0x7F ∧ (0x40 ||| x.setWidth 8 : Byte).extractLsb' 0 6 = x := by
  decide +kernel

theorem rawHi_literal_fields : ∀ x : BitVec 7,
    ¬(0x80 ||| x.setWidth 8 : Byte).toNat ≤ 0x7F ∧ (0x80 ||| x.setWidth 8 : Byte).extractLsb' 0 7 = x := by
  decide +kernel

/-- Settles O1: the bits of a header lie in its row's class (`OwnMap`), and its operands are the fields of its bits. -/
theorem decodeOfEncodeGivesTheInstruction : Obligations.DecodeOfEncodeGivesTheInstruction := by
  intro i hwf
  cases i with
  | illegal w => exact decodeCmd_illegal (by simpa [Instr.wellFormed] using hwf)
  | b4Coded c0 c1 c2 c3 =>
    obtain ⟨h0, h1, h2, h3⟩ := b4Descriptor_fields c0 c1 c2 c3
    exact decodeHdr_of_liesIn (OwnMap.b4Coded c0 c1 c2 c3 hwf) (by rw [classRow, h0, h1, h2, h3])
  | hnRawLo x =>
    obtain ⟨hlo, hx⟩ := rawLo_literal_fields x
    exact decodeHdr_of_liesIn (OwnMap.hnRawLo x hwf) (by rw [classRow, if_pos hlo, hx])
  | hnRawHi x =>
    obtain ⟨hhi, hx⟩ := rawHi_literal_fields x
    exact decodeHdr_of_liesIn (OwnMap.hnRawHi x hwf) (by rw [classRow, if_neg hhi, hx])
  | hnCoded c0 c1 =>
    obtain ⟨h0, h1⟩ := nibDescriptor_fields c0 c1
    exact decodeHdr_of_liesIn (OwnMap.hnCoded c0 c1 hwf) (by rw [classRow, h0, h1])
  | snCoded c0 c1 =>
    obtain ⟨h0, h1⟩ := nibDescriptor_fields c0 c1
    exact decodeHdr_of_liesIn (OwnMap.snCoded c0 c1 hwf) (by rw [classRow, h0, h1])
  | tnCoded c0 c1 =>
    obtain ⟨h0, h1⟩ := nibDescriptor_fields c0 c1
    exact decodeHdr_of_liesIn (OwnMap.tnCoded c0 c1 hwf) (by rw [classRow, h0, h1])
  | hnMalformed h => exact decodeHdr_of_liesIn (OwnMap.hnMalformed h hwf) rfl
  | snMalformed h => exact decodeHdr_of_liesIn (OwnMap.snMalformed h hwf) rfl
  | tnMalformed h => exact decodeHdr_of_liesIn (OwnMap.tnMalformed h hwf) rfl
  | _ => rfl

/-! ### Encode of decode -/

/-- Four codes 3 are the marker's, so every other descriptor is well-formed (R60, R65). -/
theorem wellFormed_b4Coded_of_ne_marker {h : Byte} (hne : h ≠ 0xFF) :
    (Instr.b4Coded (h.extractLsb' 0 2) (h.extractLsb' 2 2) (h.extractLsb' 4 2)
      (h.extractLsb' 6 2)).wellFormed = true := by
  by_contra hbad
  simp only [Instr.wellFormed, Bool.not_eq_true', Bool.not_eq_false, Bool.and_eq_true, beq_iff_eq] at hbad
  obtain ⟨⟨⟨h0, h1⟩, h2⟩, h3⟩ := hbad
  refine hne ?_
  rw [← b4Descriptor_codes h, h0, h1, h2, h3]
  rfl

theorem wellFormed_hnMalformed_of_bits : ∀ h : Byte, ¬0x40 ≤ h → ¬h &&& 0xCC = 0 →
    (Instr.hnMalformed h).wellFormed = true := by decide +kernel

/-- Every header byte has one meaning in its variant, and a well-formed one (R65). -/
theorem encode_decodeHdr (v : Variant) (h : Byte) :
    encode (decodeHdr v h) = .hdr v h ∧ (decodeHdr v h).wellFormed = true := by
  cases v with
  | basic4 =>
    by_cases hraw : h = 0xFF
    · subst hraw
      exact ⟨rfl, rfl⟩
    · rw [decodeHdr, if_neg hraw]
      exact ⟨congrArg (Code.hdr _) (b4Descriptor_codes h), wellFormed_b4Coded_of_ne_marker hraw⟩
  | headerlessNib =>
    by_cases hhi : h &&& 0x80 = 0x80
    · rw [decodeHdr, if_pos hhi]
      exact ⟨congrArg (Code.hdr _) (literal_of_rawHi h hhi).1, rfl⟩
    · by_cases hlo : h &&& 0xC0 = 0x40
      · rw [decodeHdr, if_neg hhi, if_pos hlo]
        exact ⟨congrArg (Code.hdr _) (literal_of_rawLo h hlo).1, rfl⟩
      · rw [decodeHdr, if_neg hhi, if_neg hlo]
        by_cases hlegal : h &&& 0xCC = 0
        · rw [if_pos hlegal]
          exact ⟨congrArg (Code.hdr _) (nibDescriptor_of_legal h hlegal), rfl⟩
        · rw [if_neg hlegal]
          exact ⟨rfl, wellFormed_hnMalformed_of_bits h (lt_of_neither_raw h hhi hlo) hlegal⟩
  | sentinelNib | tableNib =>
    by_cases hraw : h = 0xF0
    · subst hraw
      exact ⟨rfl, rfl⟩
    · rw [decodeHdr, if_neg hraw]
      by_cases hlegal : h &&& 0xCC = 0
      · rw [if_pos hlegal]
        exact ⟨congrArg (Code.hdr _) (nibDescriptor_of_legal h hlegal), rfl⟩
      · rw [if_neg hlegal]
        refine ⟨rfl, ?_⟩
        simpa only [Instr.wellFormed, Bool.and_eq_true, bne_iff_ne] using And.intro hraw hlegal

/-- What a test of the 17 words one by one shows holds of every legal word. -/
theorem forall_legalWords {P : Word → Prop} [DecidablePred P] (h : (legalWords.all fun w => decide (P w)) = true) :
    ∀ w ∈ legalWords, P w := by
  simpa using h

theorem decodeCmd_of_legal : ∀ w ∈ legalWords,
    encode (decodeCmd w) = .cmd w ∧ (decodeCmd w).wellFormed = true ∧ decodeCmd w ≠ .illegal w :=
  forall_legalWords (by decide +kernel)

theorem decodeCmd_eq_illegal_iff (w : Word) : decodeCmd w = .illegal w ↔ w ∉ legalWords := by
  refine ⟨fun hd hw => (decodeCmd_of_legal w hw).2.2 hd, fun hw => decodeCmd_illegal ?_⟩
  rwa [← cmdWordLegal_iff, Bool.not_eq_true] at hw

/-- Every command word has one meaning, and a well-formed one (R58). -/
theorem encode_decodeCmd (w : Word) : encode (decodeCmd w) = .cmd w ∧ (decodeCmd w).wellFormed = true := by
  by_cases hw : w ∈ legalWords
  · obtain ⟨hbits, hwf, -⟩ := decodeCmd_of_legal w hw
    exact ⟨hbits, hwf⟩
  · rw [(decodeCmd_eq_illegal_iff w).2 hw]
    rw [← cmdWordLegal_iff] at hw
    exact ⟨rfl, by simpa [Instr.wellFormed] using hw⟩

/-- Settles O2, for command words by the list of R58, for headers by the branches of the decoder. -/
theorem encodeOfDecodeGivesTheBits : Obligations.EncodeOfDecodeGivesTheBits
  | .cmd w => encode_decodeCmd w
  | .hdr v h => encode_decodeHdr v h

/-! ### Illegal words -/

/-- The legal words by the fields of R56 (R58). -/
def legalFields (w : Word) : Prop :=
  w.extractLsb' 7 25 = 0 ∧
    ((w.extractLsb' 0 4 = 1 ∧ w.getLsbD 6 = false) ∨ w.extractLsb' 0 4 = 2 ∨
      (w.extractLsb' 0 4 = 3 ∧ w.getLsbD 6 = false ∧ w.extractLsb' 4 2 = 0) ∨
      (w.extractLsb' 0 4 = 4 ∧ w.getLsbD 6 = false))

/-- With the reserved bits 0 a word is its low seven bits. -/
theorem eq_setWidth_of_reserved_eq_zero {w : Word} (h : w.extractLsb' 7 25 = 0) : w = (w.setWidth 7).setWidth 32 := by
  have hdiv : w.toNat / 2 ^ 7 % 2 ^ 25 = 0 := by
    rw [← Nat.shiftRight_eq_div_pow, ← BitVec.extractLsb'_toNat, h]
    rfl
  apply BitVec.eq_of_toNat_eq
  rw [BitVec.toNat_setWidth, BitVec.toNat_setWidth]
  omega

/-- R58 by fields is the list of legal words: with the reserved bits 0, the other seven bits decide. -/
theorem legalFields_iff (w : Word) : legalFields w ↔ w ∈ legalWords := by
  constructor
  · intro hl
    have low : ∀ x : BitVec 7, legalFields (x.setWidth 32) → x.setWidth 32 ∈ legalWords := by
      unfold legalFields
      decide +kernel
    have hlow := eq_setWidth_of_reserved_eq_zero hl.1
    rw [hlow] at hl ⊢
    exact low _ hl
  · revert w
    unfold legalFields
    exact forall_legalWords (by decide +kernel)

theorem cmdWordLegal_iff_masks (w : Word) : cmdWordLegal w = true ↔
    w &&& 0xFFFFFFCF = 0x00000001 ∨ w &&& 0xFFFFFF8F = 0x00000002 ∨ w = 0x00000003 ∨
      w &&& 0xFFFFFFCF = 0x00000004 := by
  simp only [cmdWordLegal, Bool.or_eq_true, beq_iff_eq, or_assoc]

/-- The START step of an illegal word ends the command (R58, R98, R102). -/
theorem step_start_illegal {s : State} (hin : s.inputs = []) (hp : s.eng.phase = .start) {w : Word}
    (hw : decodeCmd s.eng.w = .illegal w) : step s = .next (s.tick.loadIllegal.complete .illegalCmd) := by
  rw [step_of_no_input hin, engineTurn_busy (by simp [hp]),
    State.fetch_command (State.headerDue_start (s := s.tick) hp), State.tick_eng, hw, exec_illegal,
    execIllegal, runCommand_start (s := s.tick) hp]

/-- Settles O3: both forms of R58 are the list of legal words, off which `decodeCmd` gives ILLEGAL. -/
theorem illegalWordsAreThoseRule58DoesNotList : Obligations.IllegalWordsAreThoseRule58DoesNotList := by
  intro w
  have hillegal : decodeCmd w = .illegal w ↔ ¬legalFields w :=
    (decodeCmd_eq_illegal_iff w).trans (not_congr (legalFields_iff w).symm)
  refine ⟨hillegal, (legalFields_iff w).trans ((cmdWordLegal_iff w).symm.trans (cmdWordLegal_iff_masks w)), ?_⟩
  rintro s hin hp rfl hl
  exact ⟨_, step_start_illegal hin hp (hillegal.2 hl), rfl, rfl⟩

/-! ### The host's program -/

theorem issue_of_encode (cfg : Config) {i : Instr} {w : Word} (h : encode i = .cmd w) :
    issue cfg i = [.regWrite .word cfg.regBase w] := by
  rw [issue, cmdWord, h]
  rfl

/-- Settles O6: an instruction that encodes to a word issues that word to CMD, at offset 0 of the window. -/
theorem pseudoInstructionsExpand : Obligations.PseudoInstructionsExpand := by
  intro cfg
  refine ⟨fun p hp => issue_of_encode cfg ?_, fun i w h => ?_, fun vb n bb cap => rfl⟩
  · revert p
    decide
  · have hissue := issue_of_encode cfg h
    exact ⟨hissue, by rw [runCmd, hissue]; rfl⟩

end Sys2Proof.Machine
end

