-- ==== Sys2Proof/Proofs/Classifier.lean ====
section
/-! The Length Classifier and its command (40_classifier.md R72, R73): each LengthCode stands for one range of values, a
class is the least that holds its value, and CLASSIFY is the one word with OP = 3 that is legal. -/

namespace Sys2Proof.Machine

open Sys2Proof.Laws Sys2Proof.Claims

/-! ### The class boundaries -/

/-- R71 with the thresholds as numbers. -/
theorem classify_eq_ite_toNat (v : Word) : classify v =
    if v.toNat ≤ 0xFF then 0 else if v.toNat ≤ 0xFFFF then 1 else if v.toNat ≤ 0xFFFFFF then 2 else 3 := rfl

/-- The four ranges, one for each LengthCode (R71). -/
theorem classify_cases (v : Word) :
    (classify v = 0 ∧ v.toNat ≤ 0xFF) ∨ (classify v = 1 ∧ 0x100 ≤ v.toNat ∧ v.toNat ≤ 0xFFFF) ∨
      (classify v = 2 ∧ 0x10000 ≤ v.toNat ∧ v.toNat ≤ 0xFFFFFF) ∨ (classify v = 3 ∧ 0x1000000 ≤ v.toNat) := by
  rw [classify_eq_ite_toNat]
  split_ifs with h0 h1 h2
  · exact .inl ⟨rfl, h0⟩
  · exact .inr (.inl ⟨rfl, by omega, h1⟩)
  · exact .inr (.inr (.inl ⟨rfl, by omega, h2⟩))
  · exact .inr (.inr (.inr ⟨rfl, by omega⟩))

/-- The ranges are disjoint, so each characterises its class (R72). -/
theorem classify_boundaries (v : Word) :
    (classify v = 0 ↔ v.toNat ≤ 0xFF) ∧ (classify v = 1 ↔ 0x100 ≤ v.toNat ∧ v.toNat ≤ 0xFFFF) ∧
      (classify v = 2 ↔ 0x10000 ≤ v.toNat ∧ v.toNat ≤ 0xFFFFFF) ∧ (classify v = 3 ↔ 0x1000000 ≤ v.toNat) := by
  rcases classify_cases v with ⟨hc, hv⟩ | ⟨hc, hv⟩ | ⟨hc, hv⟩ | ⟨hc, hv⟩ <;>
    simp only [hc, BitVec.reduceEq, true_iff, false_iff] <;> omega

/-- A class above 0 is minimal: its value does not fit in one byte less (R72). -/
theorem le_toNat_of_classify_pos {v : Word} (hpos : 0 < (classify v).toNat) :
    2 ^ (8 * (classify v).toNat) ≤ v.toNat := by
  rcases classify_cases v with ⟨hc, -⟩ | ⟨hc, hv, -⟩ | ⟨hc, hv, -⟩ | ⟨hc, hv⟩ <;> rw [hc] at hpos ⊢
  · exact absurd hpos (by decide)
  · exact hv
  · exact hv
  · exact hv

/-- Were the class of the smaller value the greater one, that value would not fit in the class of the greater value, where
the greater value fits (R72). -/
theorem classify_mono {u v : Word} (h : u ≤ v) : classify u ≤ classify v := by
  rw [BitVec.le_def] at h ⊢
  by_contra hlt
  have hmin := le_toNat_of_classify_pos (v := u) (by omega)
  have hfits : v.toNat < 2 ^ (8 * ((classify v).toNat + 1)) := toNat_lt_of_classify v
  have hpow : 2 ^ (8 * ((classify v).toNat + 1)) ≤ 2 ^ (8 * (classify u).toNat) :=
    Nat.pow_le_pow_right (by decide) (by omega)
  omega

/-- Settles O18: monotone because minimal and sufficient, with the boundaries by the four ranges. -/
theorem classifierIsMonotoneMinimalAndExact : Obligations.ClassifierIsMonotoneMinimalAndExact :=
  ⟨fun _ _ => classify_mono,
    fun v => ⟨toNat_lt_of_classify v, leValue_leBytes v _ (toNat_lt_of_classify v), le_toNat_of_classify_pos⟩,
    classify_boundaries⟩

/-! ### The command -/

/-- The START step of CLASSIFY (R73). -/
theorem exec_classify_start {s : State} (hp : s.eng.phase = .start) : exec .classify s = .next
    (State.complete .none { s.load .classify .basic4 false with classOut := classify s.classIn }) := by
  rw [exec_classify, execClassify, runCommand_start hp]

/-- The START step of ILLEGAL, whatever its word (R58, R98). -/
theorem exec_illegal_start (w : Word) {s : State} (hp : s.eng.phase = .start) :
    exec (.illegal w) s = .next (s.loadIllegal.complete .illegalCmd) := by
  rw [exec_illegal, execIllegal, runCommand_start hp]

/-- CLASSIFY has one word: no other word with OP = 3 is on the list of R58. -/
theorem decodeCmd_illegal_of_op_three {w : Word} (hop : w.extractLsb' 0 4 = 3) (hw : w ≠ 3) :
    decodeCmd w = .illegal w := by
  have honly : ∀ x ∈ legalWords, x.extractLsb' 0 4 = 3 → x = 3 := forall_legalWords (by decide)
  exact (decodeCmd_eq_illegal_iff w).2 fun hmem => hw (honly w hmem hop)

/-- Settles O19: the START step of CLASSIFY with R71's thresholds as numbers, and that of ILLEGAL for every other word. -/
theorem classifyWritesClassOut : Obligations.ClassifyWritesClassOut := by
  intro s hp
  refine ⟨?_, fun w hop hw => ?_⟩
  · rw [exec_classify_start hp, classify_eq_ite_toNat]
    rfl
  · rw [decodeCmd_illegal_of_op_three hop hw, exec_illegal_start w hp]
    exact ⟨_, rfl, rfl, rfl⟩

end Sys2Proof.Machine
end

