-- ==== Sys2Proof/Proofs/EncodedBlocks.lean ====
section
/-! The blocks of the encoder (`EncodedBlock`): raw on the fast path, else coded, where the descriptor holds the
LengthCodes in its fields and the payload each value in its own byte count (41_basic4.md R74 to R77; 30_encoding.md
R60 to R62). -/

namespace Sys2Proof.Machine

open Sys2Proof.Claims

/-! ### The fast path -/

theorem rawTest_iff_fastPath (vs : List Word) : rawTest vs = true ↔ fastPath vs := rawTest_iff vs

theorem encBlock_of_fastPath {vs : List Word} (h : fastPath vs) (policy : FFPolicy) (v : Variant) :
    encBlock policy v vs = .ok (encRaw v vs, 4) := by
  rw [encBlock, if_pos ((rawTest_iff_fastPath vs).2 h)]
  rfl

theorem encBlock_of_not_fastPath {vs : List Word} (h : ¬fastPath vs) (policy : FFPolicy) (v : Variant) :
    encBlock policy v vs = encCoded policy v vs := by
  rw [encBlock, if_neg (mt (rawTest_iff_fastPath vs).1 h)]

/-! ### Descriptor and payload -/

/-- The low LengthCode of a descriptor. -/
theorem extractLsb'_or_shiftLeft_zero {stride : Nat} (hs : 2 ≤ stride) (c : LengthCode) (d : Byte) :
    (c.setWidth 8 ||| (d <<< stride)).extractLsb' 0 2 = c := by
  apply BitVec.eq_of_getLsbD_eq
  intro i hi
  simp [hi, show i < 8 by omega, show i < stride by omega]

/-- The further fields of a descriptor are those of the slots after the first, one stride up. -/
theorem extractLsb'_or_shiftLeft_succ {stride lo : Nat} (hs : 2 ≤ stride) (hlo : stride + lo + 2 ≤ 8) (c : LengthCode)
    (d : Byte) : (c.setWidth 8 ||| (d <<< stride)).extractLsb' (stride + lo) 2 = d.extractLsb' lo 2 := by
  apply BitVec.eq_of_getLsbD_eq
  intro i hi
  have hc : c.getLsbD (stride + lo + i) = false := BitVec.getLsbD_of_ge c _ (by omega)
  have hsub : stride + lo + i - stride = lo + i := by omega
  rw [BitVec.getLsbD_extractLsb', BitVec.getLsbD_or, BitVec.getLsbD_shiftLeft, BitVec.getLsbD_extractLsb',
    BitVec.getLsbD_setWidth, hc, hsub]
  simp [hi, show stride + lo + i < 8 by omega, show ¬stride + lo + i < stride by omega]

/-- Field k of a descriptor is the LengthCode of value k, 0 for an absent one (R60, R61, R62). -/
theorem descriptor_field {stride k : Nat} (hs : 2 ≤ stride) (hk : stride * k + 2 ≤ 8) (vs : List Word) :
    (descriptor stride vs).extractLsb' (stride * k) 2 = (vs[k]?.map classify).getD 0 := by
  induction vs generalizing k with
  | nil => simp [descriptor]
  | cons v vs ih =>
    cases k with
    | zero => exact extractLsb'_or_shiftLeft_zero hs (classify v) _
    | succ k =>
      rw [Nat.mul_succ] at hk
      rw [descriptor, Nat.mul_succ, Nat.add_comm, extractLsb'_or_shiftLeft_succ hs (by omega), ih (by omega),
        List.getElem?_cons_succ]

theorem payload_eq_flatMap (vs : List Word) :
    payload vs = vs.flatMap fun v => leBytes v ((classify v).toNat + 1) := by
  induction vs with
  | nil => rfl
  | cons v vs ih => rw [payload, ih, List.flatMap_cons, codeBytes]

/-! ### The marker collision of BASIC4 (R77) -/

theorem eq_marker_iff_fields : ∀ d : Byte, d = 0xFF ↔ ∀ k < 4, d.extractLsb' (2 * k) 2 = 3 := by decide +kernel

/-- The field of a slot is 3 when the slot holds a value of four bytes. -/
theorem getD_map_classify_eq_three_iff (o : Option Word) :
    (o.map classify).getD 0 = 3 ↔ ∃ v, o = some v ∧ 0x1000000 ≤ v.toNat := by
  cases o with
  | none => simp
  | some v =>
    obtain ⟨-, -, -, h3⟩ := classify_boundaries v
    simpa using h3

/-- A BASIC4 descriptor is the marker exactly for a full group of values of four bytes. -/
theorem descriptor_eq_marker_iff {group : List Word} (hlen : group.length ≤ 4) :
    descriptor 2 group = 0xFF ↔ group.length = 4 ∧ ∀ v ∈ group, 0x1000000 ≤ v.toNat := by
  have hfields : descriptor 2 group = 0xFF ↔ ∀ k < 4, ∃ v, group[k]? = some v ∧ 0x1000000 ≤ v.toNat := by
    rw [eq_marker_iff_fields]
    refine forall₂_congr fun k hk => ?_
    rw [descriptor_field (by decide) (by omega), getD_map_classify_eq_three_iff]
  rw [hfields]
  constructor
  · intro h
    obtain ⟨v, hv, -⟩ := h 3 (by decide)
    have hlast := (List.getElem?_eq_some_iff.1 hv).1
    refine ⟨by omega, fun v hv => ?_⟩
    obtain ⟨k, hk⟩ := List.mem_iff_getElem?.1 hv
    obtain ⟨w, hw, hbig⟩ := h k (lt_of_lt_of_le (List.getElem?_eq_some_iff.1 hk).1 hlen)
    rw [hk, Option.some.injEq] at hw
    exact hw ▸ hbig
  · rintro ⟨hfull, hbig⟩ k hk
    have hk : k < group.length := by omega
    exact ⟨group[k], List.getElem?_eq_getElem hk, hbig _ (List.getElem_mem hk)⟩

/-! ### What an encoded block is -/

/-- The distance between two LengthCode fields of a descriptor (R61, R62). -/
def codeStride : Variant → Nat
  | .basic4 => 2
  | .headerlessNib => 4
  | .sentinelNib => 4
  | .tableNib => 4

theorem two_le_codeStride (v : Variant) : 2 ≤ codeStride v := by cases v <;> decide

/-- The coded block of a variant on the values its group covers (R76, R82). -/
def codedBlock (v : Variant) (vs : List Word) : List Byte :=
  descriptor (codeStride v) (vs.take v.group) :: payload (vs.take v.group)

/-- What the encoder answers on `vs`: the raw block of four values, or the coded block of a group, whose descriptor is
not the marker in BASIC4 under FAULT (R74, R77, R84, R90). -/
inductive EncodedBlock (policy : FFPolicy) (v : Variant) (vs : List Word) : List Byte → Nat → Prop
  | raw : fastPath vs → EncodedBlock policy v vs (encRaw v vs) 4
  | coded : ¬fastPath vs → (v = .basic4 → policy = .fault → descriptor 2 (vs.take 4) ≠ 0xFF) →
      EncodedBlock policy v vs (codedBlock v vs) (min v.group vs.length)

theorem encodedBlock_of_encBlock {policy : FFPolicy} {v : Variant} {vs : List Word} {block : List Byte} {k : Nat}
    (h : encBlock policy v vs = .ok (block, k)) : EncodedBlock policy v vs block k := by
  by_cases hfast : fastPath vs
  · rw [encBlock_of_fastPath hfast] at h
    cases h
    exact .raw hfast
  · rw [encBlock_of_not_fastPath hfast] at h
    cases v with
    | basic4 =>
      rw [encCoded, encCodedB4, List.length_take] at h
      split at h
      · cases h
      · rename_i hno
        cases h
        exact .coded hfast fun _ hp hd =>
          hno ⟨List.length_take.symm.trans ((descriptor_eq_marker_iff (List.length_take_le 4 vs)).1 hd).1, hd, hp⟩
    | headerlessNib | sentinelNib | tableNib =>
      rw [encCoded, encCodedNib, List.length_take] at h
      cases h
      exact .coded hfast fun hv => by cases hv

/-- Settles O24: the raw block by the fast-path test, the coded block by its fields, the collision by the descriptor
that is the marker. -/
theorem basic4EncoderBlocks : Obligations.Basic4EncoderBlocks := by
  intro policy vs _
  refine ⟨fun h => encBlock_of_fastPath h policy .basic4, fun h => ?_⟩
  intro group collides
  have hmarker : descriptor 2 group = 0xFF ↔ collides := descriptor_eq_marker_iff (List.length_take_le 4 vs)
  have hcoded : encBlock policy .basic4 vs = encCodedB4 policy group := encBlock_of_not_fastPath h policy .basic4
  have herror : (group.length = 4 ∧ descriptor 2 group = Config.basicMarker ∧ policy = .fault) ↔
      collides ∧ policy = .fault :=
    ⟨fun ⟨_, hd, hp⟩ => ⟨hmarker.1 hd, hp⟩, fun ⟨hc, hp⟩ => ⟨hc.1, hmarker.2 hc, hp⟩⟩
  rw [hcoded, encCodedB4]
  refine ⟨fun hc hp => if_pos (herror.2 ⟨hc, hp⟩), fun hno => ⟨descriptor 2 group, ?_, fun k hk => ?_, hmarker⟩⟩
  · rw [if_neg (mt herror.1 hno), payload_eq_flatMap]
  · exact descriptor_field (by decide) (by omega) group

end Sys2Proof.Machine
end

