-- ==== Sys2Proof/Proofs/EncodedStreams.lean ====
section
/-! Encoded streams, block by block (`EncodedStream`): their lengths and bounds (41_basic4.md R81,
42_headerless_nibble.md R89, 43_sentinel_nibble.md R95). -/

namespace Sys2Proof.Machine

open Sys2Proof.Claims

/-! ### A stream is a list of encoded blocks -/

/-- The blocks of a stream that encodes `vs`: each is the encoder's block on the values left (R60, R104). -/
inductive EncodedStream (policy : FFPolicy) (v : Variant) : List Word → List (List Byte) → Prop
  | nil : EncodedStream policy v [] []
  | cons {vs : List Word} {block : List Byte} {k : Nat} {blocks : List (List Byte)} : vs ≠ [] → 1 ≤ k →
      k ≤ vs.length → EncodedBlock policy v vs block k → EncodedStream policy v (vs.drop k) blocks →
      EncodedStream policy v vs (block :: blocks)

theorem encodedStream_of_encodeBlocks {policy : FFPolicy} {v : Variant} {fuel : Nat} {vs : List Word}
    {blocks : List (List Byte)} (hfuel : vs.length ≤ fuel) (h : encodeBlocks policy v fuel vs = .ok blocks) :
    EncodedStream policy v vs blocks := by
  induction fuel generalizing vs blocks with
  | zero =>
    obtain rfl : vs = [] := List.length_eq_zero_iff.1 (by omega)
    cases h
    exact .nil
  | succ fuel ih =>
    cases vs with
    | nil =>
      cases h
      exact .nil
    | cons x xs =>
      rw [encodeBlocks] at h
      split at h
      · cases h
      · rename_i block k hblock
        obtain ⟨hk, hkle, -⟩ := encBlock_bounds (List.cons_ne_nil x xs) hblock
        split at h
        · cases h
        · rename_i rest hrest
          cases h
          have hdrop : ((x :: xs).drop k).length ≤ fuel := by rw [List.length_drop]; omega
          exact .cons (List.cons_ne_nil x xs) hk hkle (encodedBlock_of_encBlock hblock) (ih hdrop hrest)

theorem encodedStream_of_encodeAll {policy : FFPolicy} {v : Variant} {vs : List Word} {blocks : List (List Byte)}
    (h : encodeAll policy v vs = .ok blocks) : EncodedStream policy v vs blocks :=
  encodedStream_of_encodeBlocks (Nat.le_refl _) h

/-! ### The bytes of the values -/

theorem payloadTotal_take_add_drop (vs : List Word) (k : Nat) :
    payloadTotal (vs.take k) + payloadTotal (vs.drop k) = payloadTotal vs := by
  rw [payloadTotal, payloadTotal, ← List.sum_append, ← List.map_append, List.take_append_drop, payloadTotal]

theorem payloadTotal_le (vs : List Word) : payloadTotal vs ≤ 4 * vs.length := by
  rw [payloadTotal, ← length_payload]
  exact length_payload_le vs

/-- The four values of a raw block take one byte each. -/
theorem payloadTotal_of_fastPath {vs : List Word} (h : fastPath vs) : payloadTotal (vs.take 4) = 4 := by
  obtain ⟨hlen, hsmall⟩ := h
  have hone : ∀ x ∈ vs.take 4, codeBytes (classify x) = 1 := fun x hx => by
    rw [(classify_eq_zero_iff x).2 (hsmall x hx)]
    rfl
  rw [payloadTotal, List.map_congr_left hone]
  simpa using hlen

@[simp] theorem length_literals (vs : List Word) : (literals vs).length = vs.length := List.length_map _

/-- A raw block is four literals, after a marker except in HEADERLESS_NIB (R75, R85, R91). -/
theorem length_encRaw {vs : List Word} (hlen : 4 ≤ vs.length) (v : Variant) :
    (encRaw v vs).length = if v = .headerlessNib then 4 else 5 := by
  cases v <;> simp [encRaw, hlen]

theorem length_codedBlock (v : Variant) (vs : List Word) :
    (codedBlock v vs).length = payloadTotal (vs.take v.group) + 1 := by
  rw [codedBlock, List.length_cons, length_payload, payloadTotal]

/-! ### Lengths of streams -/

/-- A block with a header has one byte more than its values (R81, R95). -/
theorem EncodedBlock.length_of_header {policy : FFPolicy} {v : Variant} {vs : List Word} {block : List Byte} {k : Nat}
    (hv : v ≠ .headerlessNib) (h : EncodedBlock policy v vs block k) :
    block.length = payloadTotal (vs.take k) + 1 := by
  cases h with
  | raw hfast => rw [length_encRaw hfast.1, if_neg hv, payloadTotal_of_fastPath hfast]
  | coded => rw [length_codedBlock, ← List.take_eq_take_min]

theorem EncodedStream.length_of_headers {policy : FFPolicy} {v : Variant} {vs : List Word} {blocks : List (List Byte)}
    (hv : v ≠ .headerlessNib) (h : EncodedStream policy v vs blocks) :
    blocks.flatten.length = payloadTotal vs + blocks.length := by
  induction h with
  | nil => rfl
  | @cons vs block k blocks _ _ _ hblock _ ih =>
    have htotal := payloadTotal_take_add_drop vs k
    rw [List.flatten_cons, List.length_append, List.length_cons, ih, hblock.length_of_header hv]
    omega

/-- In HEADERLESS_NIB only the coded blocks have a header (R89). -/
theorem EncodedStream.length_headerless {policy : FFPolicy} {vs : List Word} {blocks : List (List Byte)}
    (h : EncodedStream policy .headerlessNib vs blocks) {fuel : Nat} (hfuel : vs.length ≤ fuel) :
    blocks.flatten.length = payloadTotal vs + codedBlockCount fuel vs := by
  induction h generalizing fuel with
  | nil => cases fuel <;> rfl
  | @cons vs block k blocks hne hk hkle hblock _ ih =>
    obtain ⟨x, xs, rfl⟩ := List.exists_cons_of_ne_nil hne
    obtain ⟨fuel, rfl⟩ : ∃ f, fuel = f + 1 := Nat.exists_eq_succ_of_ne_zero (by omega)
    have hrest := ih (fuel := fuel) (by rw [List.length_drop]; omega)
    have htotal := payloadTotal_take_add_drop (x :: xs) k
    rw [List.flatten_cons, List.length_append, hrest, codedBlockCount]
    cases hblock with
    | raw hfast =>
      rw [if_pos ((rawTest_iff_fastPath _).2 hfast), length_encRaw hfast.1, if_pos rfl]
      rw [payloadTotal_of_fastPath hfast] at htotal
      omega
    | coded hslow =>
      rw [← List.take_eq_take_min, ← List.drop_eq_drop_min] at htotal
      rw [if_neg (mt (rawTest_iff_fastPath _).1 hslow), length_codedBlock, ← List.drop_eq_drop_min]
      simp only [Variant.group] at htotal ⊢
      omega

/-! ### Counts and bounds -/

theorem EncodedBlock.count_basic4 {policy : FFPolicy} {vs : List Word} {block : List Byte} {k : Nat}
    (h : EncodedBlock policy .basic4 vs block k) : k = min 4 vs.length := by
  cases h with
  | raw hfast => exact (Nat.min_eq_left hfast.1).symm
  | coded => rfl

/-- A BASIC4 stream has a block for every four values, and one for the rest (R81). -/
theorem EncodedStream.count_basic4 {policy : FFPolicy} {vs : List Word} {blocks : List (List Byte)}
    (h : EncodedStream policy .basic4 vs blocks) : blocks.length = (vs.length + 3) / 4 := by
  induction h with
  | nil => rfl
  | @cons vs block k blocks _ hk _ hblock _ ih =>
    have hcount := hblock.count_basic4
    rw [List.length_cons, ih, List.length_drop]
    omega

/-- A nibble block has at most nine bytes for every two values it covers, and nine for a last one (R89, R95). -/
theorem EncodedBlock.length_le_nib {policy : FFPolicy} {v : Variant} {vs : List Word} {block : List Byte} {k : Nat}
    (hv : v.group = 2) (hne : vs ≠ []) (h : EncodedBlock policy v vs block k) :
    block.length + (vs.length - k + 1) / 2 * 9 ≤ (vs.length + 1) / 2 * 9 := by
  have hpos := List.length_pos_iff.2 hne
  cases h with
  | raw hfast =>
    obtain ⟨hlen, -⟩ := hfast
    rw [length_encRaw hlen]
    split <;> omega
  | coded =>
    have hle := payloadTotal_le (vs.take 2)
    rw [length_codedBlock, hv]
    rw [List.length_take] at hle
    omega

theorem EncodedStream.length_le_nib {policy : FFPolicy} {v : Variant} {vs : List Word} {blocks : List (List Byte)}
    (hv : v.group = 2) (h : EncodedStream policy v vs blocks) : blocks.flatten.length ≤ (vs.length + 1) / 2 * 9 := by
  induction h with
  | nil => exact Nat.zero_le _
  | cons hne _ _ hblock _ ih =>
    have hle := hblock.length_le_nib hv hne
    rw [List.length_drop] at ih
    rw [List.flatten_cons, List.length_append]
    omega

/-- Settles O42: each length and bound block by block along the stream. -/
theorem streamLengthsAndBounds : Obligations.StreamLengthsAndBounds := by
  intro policy v vs blocks henc
  have h := encodedStream_of_encodeAll henc
  refine ⟨?_, ?_, ?_, ?_⟩
  · rintro rfl
    have hcount := h.count_basic4
    have hlen := h.length_of_headers (by decide)
    have hle := payloadTotal_le vs
    exact ⟨hcount, hlen, by omega⟩
  · rintro rfl
    exact h.length_headerless (Nat.le_refl _)
  · rintro (rfl | rfl) <;> exact h.length_of_headers (by decide)
  · intro hv
    have hgroup : v.group = 2 := by
      cases v with
      | basic4 => exact absurd rfl hv
      | headerlessNib | sentinelNib | tableNib => rfl
    exact h.length_le_nib hgroup

end Sys2Proof.Machine
end

