-- ==== Sys2Proof/Proofs/RoundTrips.lean ====
section
/-! Round trips: the block functions of the decoder give back the values of an encoded block, whatever bytes follow it,
and so, block by block, of an encoded stream (41_basic4.md R81 item 3, 44_engine.md R100). -/

namespace Sys2Proof.Machine

open Sys2Proof.Claims

/-! ### A raw block -/

/-- The literals of values of one byte are the values. -/
theorem literalValues_literals {vs : List Word} (h : ∀ v ∈ vs, v.toNat ≤ 255) :
    literalValues (literals vs) = vs := by
  have hsame : ∀ v ∈ vs, (v.extractLsb' 0 8).setWidth 32 = v := fun v hv => by
    have hsmall := h v hv
    apply BitVec.eq_of_toNat_eq
    rw [BitVec.toNat_setWidth, BitVec.extractLsb'_toNat, Nat.shiftRight_zero]
    omega
  rw [literalValues, literals, List.map_map]
  exact (List.map_congr_left hsame).trans (List.map_id' vs)

/-- A marked raw block gives back its values, whatever its marker (R79, R93). -/
theorem decRawMarked_literals {vs : List Word} (h : fastPath vs) (marker : Byte) (tail : List Byte) :
    decRawMarked (marker :: literals (vs.take 4) ++ tail) vs.length = .ok (vs.take 4, 5) := by
  obtain ⟨hlen, hsmall⟩ := h
  have hlits : (literals (vs.take 4)).length = 4 := by rw [length_literals, List.length_take, Nat.min_eq_left hlen]
  rw [decRawMarked, if_neg (by omega), if_neg (by simp [hlits])]
  rw [List.cons_append, List.drop_succ_cons, List.drop_zero, List.take_left' hlits, literalValues_literals hsmall]

/-! ### A coded block -/

theorem codesOf_eq_map (v : Variant) (d : Byte) :
    codesOf v d = (List.range v.group).map fun k => d.extractLsb' (codeStride v * k) 2 := by cases v <;> rfl

theorem codeStride_mul_group (v : Variant) : codeStride v * v.group = 8 := by cases v <;> rfl

/-- The decoder reads from the descriptor the LengthCodes of the values the block covers (R61, R62). -/
theorem take_codesOf_descriptor (v : Variant) (vs : List Word) :
    (codesOf v (descriptor (codeStride v) (vs.take v.group))).take vs.length = (vs.take v.group).map classify := by
  rw [codesOf_eq_map]
  refine List.ext_getElem (by simp [Nat.min_comm]) fun k hk hk' => ?_
  simp only [List.length_map] at hk'
  have hgroup : k < v.group := lt_of_lt_of_le hk' (List.length_take_le v.group vs)
  have hfit : codeStride v * k + 2 ≤ 8 := by
    have hstep := two_le_codeStride v
    have hmul := Nat.mul_le_mul_left (codeStride v) hgroup
    rw [codeStride_mul_group, Nat.mul_succ] at hmul
    omega
  rw [List.getElem_take, List.getElem_map, List.getElem_range, descriptor_field (two_le_codeStride v) hfit,
    List.getElem_map, List.getElem?_eq_getElem hk']
  rfl

theorem payloadLen_map_classify (vs : List Word) : payloadLen (vs.map classify) = (payload vs).length := by
  induction vs with
  | nil => rfl
  | cons v vs ih => rw [List.map_cons, payloadLen, ih, payload, List.length_append, length_leBytes]

/-- The slots of a payload are its values: each fits in the bytes of its class (R63, R72). -/
theorem slotValues_payload (vs : List Word) (tail : List Byte) :
    slotValues (vs.map classify) (payload vs ++ tail) = vs := by
  induction vs with
  | nil => rfl
  | cons v vs ih =>
    have hlen := length_leBytes v (codeBytes (classify v))
    rw [List.map_cons, payload, List.append_assoc, slotValues, List.take_left' hlen, List.drop_left' hlen, ih,
      leValue_leBytes v _ (toNat_lt_of_classify v)]

/-- A coded block whose descriptor is of the CODED class gives back the values it covers (R80, R83). -/
theorem decBlock_codedBlock {v : Variant} {vs : List Word}
    (hclass : hdrClass v (descriptor (codeStride v) (vs.take v.group)) = .coded) (tail : List Byte) :
    decBlock v (codedBlock v vs ++ tail) vs.length = .ok (vs.take v.group, (codedBlock v vs).length) := by
  have hpayload := payloadLen_map_classify (vs.take v.group)
  have hlen : 1 + (payload (vs.take v.group)).length = (codedBlock v vs).length := Nat.add_comm _ _
  rw [codedBlock, List.cons_append, decBlock, hclass]
  simp only
  rw [decCoded, take_codesOf_descriptor, hpayload, if_neg (by simp; omega), List.drop_succ_cons, List.drop_zero,
    slotValues_payload, hlen, codedBlock]

/-! ### A stream -/

theorem decodeBlocks_of_block {dec : List Byte → Nat → Except ErrCode (List Word × Nat)} {fuel n len len' : Nat}
    {S : List Byte} {values rest : List Word} (hn : 0 < n) (hblock : dec S n = .ok (values, len))
    (hrest : decodeBlocks dec fuel (S.drop len) (n - values.length) = .ok (rest, len')) :
    decodeBlocks dec (fuel + 1) S n = .ok (values ++ rest, len + len') := by
  obtain ⟨n, rfl⟩ := Nat.exists_eq_succ_of_ne_zero (Nat.ne_of_gt hn)
  rw [decodeBlocks, hblock]
  simp only
  rw [hrest]

/-- A decoder that gives back every block of a stream gives back the stream; `good` is what the blocks need of the
values left. -/
theorem EncodedStream.decodes {policy : FFPolicy} {v : Variant} {vs : List Word} {blocks : List (List Byte)}
    {dec : List Byte → Nat → Except ErrCode (List Word × Nat)} {good : List Word → Prop}
    (hblock : ∀ {vs block k}, vs ≠ [] → EncodedBlock policy v vs block k → good vs →
      good (vs.drop k) ∧ ∀ tail, dec (block ++ tail) vs.length = .ok (vs.take k, block.length))
    (h : EncodedStream policy v vs blocks) (hgood : good vs) (tail : List Byte) {fuel : Nat}
    (hfuel : vs.length ≤ fuel) :
    decodeBlocks dec fuel (blocks.flatten ++ tail) vs.length = .ok (vs, blocks.flatten.length) := by
  induction h generalizing fuel with
  | nil => cases fuel <;> rfl
  | @cons vs block k blocks hne hk hkle henc _ ih =>
    obtain ⟨fuel, rfl⟩ : ∃ f, fuel = f + 1 := Nat.exists_eq_succ_of_ne_zero (by omega)
    obtain ⟨hgood', hdec⟩ := hblock hne henc hgood
    have hrest := ih hgood' (fuel := fuel) (by rw [List.length_drop]; omega)
    have hleft : vs.length - (vs.take k).length = (vs.drop k).length := by simp [hkle]
    rw [List.flatten_cons, List.append_assoc, List.length_append]
    rw [decodeBlocks_of_block (List.length_pos_iff.2 hne) (hdec _) (by rw [List.drop_left, hleft]; exact hrest),
      List.take_append_drop]

/-! ### BASIC4 (R81) -/

/-- No full group of `vs` collides with the marker, or a collision is an error (R77). -/
def collisionFree (policy : FFPolicy) (vs : List Word) : Prop :=
  policy = .fault ∨ ∀ j, 4 * j + 4 ≤ vs.length → ∃ v ∈ (vs.drop (4 * j)).take 4, v.toNat < 0x1000000

theorem collisionFree.drop_four {policy : FFPolicy} {vs : List Word} (h : collisionFree policy vs) :
    collisionFree policy (vs.drop 4) := by
  rcases h with hp | hsmall
  · exact .inl hp
  · refine .inr fun j hj => ?_
    rw [List.length_drop] at hj
    rw [List.drop_drop, show 4 + 4 * j = 4 * (j + 1) by omega]
    exact hsmall (j + 1) (by omega)

/-- The descriptor of a written coded block is not the marker: its group does not collide, or the encoder has ended with
COLLISION. -/
theorem descriptor_ne_marker {policy : FFPolicy} {vs : List Word} (hfree : collisionFree policy vs)
    (hfault : policy = .fault → descriptor 2 (vs.take 4) ≠ 0xFF) : descriptor 2 (vs.take 4) ≠ 0xFF := by
  rcases hfree with hp | hsmall
  · exact hfault hp
  · intro hmarker
    obtain ⟨hfull, hbig⟩ := (descriptor_eq_marker_iff (List.length_take_le 4 vs)).1 hmarker
    rw [List.length_take] at hfull
    obtain ⟨v, hv, hlt⟩ := hsmall 0 (by omega)
    exact absurd (hbig v hv) (Nat.not_le_of_lt hlt)

/-- A BASIC4 block that does not collide decodes to its values (R79, R80). -/
theorem EncodedBlock.decodes_basic4 {policy : FFPolicy} {vs : List Word} {block : List Byte} {k : Nat}
    (h : EncodedBlock policy .basic4 vs block k) (hfree : collisionFree policy vs) (tail : List Byte) :
    decBlock .basic4 (block ++ tail) vs.length = .ok (vs.take k, block.length) := by
  cases h with
  | raw hfast =>
    rw [length_encRaw hfast.1]
    exact decRawMarked_literals hfast Config.basicMarker tail
  | coded _ hfault =>
    have hclass : hdrClass .basic4 (descriptor 2 (vs.take 4)) = .coded :=
      if_neg (descriptor_ne_marker hfree (hfault rfl))
    rw [← List.take_eq_take_min]
    exact decBlock_codedBlock hclass tail

/-- Settles O38: block by block, no written descriptor being the marker. -/
theorem basic4StreamsRoundTrip : Obligations.Basic4StreamsRoundTrip := by
  intro policy vs blocks tail henc hfree
  refine (encodedStream_of_encodeAll henc).decodes (good := collisionFree policy)
    (fun {vs block k} _ hblock hfree => ⟨?_, hblock.decodes_basic4 hfree⟩) hfree tail (Nat.le_refl _)
  rw [hblock.count_basic4, ← List.drop_eq_drop_min]
  exact hfree.drop_four

end Sys2Proof.Machine
end

