-- ==== Sys2Proof/Proofs/HeaderSteps.lean ====
section
/-! What a header instruction does in a DECODE RUN step without a race: it ends DECODE at the cursors, or writes the
values of its block as words (`decodeBlock_of_error`, `decodeBlock_of_ok`); with them the marked raw headers (41_basic4.md R79,
43_sentinel_nibble.md R93) and the coded ones (41_basic4.md R80, 45_simd.md R113, R115). -/

namespace Sys2Proof.Machine

open Sys2Proof.Claims

/-! ### Slices of `Mem` -/

theorem Memory.take_drop_readBytes (m : Memory) (a : Nat) {n j k : Nat} (h : j + k ≤ n) :
    ((Memory.readBytes m a n).drop j).take k = Memory.readBytes m (a + j) k := by
  obtain ⟨r, rfl⟩ := Nat.exists_eq_add_of_le h
  rw [Nat.add_assoc, Memory.readBytes_append, Memory.readBytes_append, List.drop_left' (Memory.length_readBytes m a j),
    List.take_left' (Memory.length_readBytes m (a + j) k)]

/-- The bytes of word k in a list of words (R40). -/
theorem take_drop_flatMap_leBytes4 {vs : List Word} {k : Nat} (hk : k < vs.length) :
    ((vs.flatMap fun v => leBytes v 4).drop (4 * k)).take 4 = leBytes vs[k] 4 := by
  induction vs generalizing k with
  | nil => cases hk
  | cons v vs ih =>
    rw [List.flatMap_cons]
    cases k with
    | zero => exact List.take_left' (length_leBytes v 4)
    | succ k =>
      rw [Nat.mul_succ, Nat.add_comm, ← List.drop_drop, List.drop_left' (length_leBytes v 4),
        ih (Nat.lt_of_succ_lt_succ hk), List.getElem_cons_succ]

/-- Words written one after the other are read back (R40, R44). -/
theorem Memory.read32_writeBytes_words {m : Memory} (hm : Memory.wf m = true) (a : Nat) {vs : List Word} {k : Nat}
    (hk : k < vs.length) :
    Memory.read32 (Memory.writeBytes m a (vs.flatMap fun v => leBytes v 4)) (a + 4 * k) = vs[k] := by
  have hwords := Memory.readBytes_writeBytes a (vs.flatMap fun v => leBytes v 4) hm
  rw [length_flatMap_leBytes4] at hwords
  rw [Memory.read32, ← Memory.take_drop_readBytes _ a (n := 4 * vs.length) (by omega), hwords,
    take_drop_flatMap_leBytes4 hk, leValue_leBytes4]

/-- A slice of the bytes a block step sees is the same slice of `Mem`. -/
theorem State.take_drop_stream {s : State} (hrace : s.race = []) {j k : Nat} (hmax : j + k ≤ Config.maxBlock)
    (hleft : j + k ≤ bytesLeft s) :
    (s.stream.drop j).take k = Memory.readBytes s.mem (s.byteBase.toNat + s.eng.p + j) k := by
  rw [State.stream, State.engReadBytes_of_race_nil hrace]
  exact Memory.take_drop_readBytes s.mem _ (Nat.le_min.2 ⟨hmax, hleft⟩)

/-- A block step sees enough bytes for a block when BB holds them: no block is longer than what it sees (R68). -/
theorem State.length_stream_lt_iff (s : State) {len : Nat} (hmax : len ≤ Config.maxBlock) :
    s.stream.length < len ↔ bytesLeft s < len := by
  rw [State.length_stream, bytesLeft]
  omega

/-! ### The two outcomes of a block step (R100, R102) -/

theorem endedAtCursors_eq_complete {s : State} (hop : s.eng.op = .decode) (e : ErrCode) :
    endedAtCursors s e = s.complete e := by
  rw [endedAtCursors, if_pos (.inr hop), State.complete, hop]
  rfl

theorem valuesWritten_putValues {s : State} (hq : quiet s) (values : List Word) (len : Nat) :
    valuesWritten s (s.putValues values len) values len := by
  obtain ⟨hrace, hwf⟩ := hq
  refine ⟨?_, fun k hk => ?_, fun a ha => s.read_putValues_outside ha⟩
  · rw [State.putValues_of_race_nil hrace]
  · rw [State.putValues_mem, State.engWriteBytes_of_race_nil hrace, Nat.mul_add, ← Nat.add_assoc]
    exact Memory.read32_writeBytes_words hwf s.valAddr hk

theorem decodeBlock_of_error {dec : List Byte → Nat → Except ErrCode (List Word × Nat)} {s : State} {e : ErrCode}
    (hop : s.eng.op = .decode) (h : dec s.stream (valuesLeft s) = .error e) :
    decodeBlock dec s = endedAtCursors s e := by
  have h : dec s.stream s.rem = .error e := h
  rw [decodeBlock, h, endedAtCursors_eq_complete hop]

theorem decodeBlock_of_ok {dec : List Byte → Nat → Except ErrCode (List Word × Nat)} {s : State} {values : List Word}
    {len : Nat} (hq : quiet s) (h : dec s.stream (valuesLeft s) = .ok (values, len)) :
    valuesWritten s (decodeBlock dec s) values len := by
  have h : dec s.stream s.rem = .ok (values, len) := h
  rw [decodeBlock, h]
  exact valuesWritten_putValues hq values len

/-! ### Marked raw headers (R79, R93) -/

/-- Literal k of the bytes a block step sees. -/
theorem getElem?_literalValues_stream {s : State} (hrace : s.race = []) {j n k : Nat}
    (hmax : j + n ≤ Config.maxBlock) (hleft : j + n ≤ bytesLeft s) (hk : k < n) :
    (literalValues ((s.stream.drop j).take n))[k]? =
      some ((Memory.read s.mem (s.byteBase.toNat + s.eng.p + j + k)).setWidth 32) := by
  rw [State.take_drop_stream hrace hmax hleft, literalValues, List.getElem?_map, Memory.getElem?_readBytes, if_pos hk]
  rfl

theorem rawMarkedStep_of_exec {i : Instr} {s : State} (hexec : exec i s = .next (decodeBlock decRawMarked s))
    (hop : s.eng.op = .decode) (hq : quiet s) : rawMarkedStep i s := by
  have hfits : s.stream.length < 5 ↔ bytesLeft s < 5 := s.length_stream_lt_iff (by decide)
  rw [rawMarkedStep, hexec]
  refine ⟨fun hrem => ?_, fun hrem hshort => ?_, fun hrem hlong => ?_⟩
  · rw [decodeBlock_of_error hop (if_pos hrem)]
  · rw [decodeBlock_of_error hop ((if_neg (Nat.not_lt.2 hrem)).trans (if_pos (hfits.2 hshort)))]
  · have hdec : decRawMarked s.stream (valuesLeft s) = .ok (literalValues ((s.stream.drop 1).take 4), 5) :=
      (if_neg (Nat.not_lt.2 hrem)).trans (if_neg (mt hfits.1 (Nat.not_lt.2 hlong)))
    refine ⟨_, _, rfl, ?_, decodeBlock_of_ok hq hdec, fun k hk =>
      getElem?_literalValues_stream hq.1 (by decide) hlong hk⟩
    rw [State.take_drop_stream hq.1 (by decide) hlong, literalValues, List.length_map, Memory.length_readBytes]

/-- Settles O30: the three rows run one block function. -/
theorem markedRawHeadersDecodeFourLiterals : Obligations.MarkedRawHeadersDecodeFourLiterals := by
  rintro i hi s ⟨-, hop⟩ hq
  simp only [List.mem_cons, List.not_mem_nil, or_false] at hi
  rcases hi with rfl | rfl | rfl <;> exact rawMarkedStep_of_exec rfl hop hq

/-! ### Coded headers (R80, R83, R113) -/

theorem payloadOffset_cons_succ (c : LengthCode) (cs : List LengthCode) (k : Nat) :
    payloadOffset (c :: cs) (k + 1) = codeBytes c + payloadOffset cs k := rfl

/-- The payload offset of R63 is the model's, also past the last slot. -/
theorem slotOffset_eq_payloadOffset (codes : List LengthCode) (k : Nat) :
    slotOffset codes k = payloadOffset codes k := by
  induction codes generalizing k with
  | nil => cases k <;> rfl
  | cons c cs ih =>
    cases k with
    | zero => rfl
    | succ k => rw [slotOffset, ih, payloadOffset_cons_succ]

theorem payloadLen_take (codes : List LengthCode) (k : Nat) : payloadLen (codes.take k) = payloadOffset codes k := by
  induction codes generalizing k with
  | nil => cases k <;> rfl
  | cons c cs ih =>
    cases k with
    | zero => rfl
    | succ k => rw [List.take_succ_cons, payloadLen, ih, payloadOffset_cons_succ]

theorem payloadOffset_take {codes : List LengthCode} {k n : Nat} (h : k ≤ n) :
    payloadOffset (codes.take n) k = payloadOffset codes k := by
  rw [payloadOffset, List.take_take, Nat.min_eq_left h, payloadOffset]

theorem payloadOffset_le (codes : List LengthCode) (k : Nat) : payloadOffset codes k ≤ 4 * k :=
  slotOffset_eq_payloadOffset codes k ▸ slotOffset_le codes k

/-- With the table of its group width the coded block function is the scalar one (R113, R115). -/
theorem State.codedDecoder_eq_decCoded {s : State} {v : Variant} {h : Byte} {codes : List LengthCode}
    (htable : tableFits s v) (hentry : buildEntry v.group h = validEntry codes) (hlen : codes.length = v.group) :
    s.codedDecoder v h codes = decCoded codes := by
  funext S rem
  rw [State.codedDecoder]
  split
  · rename_i hgather
    obtain ⟨hsimd, hrem⟩ := hgather
    rw [htable hsimd, entry_buildTable, hentry, ← hlen]
    exact decGather_validEntry (hlen ▸ group_le_four v) (hlen ▸ hrem) S
  · rfl

/-- Slot k of the scalar rule on the bytes a block step sees (R63, R80, R83). -/
theorem getElem?_slotValues_stream {s : State} (hrace : s.race = []) {codes : List LengthCode} {r k : Nat}
    {c : LengthCode} (hr : r ≤ 4) (hleft : 1 + payloadOffset codes r ≤ bytesLeft s) (hc : codes[k]? = some c)
    (hk : k < r) :
    (slotValues (codes.take r) (s.stream.drop 1))[k]? = some (leValue (Memory.readBytes s.mem
      (s.byteBase.toNat + s.eng.p + 1 + payloadOffset codes k) (c.toNat + 1))) := by
  have hslot : (codes.take r)[k]? = some c := (List.getElem?_take_of_lt hk).trans hc
  have hfit := slotOffset_add_codeBytes_le hslot
  have hmax := payloadOffset_le codes r
  rw [payloadLen_take, slotOffset_eq_payloadOffset, payloadOffset_take (Nat.le_of_lt hk), codeBytes] at hfit
  rw [getElem?_slotValues hslot, slotOffset_eq_payloadOffset, payloadOffset_take (Nat.le_of_lt hk), List.drop_drop,
    codeBytes, State.take_drop_stream hrace (by unfold Config.maxBlock; omega) (by omega),
    ← Nat.add_assoc _ 1 (payloadOffset codes k)]

/-- The coded block function with r = min(G, rem) and the payload offsets of R63 (R80, R83). -/
theorem decCoded_eq_ite (codes : List LengthCode) (S : List Byte) (rem : Nat) :
    decCoded codes S rem =
      if S.length < 1 + payloadOffset codes (min codes.length rem) then .error .truncated
      else .ok (slotValues (codes.take (min codes.length rem)) (S.drop 1),
        1 + payloadOffset codes (min codes.length rem)) := by
  rw [decCoded, List.take_eq_take_min, Nat.min_comm, payloadLen_take]

/-- A header that runs the coded block function of its LengthCodes reads min(G, rem) slots (R80, R83). -/
theorem codedBlockStep_of_exec {i : Instr} {codes : List LengthCode} {s : State}
    (hexec : exec i s = .next (decodeBlock (decCoded codes) s)) (hlen : codes.length ≤ 4) (hop : s.eng.op = .decode)
    (hq : quiet s) : codedBlockStep i codes s := by
  have hr : min codes.length (valuesLeft s) ≤ 4 := by omega
  have hmax := payloadOffset_le codes (min codes.length (valuesLeft s))
  have hfits := s.length_stream_lt_iff (len := 1 + payloadOffset codes (min codes.length (valuesLeft s)))
    (by unfold Config.maxBlock; omega)
  have hdec := decCoded_eq_ite codes s.stream (valuesLeft s)
  rw [codedBlockStep, hexec]
  refine ⟨fun hshort => ?_, fun hlong => ?_⟩
  · rw [decodeBlock_of_error hop (hdec.trans (if_pos (hfits.2 hshort)))]
  · exact ⟨_, _, rfl, by simp, decodeBlock_of_ok hq (hdec.trans (if_neg (mt hfits.1 (Nat.not_lt.2 hlong)))),
      fun k c hc hk => getElem?_slotValues_stream hq.1 hr hlong hc hk⟩

/-- The entry of a BASIC4 descriptor is that of its LengthCodes (R61, R108). -/
theorem buildEntry_b4Descriptor (c0 c1 c2 c3 : LengthCode) :
    buildEntry 4 (b4Descriptor c0 c1 c2 c3) = validEntry [c0, c1, c2, c3] := by
  obtain ⟨h0, h1, h2, h3⟩ := b4Descriptor_fields c0 c1 c2 c3
  rw [buildEntry, if_pos rfl, codesB4, h0, h1, h2, h3]

/-- Settles O32: B4.CODED runs the coded block function, which by the table is the scalar one. -/
theorem basic4CodedHeaderDecodesItsSlots : Obligations.Basic4CodedHeaderDecodesItsSlots := by
  rintro c0 c1 c2 c3 s ⟨-, hop⟩ hq htable
  refine codedBlockStep_of_exec ?_ (Nat.le_refl 4) hop hq
  rw [← State.codedDecoder_eq_decCoded htable (buildEntry_b4Descriptor c0 c1 c2 c3) rfl]
  rfl

end Sys2Proof.Machine
end

