-- ==== Sys2Proof/Proofs/NibbleBlocks.lean ====
section
/-! The blocks of the nibble variants: the descriptor is a legal nibble descriptor, whose header class is CODED
(42_headerless_nibble.md R82, R84, R85; 43_sentinel_nibble.md R90, R91); and which HEADERLESS_NIB streams decode to
their input (R88). -/

namespace Sys2Proof.Machine

open Sys2Proof.Claims

/-! ### The nibble descriptor (R62, R82) -/

/-- The low two bits between two LengthCode fields of a nibble descriptor. -/
theorem extractLsb'_or_shiftLeft_four_gap (c : LengthCode) (d : Byte) :
    (c.setWidth 8 ||| (d <<< 4)).extractLsb' 2 2 = 0 := by
  apply BitVec.eq_of_getLsbD_eq
  intro i hi
  simp [show 2 + i < 4 by omega]

/-- The bits above each LengthCode field of a nibble descriptor are zero. -/
theorem descriptor_four_gap {k : Nat} (hk : 4 * k + 4 ≤ 8) (vs : List Word) :
    (descriptor 4 vs).extractLsb' (4 * k + 2) 2 = 0 := by
  induction vs generalizing k with
  | nil => simp [descriptor]
  | cons v vs ih =>
    cases k with
    | zero => exact extractLsb'_or_shiftLeft_four_gap (classify v) _
    | succ k =>
      rw [descriptor, show 4 * (k + 1) + 2 = 4 + (4 * k + 2) by omega,
        extractLsb'_or_shiftLeft_succ (by decide) (by omega), ih (by omega)]

/-- The mask of R65 by fields. -/
theorem nibbleBits_clear_iff_fields : ∀ h : Byte,
    h &&& 0xCC = 0 ↔ h.extractLsb' 2 2 = 0 ∧ h.extractLsb' 6 2 = 0 := by decide +kernel

theorem descriptor_four_legal (vs : List Word) : descriptor 4 vs &&& 0xCC = 0 :=
  (nibbleBits_clear_iff_fields _).2
    ⟨descriptor_four_gap (k := 0) (by decide) vs, descriptor_four_gap (k := 1) (by decide) vs⟩

/-- A legal nibble descriptor is below both raw ranges, so it is a CODED header (R65). -/
theorem hdrClass_of_legal {v : Variant} (hv : v ≠ .basic4) {h : Byte} (hlegal : h &&& 0xCC = 0) :
    hdrClass v h = .coded := by
  have hrange := (nibbleBits_clear_iff h).1 hlegal
  have hmarker : h ≠ 0xF0 := by
    rintro rfl
    exact absurd hlegal (by decide)
  cases v with
  | basic4 => exact absurd rfl hv
  | headerlessNib =>
    have hlow : ¬(0x40 : Byte) ≤ h := Nat.not_le_of_lt (show h.toNat < 0x40 by omega)
    rw [hdrClass, if_neg hlow, if_pos hlegal]
  | sentinelNib | tableNib => rw [hdrClass, if_neg hmarker, if_pos hlegal]

/-! ### Encode -/

/-- Off the fast path the three nibble variants write one and the same coded block (R82). -/
theorem encBlock_nib_of_not_fastPath {vs : List Word} (h : ¬fastPath vs) (policy : FFPolicy) {v : Variant}
    (hv : v ≠ .basic4) : encBlock policy v vs = encCodedNib (vs.take 2) := by
  rw [encBlock_of_not_fastPath h]
  cases v with
  | basic4 => exact absurd rfl hv
  | headerlessNib | sentinelNib | tableNib => rfl

/-- Settles O25: the raw block by the fast-path test, the coded block by the fields of its descriptor and the gaps
between them. -/
theorem nibbleEncoderBlocks : Obligations.NibbleEncoderBlocks := by
  intro policy vs _
  refine ⟨fun h =>
      ⟨encBlock_of_fastPath h policy _, encBlock_of_fastPath h policy _, encBlock_of_fastPath h policy _⟩,
    fun h => ⟨descriptor 4 (vs.take 2), fun v hv => ?_, descriptor_field (k := 0) (by decide) (by decide) _,
      descriptor_field (k := 1) (by decide) (by decide) _, descriptor_four_gap (k := 0) (by decide) _,
      descriptor_four_gap (k := 1) (by decide) _⟩⟩
  rw [encBlock_nib_of_not_fastPath h policy hv, encCodedNib, payload_eq_flatMap]

/-! ### Decode by the class of the header -/

theorem decBlock_of_raw {v : Variant} {h : Byte} (hc : hdrClass v h = .raw) (S : List Byte) (rem : Nat) :
    decBlock v (h :: S) rem = decRaw v (h :: S) rem := by rw [decBlock, hc]

theorem decBlock_of_coded {v : Variant} {h : Byte} (hc : hdrClass v h = .coded) (S : List Byte) (rem : Nat) :
    decBlock v (h :: S) rem = decCoded (codesOf v h) (h :: S) rem := by rw [decBlock, hc]

theorem decBlock_of_malformed {v : Variant} {h : Byte} (hc : hdrClass v h = .malformed) (S : List Byte) (rem : Nat) :
    decBlock v (h :: S) rem = .error .malformed := by rw [decBlock, hc, decMalformed]

/-- The bytes of a headerless raw block begin with the first value's literal (R85). -/
theorem encRaw_headerless_cons (v : Word) (vs : List Word) :
    encRaw .headerlessNib (v :: vs) = v.extractLsb' 0 8 :: literals (vs.take 3) := rfl

/-- The literal of a value of one byte is the value. -/
theorem toNat_literal {v : Word} (h : v.toNat ≤ 255) : (v.extractLsb' 0 8).toNat = v.toNat := by
  rw [BitVec.extractLsb'_toNat, Nat.shiftRight_zero]
  omega

theorem toNat_head_le_of_fastPath {v : Word} {vs : List Word} (h : fastPath (v :: vs)) : v.toNat ≤ 255 :=
  h.2 v List.mem_cons_self

/-! ### Round trip above the boundary (R88 item 1) -/

/-- With four values and four bytes left a headerless raw block is its four bytes (R87). -/
theorem decRaw_headerless_of_le {S : List Byte} {rem : Nat} (hrem : 4 ≤ rem) (hS : 4 ≤ S.length) :
    decRaw .headerlessNib S rem = .ok (literalValues (S.take 4), 4) := by
  rw [decRaw, decRawHeaderless, if_neg (Nat.not_lt.2 hrem), if_neg (Nat.not_lt.2 hS)]
  cases S with
  | nil => cases hS
  | cons b S => rfl

/-- A headerless raw block gives back its values, its header being the first of them. -/
theorem decRaw_headerless_literals {vs : List Word} (h : fastPath vs) (tail : List Byte) :
    decRaw .headerlessNib (encRaw .headerlessNib vs ++ tail) vs.length = .ok (vs.take 4, 4) := by
  obtain ⟨hlen, hsmall⟩ := h
  have hraw : (encRaw .headerlessNib vs).length = 4 := length_encRaw hlen .headerlessNib
  rw [decRaw_headerless_of_le hlen (by rw [List.length_append]; omega), List.take_left' hraw, encRaw,
    literalValues_literals hsmall]

/-- A raw block whose first literal is at least 0x40 decodes to its values (R86, R87). -/
theorem decBlock_headerless_raw {v : Word} {vs : List Word} (h : fastPath (v :: vs)) (hhigh : 0x40 ≤ v.toNat)
    (tail : List Byte) : decBlock .headerlessNib (encRaw .headerlessNib (v :: vs) ++ tail) (v :: vs).length =
      .ok ((v :: vs).take 4, 4) := by
  have hclass : hdrClass .headerlessNib (v.extractLsb' 0 8) = .raw := by
    rw [hdrClass, if_pos]
    rw [BitVec.le_def, toNat_literal (toNat_head_le_of_fastPath h)]
    exact hhigh
  rw [← decRaw_headerless_literals h tail]
  exact decBlock_of_raw hclass _ _

/-- Along the rest of the stream every raw block begins with a literal of at least 0x40, whatever the fuel. -/
def headersReadable (vs : List Word) : Prop := ∃ fuel, vs.length ≤ fuel ∧ rawFirstLiteralsHigh fuel vs

/-- The first block's share of the condition, and what is left of it for the next blocks. -/
theorem headersReadable_cons {v : Word} {vs : List Word} (h : headersReadable (v :: vs)) :
    (fastPath (v :: vs) → 0x40 ≤ v.toNat ∧ headersReadable ((v :: vs).drop 4)) ∧
      (¬fastPath (v :: vs) → headersReadable ((v :: vs).drop 2)) := by
  obtain ⟨fuel, hfuel, hhigh⟩ := h
  obtain ⟨fuel, rfl⟩ : ∃ f, fuel = f + 1 := Nat.exists_eq_succ_of_ne_zero (by rintro rfl; cases hfuel)
  rw [List.length_cons] at hfuel
  have hrest : ∀ k, 1 ≤ k → ((v :: vs).drop k).length ≤ fuel := fun k hk => by
    rw [List.length_drop, List.length_cons]
    omega
  rw [rawFirstLiteralsHigh] at hhigh
  constructor
  · intro hfast
    rw [if_pos ((rawTest_iff_fastPath _).2 hfast)] at hhigh
    exact ⟨hhigh.1, fuel, hrest 4 (by decide), hhigh.2⟩
  · intro hslow
    rw [if_neg (mt (rawTest_iff_fastPath _).1 hslow)] at hhigh
    exact ⟨fuel, hrest 2 (by decide), hhigh⟩

/-- A block of a readable stream decodes to its values, and leaves a readable stream. -/
theorem EncodedBlock.decodes_headerless {policy : FFPolicy} {vs : List Word} {block : List Byte} {k : Nat}
    (hne : vs ≠ []) (h : EncodedBlock policy .headerlessNib vs block k) (hread : headersReadable vs) :
    headersReadable (vs.drop k) ∧
      ∀ tail, decBlock .headerlessNib (block ++ tail) vs.length = .ok (vs.take k, block.length) := by
  obtain ⟨v, vs, rfl⟩ := List.exists_cons_of_ne_nil hne
  obtain ⟨hraw, hcoded⟩ := headersReadable_cons hread
  cases h with
  | raw hfast =>
    obtain ⟨hhigh, hrest⟩ := hraw hfast
    rw [length_encRaw hfast.1]
    exact ⟨hrest, decBlock_headerless_raw hfast hhigh⟩
  | coded hslow =>
    rw [← List.take_eq_take_min, ← List.drop_eq_drop_min]
    exact ⟨hcoded hslow, decBlock_codedBlock (hdrClass_of_legal (by decide) (descriptor_four_legal _))⟩

/-- Settles O40: block by block along the stream, each raw header being in the RAW class and each descriptor legal. -/
theorem headerlessStreamsRoundTripAboveTheBoundary : Obligations.HeaderlessStreamsRoundTripAboveTheBoundary := by
  intro policy vs blocks tail henc hhigh
  have hread : headersReadable vs := ⟨vs.length, Nat.le_refl _, hhigh⟩
  exact (encodedStream_of_encodeAll henc).decodes (fun hne hblock hread => hblock.decodes_headerless hne hread) hread
    tail (Nat.le_refl _)

/-! ### Below the boundary (R88 item 2) -/

theorem extractLsb'_six_of_lt : ∀ h : Byte, h.toNat < 0x40 → h.extractLsb' 6 2 = 0 := by decide +kernel

/-- Below 0x40 bits [3:2] decide whether a header is a descriptor (R86). -/
theorem hdrClass_headerless_of_lt {h : Byte} (hlt : h.toNat < 0x40) :
    hdrClass .headerlessNib h = if h.extractLsb' 2 2 = 0 then .coded else .malformed := by
  have hlegal : h &&& 0xCC = 0 ↔ h.extractLsb' 2 2 = 0 := by
    rw [nibbleBits_clear_iff_fields, and_iff_left (extractLsb'_six_of_lt h hlt)]
  have hlow : ¬(0x40 : Byte) ≤ h := Nat.not_le_of_lt hlt
  rw [hdrClass, if_neg hlow]
  simp only [hlegal]

/-- A field of the low byte of a value is that field of the value. -/
theorem extractLsb'_literal (v : Word) {lo : Nat} (h : lo + 2 ≤ 8) :
    (v.extractLsb' 0 8).extractLsb' lo 2 = v.extractLsb' lo 2 := by
  apply BitVec.eq_of_getLsbD_eq
  intro i hi
  simp [hi, show lo + i < 8 by omega]

/-- Settles O41: the first literal's class as a header. -/
theorem headerlessFailureBoundary : Obligations.HeaderlessFailureBoundary := by
  intro policy v vs block tail k rem hfast hlow henc
  have hlit := toNat_literal (toNat_head_le_of_fastPath hfast)
  have hclass := hdrClass_headerless_of_lt (h := v.extractLsb' 0 8) (by rwa [hlit])
  rw [extractLsb'_literal v (by decide)] at hclass
  rw [encBlock_of_fastPath hfast] at henc
  cases henc
  rw [encRaw_headerless_cons, List.cons_append]
  refine ⟨fun hbits => decBlock_of_malformed (hclass.trans (if_neg hbits)) _ _, fun hbits => ?_⟩
  rw [decBlock_of_coded (hclass.trans (if_pos hbits)), codesOf, codesNib, extractLsb'_literal v (by decide),
    extractLsb'_literal v (by decide)]

end Sys2Proof.Machine
end

