-- ==== Sys2Proof/Proofs/NibbleHeaderSteps.lean ====
section
/-! The header instructions of the nibble variants in a DECODE RUN step: headerless raw (42_headerless_nibble.md R87),
coded (R83, 45_simd.md R113, R115) and malformed (R86, 43_sentinel_nibble.md R92). -/

namespace Sys2Proof.Machine

open Sys2Proof.Claims

/-! ### Headerless raw headers (R87) -/

theorem rawHeaderlessStep_of_exec {i : Instr} {h : Byte} {s : State}
    (hexec : exec i s = .next (decodeBlock (decRawHeaderless h) s)) (hop : s.eng.op = .decode) (hq : quiet s) :
    rawHeaderlessStep i h s := by
  have hfits : s.stream.length < 4 ↔ bytesLeft s < 4 := s.length_stream_lt_iff (by decide)
  rw [rawHeaderlessStep, hexec]
  refine ⟨fun hrem => ?_, fun hrem hshort => ?_, fun hrem hlong => ?_⟩
  · rw [decodeBlock_of_error hop (if_pos hrem)]
  · rw [decodeBlock_of_error hop ((if_neg (Nat.not_lt.2 hrem)).trans (if_pos (hfits.2 hshort)))]
  · have hdec : decRawHeaderless h s.stream (valuesLeft s) =
        .ok (h.setWidth 32 :: literalValues ((s.stream.drop 1).take 3), 4) :=
      (if_neg (Nat.not_lt.2 hrem)).trans (if_neg (mt hfits.1 (Nat.not_lt.2 hlong)))
    refine ⟨_, _, rfl, ?_, decodeBlock_of_ok hq hdec, rfl, fun k hk hk4 => ?_⟩
    · rw [State.take_drop_stream hq.1 (by decide) hlong, List.length_cons, literalValues, List.length_map,
        Memory.length_readBytes]
    · obtain ⟨j, rfl⟩ := Nat.exists_eq_add_of_le' hk
      rw [List.getElem?_cons_succ, getElem?_literalValues_stream hq.1 (by decide) hlong (by omega), Nat.add_assoc _ 1 j,
        Nat.add_comm 1 j]

/-- The bits of R87's two header ranges, added or joined. -/
theorem rawLo_literal_add : ∀ x : BitVec 6, (0x40 + x.setWidth 8 : Byte) = 0x40 ||| x.setWidth 8 := by decide +kernel

theorem rawHi_literal_add : ∀ x : BitVec 7, (0x80 + x.setWidth 8 : Byte) = 0x80 ||| x.setWidth 8 := by decide +kernel

/-- Settles O31: both ranges run one block function on their own header. -/
theorem headerlessRawHeadersDecodeFourLiterals : Obligations.HeaderlessRawHeadersDecodeFourLiterals := by
  rintro s ⟨-, hop⟩ hq
  refine ⟨fun x => ?_, fun x => ?_⟩
  · rw [rawLo_literal_add]
    exact rawHeaderlessStep_of_exec rfl hop hq
  · rw [rawHi_literal_add]
    exact rawHeaderlessStep_of_exec rfl hop hq

/-! ### Coded headers (R83, R113) -/

theorem nibDescriptor_legal : ∀ c0 c1 : LengthCode, nibDescriptor c0 c1 &&& 0xCC = 0 := by decide +kernel

/-- The entry of a nibble descriptor is that of its LengthCodes (R62, R108). -/
theorem buildEntry_nibDescriptor (c0 c1 : LengthCode) : buildEntry 2 (nibDescriptor c0 c1) = validEntry [c0, c1] := by
  obtain ⟨h0, h1⟩ := nibDescriptor_fields c0 c1
  rw [buildEntry, if_neg (by decide), if_pos (nibDescriptor_legal c0 c1), codesNib, h0, h1]

/-- A coded nibble header reads its slots: with the table of its group width, gather and scalar rule are one. -/
theorem codedBlockStep_of_nibDescriptor {i : Instr} {v : Variant} {c0 c1 : LengthCode} {s : State} (hv : v.group = 2)
    (hexec : exec i s = .next (decodeBlock (s.codedDecoder v (nibDescriptor c0 c1) [c0, c1]) s))
    (hop : s.eng.op = .decode) (hq : quiet s) (htable : tableFits s v) : codedBlockStep i [c0, c1] s := by
  have hentry : buildEntry v.group (nibDescriptor c0 c1) = validEntry [c0, c1] := hv ▸ buildEntry_nibDescriptor c0 c1
  rw [State.codedDecoder_eq_decCoded htable hentry hv.symm] at hexec
  exact codedBlockStep_of_exec hexec (by simp) hop hq

/-- Settles O33: the three rows run one block function, and their variants share one group width. -/
theorem nibbleCodedHeadersDecodeTheirSlots : Obligations.NibbleCodedHeadersDecodeTheirSlots := by
  rintro c0 c1 s ⟨-, hop⟩ hq htable
  exact ⟨codedBlockStep_of_nibDescriptor (v := .headerlessNib) rfl rfl hop hq htable,
    codedBlockStep_of_nibDescriptor (v := .sentinelNib) rfl rfl hop hq htable,
    codedBlockStep_of_nibDescriptor (v := .tableNib) rfl rfl hop hq htable⟩

/-! ### Malformed headers (R86, R92, R118) -/

theorem endedAtCursors_of_decode {s : State} (hop : s.eng.op = .decode) (e : ErrCode) :
    endedAtCursors s e = ended s e (BitVec.ofNat 32 s.eng.p) (BitVec.ofNat 32 s.eng.i) := if_pos (.inr hop)

theorem exec_malformed {h : Byte} {i : Instr} (hi : i ∈ [Instr.hnMalformed h, .snMalformed h, .tnMalformed h])
    (s : State) : exec i s = .next (decodeBlock decMalformed s) := by
  simp only [List.mem_cons, List.not_mem_nil, or_false] at hi
  rcases hi with rfl | rfl | rfl <;> rfl

/-- Settles O34: the three rows run the block function that always errs. -/
theorem malformedHeadersEndDecode : Obligations.MalformedHeadersEndDecode := by
  rintro h s ⟨-, hop⟩ i hi
  rw [exec_malformed hi, decodeBlock_of_error hop rfl, endedAtCursors_of_decode hop]

end Sys2Proof.Machine
end

