-- ==== Sys2Proof/Proofs/SentinelStreams.lean ====
section
/-! SENTINEL_NIB and TABLE_NIB, the nibble variants that mark their raw blocks: the marker opens exactly the raw blocks,
no values make the encoder fail, and a stream of either decodes to its input under either (43_sentinel_nibble.md R90 to
R95). -/

namespace Sys2Proof.Machine

open Sys2Proof.Claims

/-! ### The two variants that mark their raw blocks (R91, R93) -/

theorem ne_basic4_of_sentinel {v : Variant} (hv : v = .sentinelNib ∨ v = .tableNib) : v ≠ .basic4 := by
  rcases hv with rfl | rfl <;> decide

theorem hdrClass_nibbleMarker {v : Variant} (hv : v = .sentinelNib ∨ v = .tableNib) : hdrClass v 0xF0 = .raw := by
  rcases hv with rfl | rfl <;> rfl

theorem encRaw_sentinel {v : Variant} (hv : v = .sentinelNib ∨ v = .tableNib) (vs : List Word) :
    encRaw v vs = 0xF0 :: literals (vs.take 4) := by
  rcases hv with rfl | rfl <;> rfl

theorem decRaw_sentinel {v : Variant} (hv : v = .sentinelNib ∨ v = .tableNib) (S : List Byte) (rem : Nat) :
    decRaw v S rem = decRawMarked S rem := by
  rcases hv with rfl | rfl <;> rfl

/-! ### The coded blocks of the nibble variants (R82) -/

theorem group_nib {v : Variant} (hv : v ≠ .basic4) : v.group = 2 := by
  cases v with
  | basic4 => exact absurd rfl hv
  | headerlessNib | sentinelNib | tableNib => rfl

theorem codeStride_nib {v : Variant} (hv : v ≠ .basic4) : codeStride v = 4 := by
  cases v with
  | basic4 => exact absurd rfl hv
  | headerlessNib | sentinelNib | tableNib => rfl

theorem codedBlock_nib {v : Variant} (hv : v ≠ .basic4) (vs : List Word) :
    codedBlock v vs = descriptor 4 (vs.take 2) :: payload (vs.take 2) := by
  rw [codedBlock, codeStride_nib hv, group_nib hv]

/-- A coded nibble block decodes to its values, its descriptor being legal (R83). -/
theorem decBlock_codedBlock_nib {v : Variant} (hv : v ≠ .basic4) (vs : List Word) (tail : List Byte) :
    decBlock v (codedBlock v vs ++ tail) vs.length = .ok (vs.take v.group, (codedBlock v vs).length) := by
  refine decBlock_codedBlock (hdrClass_of_legal hv ?_) tail
  rw [codeStride_nib hv]
  exact descriptor_four_legal _

/-! ### Marker and descriptors (R94) -/

/-- The mask tells the marker from every legal nibble descriptor. -/
theorem ne_nibbleMarker_of_legal {d : Byte} (hlegal : d &&& 0xCC = 0) : d ≠ 0xF0 := by
  rintro rfl
  exact absurd hlegal (by decide)

/-- Settles O26: a raw block begins with the marker, a coded one with a legal descriptor. -/
theorem sentinelMarkerIsNeverADescriptor : Obligations.SentinelMarkerIsNeverADescriptor := by
  intro policy v vs block k hv _ henc
  cases encodedBlock_of_encBlock henc with
  | raw hfast =>
    rw [encRaw_sentinel hv]
    exact ⟨fun _ => rfl, absurd hfast⟩
  | coded hslow =>
    have hlegal := descriptor_four_legal (vs.take 2)
    rw [codedBlock_nib (ne_basic4_of_sentinel hv)]
    exact ⟨(absurd · hslow), fun _ => ⟨_, rfl, hlegal, ne_nibbleMarker_of_legal hlegal⟩⟩

/-! ### Encode never fails (R95 item 1) -/

theorem exists_encBlock_nib {v : Variant} (hv : v ≠ .basic4) (policy : FFPolicy) (vs : List Word) :
    ∃ block k, encBlock policy v vs = .ok (block, k) := by
  by_cases hfast : fastPath vs
  · exact ⟨_, _, encBlock_of_fastPath hfast policy v⟩
  · exact ⟨_, _, encBlock_nib_of_not_fastPath hfast policy hv⟩

theorem exists_encodeBlocks_nib {v : Variant} (hv : v ≠ .basic4) (policy : FFPolicy) (fuel : Nat) (vs : List Word) :
    ∃ blocks, encodeBlocks policy v fuel vs = .ok blocks := by
  induction fuel generalizing vs with
  | zero => exact ⟨[], rfl⟩
  | succ fuel ih =>
    cases vs with
    | nil => exact ⟨[], rfl⟩
    | cons x xs =>
      obtain ⟨block, k, hblock⟩ := exists_encBlock_nib hv policy (x :: xs)
      obtain ⟨blocks, hrest⟩ := ih ((x :: xs).drop k)
      exact ⟨block :: blocks, by simp only [encodeBlocks, hblock, hrest]⟩

/-! ### Round trip under either variant (R95 items 1 and 4) -/

/-- A block of either variant decodes to its values under either: both read the marker as a RAW header, and a legal
descriptor as a CODED one. -/
theorem EncodedBlock.decodes_sentinel {policy : FFPolicy} {v v' : Variant} {vs : List Word} {block : List Byte}
    {k : Nat} (hv : v = .sentinelNib ∨ v = .tableNib) (hv' : v' = .sentinelNib ∨ v' = .tableNib)
    (h : EncodedBlock policy v vs block k) (tail : List Byte) :
    decBlock v' (block ++ tail) vs.length = .ok (vs.take k, block.length) := by
  cases h with
  | raw hfast =>
    have hmarked : v ≠ .headerlessNib := by rcases hv with rfl | rfl <;> decide
    rw [length_encRaw hfast.1, if_neg hmarked, encRaw_sentinel hv, List.cons_append,
      decBlock_of_raw (hdrClass_nibbleMarker hv'), decRaw_sentinel hv']
    exact decRawMarked_literals hfast 0xF0 tail
  | coded =>
    have hn := ne_basic4_of_sentinel hv
    have hn' := ne_basic4_of_sentinel hv'
    rw [← List.take_eq_take_min, group_nib hn, ← group_nib hn', codedBlock_nib hn, ← codedBlock_nib hn']
    exact decBlock_codedBlock_nib hn' vs tail

/-- With the table of group width 2 the SIMD block function of a nibble variant is the scalar one (R115). -/
theorem decBlockSimd_buildTable_nib {v : Variant} (hv : v ≠ .basic4) : decBlockSimd (buildTable 2) v = decBlock v := by
  funext S rem
  rw [← group_nib hv, decBlockSimd_buildTable]

/-- Settles O39: the encoder never fails, its stream decodes block by block, and the table path is the scalar one. -/
theorem sentinelStreamsRoundTrip : Obligations.SentinelStreamsRoundTrip := by
  intro policy v v' vs tail hv hv'
  obtain ⟨blocks, henc⟩ := exists_encodeBlocks_nib (ne_basic4_of_sentinel hv) policy vs.length vs
  have hscalar : decodeAll (decBlock v') (blocks.flatten ++ tail) vs.length = .ok (vs, blocks.flatten.length) :=
    (encodedStream_of_encodeAll henc).decodes (good := fun _ => True)
      (fun _ hblock _ => ⟨trivial, hblock.decodes_sentinel hv hv'⟩) trivial tail (Nat.le_refl _)
  exact ⟨blocks, henc, hscalar, decBlockSimd_buildTable_nib (ne_basic4_of_sentinel hv') ▸ hscalar⟩

end Sys2Proof.Machine
end

