-- ==== Sys2Proof/Proofs/EngineFetch.lean ====
section
/-! What the engine runs in a step: the command word, or in a DECODE RUN step the header at cursor p (44_engine.md R98
to R100); how a write to CMD starts a command (R96), and how an illegal one ends (R98, R102). -/

namespace Sys2Proof.Machine

open Sys2Proof.Claims

/-! ### The instruction a step fetches -/

/-- A step with nothing pending runs the instruction that a running engine fetches. -/
theorem step_busy {s : State} (hin : s.inputs = []) (hp : s.eng.phase ≠ .idle) :
    step s = exec s.tick.fetch s.tick := (step_of_no_input hin).trans (engineTurn_busy hp)

/-- Where no header is due, that is the command. -/
theorem step_command {s : State} (hin : s.inputs = []) (hp : s.eng.phase ≠ .idle) (hd : s.headerDue = false) :
    step s = exec (decodeCmd s.eng.w) s.tick := by
  rw [step_busy hin hp, State.fetch_command (s := s.tick) hd, State.tick_eng]

theorem step_start {s : State} (hin : s.inputs = []) (hp : s.eng.phase = .start) :
    step s = exec (decodeCmd s.eng.w) s.tick :=
  step_command hin (by simp [hp]) (State.headerDue_start hp)

/-- A DECODE RUN step with a value to produce and a byte left finds a header (R100). -/
theorem State.headerDue_decode {s : State} (hp : s.eng.phase = .run) (hop : s.eng.op = .decode) (hi : s.eng.i < s.n)
    (hcap : s.eng.p < s.byteCap.toNat) : s.headerDue = true := by simp [State.headerDue, hp, hop, hi, hcap]

theorem State.headerDue_finished {s : State} (h : s.n ≤ s.eng.i ∨ s.byteCap.toNat ≤ s.eng.p) : s.headerDue = false := by
  simp only [State.headerDue, Bool.and_eq_false_iff, decide_eq_false_iff_not]
  omega

/-- Without a race the header is the byte that `Mem` holds at cursor p. -/
theorem step_header {s : State} (hin : s.inputs = []) (hp : s.eng.phase = .run) (hop : s.eng.op = .decode)
    (hi : s.eng.i < s.n) (hcap : s.eng.p < s.byteCap.toNat) (hrace : s.race = []) :
    step s = exec (decodeHdr s.eng.variant (Memory.read s.mem (s.byteBase.toNat + s.eng.p))) s.tick := by
  rw [step_busy hin (by simp [hp]), State.fetch_header (s := s.tick) (State.headerDue_decode hp hop hi hcap),
    State.engRead_of_race_nil (s := s.tick) hrace]
  rfl

/-- Settles O7: by the phase, and by whether a header is due. -/
theorem stepRunsTheFetchedInstruction : Obligations.StepRunsTheFetchedInstruction := by
  intro s hin
  refine ⟨fun hp => ?_, step_start hin, fun hp hop => ?_, fun hp hop hi hcap => step_header hin hp hop hi hcap,
    fun hp _ hdone => ?_, fun rest => ?_, fun rest hb hp => ?_⟩
  · rw [step_of_no_input hin, engineTurn_idle hp]
  · exact step_command hin (by simp [hp]) (State.headerDue_encode hop)
  · exact step_command hin (by simp [hp]) (State.headerDue_finished hdone)
  · rw [step_of_engine rfl]
    rfl
  · exact (step_of_wait_busy (s := { s with inputs := .wait :: rest }) rfl hb).trans (engineTurn_busy hp)

/-- Settles O8: decoding undoes encoding, so what the engine fetches is the instruction. -/
theorem stepRunsTheEncodedInstruction : Obligations.StepRunsTheEncodedInstruction := by
  intro i s hwf hin
  have hdecode := decodeOfEncodeGivesTheInstruction i hwf
  refine ⟨fun w henc hp hw => ?_, fun v h henc hp hop hv hrace hi hcap hread => ?_⟩
  · rw [henc] at hdecode
    rw [step_start hin hp, hw]
    exact congrArg (exec · s.tick) hdecode
  · rw [henc] at hdecode
    rw [step_header hin hp hop hi hcap hrace, hread, hv]
    exact congrArg (exec · s.tick) hdecode

/-! ### A write to CMD (R96) -/

/-- Settles O12: while BUSY = 1 no register takes a write, and otherwise CMD accepts the word. -/
theorem cmdWriteStartsACommand : Obligations.CmdWriteStartsACommand := by
  intro s rest w
  refine ⟨fun hb => ?_, fun hb => ?_⟩
  · exact step_regWrite_noEffect (o := Reg.cmd.offset) (by decide) (by decide)
      (State.writeOffset_busy (s := after s rest) hb _ w)
  · refine (step_regWrite_idle hb rest w .cmd).trans (congrArg Host.Outcome.next ?_)
    have hidle : ¬(after s rest).status.busy = true := by simp [after, hb]
    exact if_neg hidle

/-! ### An illegal command (R58, R98, R102) -/

/-- Settles O20: ILLEGAL in its START step is a completion at cursors 0, and its operation is no ENCODE or DECODE. -/
theorem illegalCommandChangesNoResult : Obligations.IllegalCommandChangesNoResult := by
  intro w s hp
  rw [exec_illegal, execIllegal, runCommand_start hp]
  rfl

end Sys2Proof.Machine
end

