-- ==== Sys2Proof/Proofs/CommandProgress.lean ====
section
/-! The START checks of ENCODE and DECODE in their order (44_engine.md R97, R98, 60_exceptions.md R119), and that every
command completes (R103). -/

namespace Sys2Proof.Machine

open Sys2Proof.Claims

/-! ### The START checks (R97, R98, R110) -/

theorem State.rangeBad_iff (s : State) : s.rangeBad = true ↔ Claims.rangeBad s := by
  rw [State.rangeBad, Bool.or_eq_true, decide_eq_true_iff, decide_eq_true_iff]
  rfl

theorem State.overlap_iff (s : State) : s.overlap = true ↔ Claims.overlap s := by
  simp only [State.overlap, Bool.and_eq_true, decide_eq_true_iff, and_assoc]
  rfl

theorem State.tableReady_iff (s : State) (v : Variant) :
    s.tableReady v = true ↔ s.status.tableValid = true ∧ s.status.tableG2 = decide (v ≠ .basic4) := by
  have hwidth : decide (v.group = 2) = decide (v ≠ .basic4) := by cases v <;> rfl
  rw [State.tableReady, hwidth, Bool.and_eq_true, beq_iff_eq]

theorem State.tableMissing_iff (s : State) (op : EngOp) (v : Variant) (simd : Bool) :
    (op = .decode ∧ simd = true ∧ ¬s.tableReady v = true) ↔ tableMissing s op v simd := by
  rw [tableMissing, State.tableReady_iff]

section
variable {s : State} {op : EngOp} {v : Variant} {simd : Bool}

theorem State.startError_align (hal : s.valBase.toNat % 4 ≠ 0) : s.startError op v simd = .align := if_pos hal

theorem State.startError_range (hal : s.valBase.toNat % 4 = 0) (hr : Claims.rangeBad s) :
    s.startError op v simd = .range := by
  rw [State.startError, if_neg (not_not.2 hal), if_pos (s.rangeBad_iff.2 hr)]

theorem State.startError_overlap (hal : s.valBase.toNat % 4 = 0) (hr : ¬Claims.rangeBad s) (ho : Claims.overlap s) :
    s.startError op v simd = .overlap := by
  rw [State.startError, if_neg (not_not.2 hal), if_neg (mt s.rangeBad_iff.1 hr), if_pos (s.overlap_iff.2 ho)]

theorem State.startError_tableNotReady (hal : s.valBase.toNat % 4 = 0) (hr : ¬Claims.rangeBad s)
    (ho : ¬Claims.overlap s) (ht : tableMissing s op v simd) : s.startError op v simd = .tableNotReady := by
  rw [State.startError, if_neg (not_not.2 hal), if_neg (mt s.rangeBad_iff.1 hr), if_neg (mt s.overlap_iff.1 ho),
    if_pos ((s.tableMissing_iff op v simd).2 ht)]

/-- The model finds no failing check exactly where R98's checks all pass. -/
theorem State.startError_eq_none_iff : s.startError op v simd = .none ↔ startPasses s op v simd := by
  constructor
  · intro h
    rw [State.startError] at h
    split_ifs at h with hal hr ho ht
    exact ⟨not_not.1 hal, mt s.rangeBad_iff.2 hr, mt s.overlap_iff.2 ho, mt (s.tableMissing_iff op v simd).2 ht⟩
  · rintro ⟨hal, hr, ho, ht⟩
    rw [State.startError, if_neg (not_not.2 hal), if_neg (mt s.rangeBad_iff.1 hr), if_neg (mt s.overlap_iff.1 ho),
      if_neg (mt (s.tableMissing_iff op v simd).1 ht)]

end

/-! ### The START step of ENCODE and DECODE -/

theorem exec_start_of_codecOp {i : Instr} {op : EngOp} {v : Variant} {b : Bool} (hc : codecOp i = some (op, v, b))
    {s : State} (hp : s.eng.phase = .start) : exec i s = .next (startCodec (s.load op v b)) := by
  rw [exec_of_codecOp hc]
  rcases codecOp_isCodec hc with ⟨rfl, rfl⟩ | rfl
  · rw [if_pos rfl, encodeCommand, runCommand_start hp]
  · rw [if_neg (by decide), decodeCommand, runCommand_start hp]

/-- A codec row is what `codecOp` says of its instruction, with simd_eff (R110). -/
theorem codecRow_iff (i : Instr) (op : EngOp) (v : Variant) (simd : Bool) :
    (i, op, v, simd) ∈ codecRows ↔ ∃ b, codecOp i = some (op, v, b) ∧ simd = (b || v == .tableNib) := by
  constructor
  · have hrows : ∀ row ∈ codecRows,
        ∃ b, codecOp row.1 = some (row.2.1, row.2.2.1, b) ∧ row.2.2.2 = (b || row.2.2.1 == .tableNib) := by decide
    exact hrows (i, op, v, simd)
  · rintro ⟨b, hc, rfl⟩
    cases i <;> simp only [codecOp, reduceCtorEq, Option.some.injEq, Prod.mk.injEq] at hc <;>
      obtain ⟨rfl, rfl, rfl⟩ := hc <;> decide

/-- The START step of a codec row runs the checks on what R98 loads. -/
theorem exec_start_codecRow {i : Instr} {op : EngOp} {v : Variant} {simd : Bool} (hrow : (i, op, v, simd) ∈ codecRows)
    {s : State} (hp : s.eng.phase = .start) : exec i s = .next (startCodec (loaded s op v simd)) := by
  obtain ⟨b, hc, rfl⟩ := (codecRow_iff i op v simd).1 hrow
  exact exec_start_of_codecOp hc hp

theorem complete_loaded {op : EngOp} (hop : op.isCodec = true) (s : State) (v : Variant) (simd : Bool) (e : ErrCode) :
    (loaded s op v simd).complete e = ended (loaded s op v simd) e 0 0 := by
  simp [State.complete, ended, loaded, hop, Status.completed]

theorem exec_start_fails {i : Instr} {op : EngOp} {v : Variant} {simd : Bool} (hrow : (i, op, v, simd) ∈ codecRows)
    {s : State} (hp : s.eng.phase = .start) {e : ErrCode} (he : s.startError op v simd = e) (hne : e ≠ .none) :
    exec i s = .next (ended (loaded s op v simd) e 0 0) := by
  have hop : op.isCodec = true := by
    obtain ⟨b, hc, -⟩ := (codecRow_iff i op v simd).1 hrow
    rcases codecOp_isCodec hc with ⟨rfl, -⟩ | rfl <;> rfl
  have he : (loaded s op v simd).startError op v simd = e := he
  rw [exec_start_codecRow hrow hp]
  rcases startCodec_cases (loaded s op v simd) with ⟨-, h⟩ | ⟨hnone, -⟩
  · rw [h, ← complete_loaded hop]
    exact congrArg (fun e => Host.Outcome.next ((loaded s op v simd).complete e)) he
  · exact absurd (he.symm.trans hnone) hne

theorem exec_start_passes {i : Instr} {op : EngOp} {v : Variant} {simd : Bool} (hrow : (i, op, v, simd) ∈ codecRows)
    {s : State} (hp : s.eng.phase = .start) (hpass : startPasses s op v simd) :
    exec i s = .next { loaded s op v simd with eng := { (loaded s op v simd).eng with phase := .run } } := by
  have hnone : (loaded s op v simd).startError op v simd = .none := State.startError_eq_none_iff.2 hpass
  rw [exec_start_codecRow hrow hp]
  rcases startCodec_cases (loaded s op v simd) with ⟨herr, -⟩ | ⟨-, h⟩
  · exact absurd hnone herr
  · rw [h]

/-- Settles O22: each check fails where the ones before it pass. -/
theorem codecStartChecksInOrder : Obligations.CodecStartChecksInOrder := by
  rintro ⟨i, op, v, simd⟩ hrow s hp
  exact ⟨fun hal => exec_start_fails hrow hp (State.startError_align hal) (by decide),
    fun hal hr => exec_start_fails hrow hp (State.startError_range hal hr) (by decide),
    fun hal hr ho => exec_start_fails hrow hp (State.startError_overlap hal hr ho) (by decide),
    fun hal hr ho ht => exec_start_fails hrow hp (State.startError_tableNotReady hal hr ho ht) (by decide),
    exec_start_passes hrow hp⟩

/-! ### Every command completes (R103) -/

/-- A move that leaves the engine IDLE is a completion, which sets DONE (R102). -/
theorem EngineMove.done_of_idle {s t : State} (hm : EngineMove s t) (hp : t.eng.phase = .idle) :
    t.status.done = true := by
  cases hm with
  | illegal | classify | tableInit | startFails | completes => rfl
  | startPasses => cases hp
  | writesBlock _ _ hrun | writesValues _ _ hrun => exact absurd (hrun.symm.trans hp) (by decide)

/-- The run of a command to its completion ends with DONE = 1. -/
theorem State.Inv.runOn_done {s : State} (h : s.Inv) (hp : s.eng.phase ≠ .idle) (fuel : Nat) :
    (s.runOn fuel).Inv ∧ ((s.runOn fuel).eng.phase = .idle → (s.runOn fuel).status.done = true) := by
  refine State.runOn_keeps (P := fun u => u.Inv ∧ (u.eng.phase = .idle → u.status.done = true))
    (fun u t ⟨hu, hdone⟩ ht => ⟨engineTurn_keepsInv hu ht, ?_⟩) fuel ⟨h, fun hidle => absurd hidle hp⟩
  rcases engineTurn_cases hu ht with ⟨-, rfl⟩ | hm
  · exact hdone
  · exact hm.done_of_idle

/-- A START step goes to RUN only by an ENCODE or DECODE whose checks all pass (R98). -/
theorem EngineMove.start_outcome {s t : State} (hm : EngineMove s t) (hp : s.eng.phase = .start) :
    t.eng.phase = .idle ∨ ∃ row ∈ codecRows, decodeCmd s.eng.w = row.1 ∧
      Claims.startPasses s row.2.1 row.2.2.1 row.2.2.2 ∧ t.eng.phase = .run := by
  cases hm with
  | illegal | classify | tableInit | startFails | completes => exact .inl rfl
  | startPasses op v b _ hc hnone =>
    exact .inr ⟨_, (codecRow_iff _ op v _).2 ⟨b, hc, rfl⟩, rfl, State.startError_eq_none_iff.1 hnone, rfl⟩
  | writesBlock _ _ hrun | writesValues _ _ hrun => exact absurd (hp.symm.trans hrun) (by decide)

/-- Settles O45: the run to completion is a run of the machine, and each turn lowers the bound on the turns left. -/
theorem everyCommandCompletes : Obligations.EveryCommandCompletes := by
  intro s h hb hin
  have hp := h.busyIffRunning.1 hb
  refine ⟨?_, fun hstart => ?_⟩
  · obtain ⟨k, hk, hrun⟩ := h.run_runOn hin (s.n + 2)
    obtain ⟨hinv, hdone⟩ := h.runOn_done hp (s.n + 2)
    have hidle := h.runOn_idle_of_turnsLeft s.turnsLeft_le
    have hbusy := mt hinv.busyIffRunning.1 (not_not.2 hidle)
    exact ⟨k, _, hk, hrun, hidle, Bool.eq_false_of_not_eq_true hbusy, hdone hidle⟩
  · obtain ⟨t, ht, -⟩ := engineTurn_keepsOperands s
    refine ⟨t, (step_of_no_input hin).trans ht, ?_⟩
    rcases engineTurn_cases h ht with ⟨hidle, -⟩ | hm
    · exact absurd hidle hp
    · exact hm.start_outcome hstart

end Sys2Proof.Machine
end

