-- ==== Sys2Proof/Proofs/BlockSteps.lean ====
section
/-! The RUN step of ENCODE and of DECODE (44_engine.md R99 to R101), outcome by outcome: what ends the command, and what
a written block leaves. A header instruction is the DECODE step (R100). -/

namespace Sys2Proof.Machine

open Sys2Proof.Claims

/-! ### Completion at the cursors (R102) -/

theorem EngOp.isCodec_iff (op : EngOp) : op.isCodec = true ↔ op = .encode ∨ op = .decode := by
  cases op <;> simp [EngOp.isCodec]

theorem complete_eq_endedAtCursors (s : State) (e : ErrCode) : s.complete e = endedAtCursors s e := by
  rw [endedAtCursors, State.complete]
  simp only [← EngOp.isCodec_iff]
  split <;> rfl

/-- RESULT and VDONE take the cursors whole: they stay within 32 bits. -/
theorem toNat_complete_cursors {s : State} (hop : s.eng.op = .encode ∨ s.eng.op = .decode) (hp : s.eng.p < 2 ^ 32)
    (hi : s.eng.i < 2 ^ 32) (e : ErrCode) :
    (s.complete e).result.toNat = s.eng.p ∧ (s.complete e).vdone.toNat = s.eng.i := by
  rw [State.complete_result, State.complete_vdone, if_pos ((EngOp.isCodec_iff _).2 hop),
    if_pos ((EngOp.isCodec_iff _).2 hop), BitVec.toNat_ofNat, BitVec.toNat_ofNat]
  exact ⟨Nat.mod_eq_of_lt hp, Nat.mod_eq_of_lt hi⟩

/-! ### The rows in their RUN steps -/

theorem codecOp_encodeRow : ∀ row ∈ encodeRows, codecOp row.1 = some (.encode, row.2, false) := by decide

theorem codecOp_decodeRow : ∀ row ∈ decodeRows,
    ∃ b, codecOp row.1 = some (.decode, row.2.1, b) ∧ row.2.2 = (b || row.2.1 == .tableNib) := by decide

theorem exec_encodeRow_run {row : Instr × Variant} (hrow : row ∈ encodeRows) {s : State} (hp : s.eng.phase = .run) :
    exec row.1 s = .next (encodeRun s) := by
  rw [exec_of_codecOp (codecOp_encodeRow row hrow), if_pos rfl, encodeCommand, runCommand_run hp]

theorem exec_decodeRow_run {row : Instr × Variant × Bool} (hrow : row ∈ decodeRows) {s : State}
    (hp : s.eng.phase = .run) : exec row.1 s = .next (decodeRun s) := by
  obtain ⟨b, hc, -⟩ := codecOp_decodeRow row hrow
  rw [exec_of_codecOp hc, if_neg (by decide), decodeCommand, runCommand_run hp]

/-! ### The outcomes of a RUN step -/

theorem encodeRun_done {s : State} (hi : s.eng.i = s.n) : encodeRun s = s.complete .none := if_pos hi

theorem encodeRun_error {s : State} (hi : s.eng.i < s.n) {e : ErrCode}
    (he : encBlock s.cfg.ffPolicy s.eng.variant s.nextValues = .error e) : encodeRun s = s.complete e := by
  rw [encodeRun, if_neg (Nat.ne_of_lt hi), he]

theorem encodeRun_overflow {s : State} (hi : s.eng.i < s.n) {block : List Byte} {k : Nat}
    (hb : encBlock s.cfg.ffPolicy s.eng.variant s.nextValues = .ok (block, k))
    (hbig : s.byteCap.toNat < s.eng.p + block.length) : encodeRun s = s.complete .dstOverflow := by
  rw [encodeRun, if_neg (Nat.ne_of_lt hi), hb]
  exact if_pos hbig

theorem encodeRun_block {s : State} (hi : s.eng.i < s.n) {block : List Byte} {k : Nat}
    (hb : encBlock s.cfg.ffPolicy s.eng.variant s.nextValues = .ok (block, k))
    (hfit : s.eng.p + block.length ≤ s.byteCap.toNat) : encodeRun s = s.putBlock block k := by
  rw [encodeRun, if_neg (Nat.ne_of_lt hi), hb]
  exact if_neg (Nat.not_lt.2 hfit)

theorem decodeRun_done {s : State} (hi : s.eng.i = s.n) : decodeRun s = s.complete .none := if_pos hi

theorem decodeRun_error {s : State} (hi : s.eng.i < s.n) {e : ErrCode}
    (he : s.blockDecoder s.stream s.rem = .error e) : decodeRun s = s.complete e := by
  rw [decodeRun, if_neg (Nat.ne_of_lt hi), decodeBlock, he]

theorem decodeRun_block {s : State} (hi : s.eng.i < s.n) {values : List Word} {len : Nat}
    (hd : s.blockDecoder s.stream s.rem = .ok (values, len)) : decodeRun s = s.putValues values len := by
  rw [decodeRun, if_neg (Nat.ne_of_lt hi), decodeBlock, hd]

/-! ### ENCODE (R99) -/

theorem State.engReadWords_of_race_nil {s : State} (hrace : s.race = []) (a k : Nat) :
    s.engReadWords a k = (List.range k).map fun j => Memory.read32 s.mem (a + 4 * j) := by
  induction k generalizing a with
  | zero => rfl
  | succ k ih =>
    have hshift : ∀ j, a + 4 + 4 * j = a + 4 * (j + 1) := fun j => by omega
    rw [State.engReadWords, ih, State.engReadBytes_of_race_nil hrace, List.range_succ_eq_map, List.map_cons,
      List.map_map]
    simp only [hshift]
    rfl

/-- Without a race an ENCODE step reads the value words of `Mem` (R40, R46). -/
theorem State.nextValues_of_race_nil {s : State} (hrace : s.race = []) :
    s.nextValues = (List.range (min 4 (valuesLeft s))).map fun k =>
      Memory.read32 s.mem (s.valBase.toNat + 4 * (s.eng.i + k)) := by
  simp only [Nat.mul_add, ← Nat.add_assoc]
  exact State.engReadWords_of_race_nil hrace s.valAddr _

/-- `t` is `s` after an encoded block of `k` values: the block stands at cursor p, no other byte changed, both cursors
advanced, and every other field is that of `s` (R99). -/
def blockWritten (s t : State) (block : List Byte) (k : Nat) : Prop :=
  t = { s with mem := t.mem, eng := { s.eng with i := s.eng.i + k, p := s.eng.p + block.length } } ∧
    Memory.readBytes t.mem (s.byteBase.toNat + s.eng.p) block.length = block ∧
    memoryFrame s t (s.byteBase.toNat + s.eng.p) block.length

theorem blockWritten_putBlock {s : State} (hq : quiet s) (block : List Byte) (k : Nat) :
    blockWritten s (s.putBlock block k) block k := by
  obtain ⟨hrace, hwf⟩ := hq
  refine ⟨?_, ?_, fun a ha => s.read_putBlock_outside ha⟩
  · rw [State.putBlock_of_race_nil hrace]
  · rw [State.putBlock_mem, State.engWriteBytes_of_race_nil hrace]
    exact Memory.readBytes_writeBytes s.byteAddr block hwf

/-- Settles O23: the outcomes of the step, on the values that `Mem` holds. -/
theorem encodeRunStepWritesOneBlock : Obligations.EncodeRunStepWritesOneBlock := by
  intro row hrow s hp hv hq hi
  have hvals := State.nextValues_of_race_nil hq.1
  rw [exec_encodeRow_run hrow hp, ← hv]
  simp only [← hvals, ← complete_eq_endedAtCursors]
  refine ⟨fun hdone => ?_, fun hlt => ⟨fun e he => ?_, fun block k hb => ⟨fun hbig => ?_, fun hfit => ?_⟩⟩⟩
  · rw [encodeRun_done hdone]
  · rw [encodeRun_error hlt he]
  · rw [encodeRun_overflow hlt hb hbig]
  · exact ⟨_, congrArg _ (encodeRun_block hlt hb hfit), blockWritten_putBlock hq block k⟩

/-! ### No block function looks past 17 bytes (R68) -/

theorem payloadLen_le (codes : List LengthCode) : payloadLen codes ≤ 4 * codes.length := by
  have h := payloadLen_take codes codes.length
  rw [List.take_length] at h
  exact h ▸ payloadOffset_le codes codes.length

/-- The slots look at the payload only (R63). -/
theorem slotValues_take {codes : List LengthCode} {n : Nat} (h : payloadLen codes ≤ n) (bytes : List Byte) :
    slotValues codes (bytes.take n) = slotValues codes bytes := by
  induction codes generalizing n bytes with
  | nil => rfl
  | cons c cs ih =>
    rw [payloadLen] at h
    rw [slotValues, slotValues, List.take_take, Nat.min_eq_left (by omega), List.drop_take, ih (by omega)]

theorem length_take_maxBlock_lt_iff (S : List Byte) {len : Nat} (hmax : len ≤ Config.maxBlock) :
    (S.take Config.maxBlock).length < len ↔ S.length < len := by
  rw [List.length_take]
  omega

/-- A slice within the first 17 bytes is the slice of the list. -/
theorem take_drop_take_maxBlock (S : List Byte) {j k : Nat} (h : j + k ≤ Config.maxBlock) :
    ((S.take Config.maxBlock).drop j).take k = (S.drop j).take k := by
  rw [List.drop_take, List.take_take, Nat.min_eq_left (by omega)]

theorem decRawMarked_take (S : List Byte) (rem : Nat) :
    decRawMarked (S.take Config.maxBlock) rem = decRawMarked S rem := by
  simp only [decRawMarked, length_take_maxBlock_lt_iff S (len := 5) (by decide),
    take_drop_take_maxBlock S (j := 1) (k := 4) (by decide)]

theorem decRawHeaderless_take (h : Byte) (S : List Byte) (rem : Nat) :
    decRawHeaderless h (S.take Config.maxBlock) rem = decRawHeaderless h S rem := by
  simp only [decRawHeaderless, length_take_maxBlock_lt_iff S (len := 4) (by decide),
    take_drop_take_maxBlock S (j := 1) (k := 3) (by decide)]

theorem decRaw_take (v : Variant) (h : Byte) (S : List Byte) (rem : Nat) :
    decRaw v ((h :: S).take Config.maxBlock) rem = decRaw v (h :: S) rem := by
  cases v with
  | basic4 | sentinelNib | tableNib => exact decRawMarked_take (h :: S) rem
  | headerlessNib => exact decRawHeaderless_take h (h :: S) rem

theorem decCoded_take {codes : List LengthCode} (hlen : codes.length ≤ 4) (S : List Byte) (rem : Nat) :
    decCoded codes (S.take Config.maxBlock) rem = decCoded codes S rem := by
  have hmax := payloadLen_le (codes.take rem)
  rw [List.length_take] at hmax
  have hfits := length_take_maxBlock_lt_iff S (len := 1 + payloadLen (codes.take rem))
    (by unfold Config.maxBlock; omega)
  have hslots : slotValues (codes.take rem) ((S.take Config.maxBlock).drop 1) =
      slotValues (codes.take rem) (S.drop 1) := by
    rw [List.drop_take, slotValues_take (by unfold Config.maxBlock; omega)]
  simp only [decCoded, hfits, hslots]

/-- The first 17 bytes from cursor p decide a DECODE step (R100; log 13). -/
theorem decBlock_take (v : Variant) (S : List Byte) (rem : Nat) :
    decBlock v (S.take Config.maxBlock) rem = decBlock v S rem := by
  cases S with
  | nil => rfl
  | cons h S =>
    have htake : (h :: S).take Config.maxBlock = h :: S.take 16 := rfl
    cases hc : hdrClass v h with
    | raw => rw [decBlock_of_raw hc, htake, decBlock_of_raw hc, ← htake, decRaw_take]
    | coded =>
      rw [decBlock_of_coded hc, htake, decBlock_of_coded hc, ← htake,
        decCoded_take (length_codesOf v h ▸ group_le_four v)]
    | malformed => rw [decBlock_of_malformed hc, htake, decBlock_of_malformed hc]

/-! ### DECODE (R100) -/

theorem Memory.take_readBytes (m : Memory) (a j n : Nat) :
    (Memory.readBytes m a n).take j = Memory.readBytes m a (min j n) := by
  have hslice := Memory.take_drop_readBytes m a (n := n) (j := 0) (k := min j n) (by omega)
  rw [List.take_eq_take_min, Memory.length_readBytes]
  exact hslice

/-- Without a race a DECODE step sees the first 17 of the bytes left of BB. -/
theorem State.stream_of_race_nil {s : State} (hrace : s.race = []) :
    s.stream = (streamBytes s).take Config.maxBlock := by
  rw [State.stream, State.engReadBytes_of_race_nil hrace, streamBytes, Memory.take_readBytes]
  rfl

theorem State.blockDecoder_of_tableFits {s : State} (h : tableFits s s.eng.variant) :
    s.blockDecoder = decBlock s.eng.variant := by
  unfold State.blockDecoder
  split
  · rename_i hsimd
    funext S rem
    rw [h hsimd, decBlockSimd_buildTable]
  · rfl

/-- Without a race a DECODE step decodes the bytes left of BB (R100, R115). -/
theorem State.blockDecoder_stream {s : State} (hrace : s.race = []) (htable : tableFits s s.eng.variant) :
    s.blockDecoder s.stream s.rem = decBlock s.eng.variant (streamBytes s) (valuesLeft s) := by
  rw [State.blockDecoder_of_tableFits htable, State.stream_of_race_nil hrace, decBlock_take]
  rfl

/-- Settles O28: the outcomes of the step, on the bytes that `Mem` holds. -/
theorem decodeRunStepDecodesOneBlock : Obligations.DecodeRunStepDecodesOneBlock := by
  intro row hrow s hp hv _ hq htable hi _
  have hblock := State.blockDecoder_stream hq.1 (hv ▸ htable)
  rw [exec_decodeRow_run hrow hp, ← hv, ← hblock]
  simp only [← complete_eq_endedAtCursors]
  refine ⟨fun hdone => ?_, fun hlt => ⟨fun e he => ?_, fun values len hd => ?_⟩⟩
  · rw [decodeRun_done hdone]
  · rw [decodeRun_error hlt he]
  · exact ⟨_, congrArg _ (decodeRun_block hlt hd), valuesWritten_putValues hq values len⟩

/-- With no byte left every block function ends with TRUNCATED (R78, R86, R92). -/
theorem State.blockDecoder_nil (s : State) (rem : Nat) : s.blockDecoder [] rem = .error .truncated := by
  unfold State.blockDecoder
  split <;> rfl

/-- Settles O29: the block function of the command is that of the first byte's class, as is the header's. -/
theorem headerInstructionIsTheDecodeStep : Obligations.HeaderInstructionIsTheDecodeStep := by
  intro row hrow s hp _ hi
  have hi : s.eng.i < s.n := hi
  rw [exec_decodeRow_run hrow hp]
  refine ⟨fun hcap => ⟨_, rfl, ?_⟩, fun hcap => ?_⟩
  · obtain ⟨S, hS⟩ := State.stream_cons hcap
    rw [State.byteAddr] at hS
    rw [exec_decodeHdr_eq_decodeBlock hS, decodeRun, if_neg (Nat.ne_of_lt hi), decodeBlock, decodeBlock, hS,
      State.blockDecoder_cons]
  · have hnil : s.stream = [] := List.length_eq_zero_iff.1 (by rw [s.length_stream]; omega)
    rw [decodeRun_error hi (by rw [hnil, State.blockDecoder_nil]), complete_eq_endedAtCursors]

/-! ### A step is atomic (R101) -/

/-- Settles O49: a RUN step completes at the cursors, or writes the block that the block function answers. -/
theorem blockStepsAreAtomic : Obligations.BlockStepsAreAtomic := by
  rintro s t h ⟨hin, hstep⟩ hp
  rw [step_of_no_input hin] at hstep
  obtain ⟨op, v, b, hc, hop, -, -, -, hi, hcap⟩ := h.running hp
  have hquiet : s.race = [] → quiet s.tick := fun hrace => ⟨hrace, h.memWf⟩
  cases h.blockStep hp hstep with
  | completes e =>
    have hcodec : s.eng.op = .encode ∨ s.eng.op = .decode := hop ▸ (codecOp_isCodec hc).imp And.left id
    obtain ⟨hresult, hvdone⟩ := toNat_complete_cursors (s := s.tick) hcodec (lt_of_le_of_lt hcap s.byteCap.isLt)
      (lt_of_le_of_lt hi s.valCount.isLt) e
    exact .inr ⟨rfl, rfl, rfl, rfl, hresult, hvdone, rfl, rfl⟩
  | encodes block k henc hb _ hlen _ hk =>
    refine .inl ⟨hp, Nat.lt_add_of_pos_right hk, Nat.lt_add_of_pos_right hlen, rfl, rfl, rfl,
      fun hrace _ => ⟨block, k, ?_, rfl, rfl, (blockWritten_putBlock (hquiet hrace) block k).2⟩,
      fun _ hdec => absurd (henc.symm.trans hdec) (by decide)⟩
    rw [State.nextValues_of_race_nil (s := s.tick) hrace] at hb
    exact hb
  | decodes values len hdec hd _ hlen _ hv =>
    refine .inl ⟨hp, Nat.lt_add_of_pos_right hv, Nat.lt_add_of_pos_right hlen, rfl, rfl, rfl,
      fun _ henc => absurd (hdec.symm.trans henc) (by decide),
      fun hrace _ => ⟨values, len, ?_, valuesWritten_putValues (hquiet hrace) values len⟩⟩
    rw [State.stream_of_race_nil (s := s.tick) hrace, decBlock_take] at hd
    exact hd

end Sys2Proof.Machine
end

