-- ==== Sys2Proof/Proofs/WholeCommands.lean ====
section
/-! Whole ENCODE and DECODE commands (44_engine.md R103 to R105): between two steps the state is that of acceptance with
a front of the output written (`State.encoding`, `State.decoding`), and each RUN step appends a block to that front. -/

namespace Sys2Proof.Machine

open Sys2Proof.Claims

/-! ### Slices of `Mem` and of the value words -/

theorem Memory.writeBytes_append (m : Memory) (a : Nat) (bs cs : List Byte) :
    Memory.writeBytes m a (bs ++ cs) = Memory.writeBytes (Memory.writeBytes m a bs) (a + bs.length) cs := by
  induction bs generalizing m a with
  | nil => rfl
  | cons b bs ih =>
    rw [List.cons_append, Memory.writeBytes, ih, Memory.writeBytes, List.length_cons, Nat.add_assoc a 1,
      Nat.add_comm 1]

theorem Memory.drop_readBytes (m : Memory) (a j n : Nat) :
    (Memory.readBytes m a n).drop j = Memory.readBytes m (a + j) (n - j) := by
  by_cases h : j ≤ n
  · obtain ⟨k, rfl⟩ := Nat.exists_eq_add_of_le h
    rw [Memory.readBytes_append, List.drop_left' (Memory.length_readBytes m a j), Nat.add_sub_cancel_left]
  · rw [List.drop_eq_nil_of_le (by rw [Memory.length_readBytes]; omega), Nat.sub_eq_zero_of_le (by omega)]
    rfl

theorem length_valueWords (s : State) : (valueWords s).length = s.n := by simp [valueWords, State.n]

/-- The value words from cursor i on, at most four (R46). -/
theorem take_four_drop_valueWords (s : State) (i : Nat) :
    ((valueWords s).drop i).take 4 =
      (List.range (min 4 (s.n - i))).map fun k => Memory.read32 s.mem (s.valBase.toNat + 4 * (i + k)) := by
  refine List.ext_getElem (by simp [length_valueWords]) fun k hk _ => ?_
  rw [List.getElem_take, List.getElem_drop, List.getElem_map, List.getElem_range]
  simp only [valueWords, List.getElem_map, List.getElem_range]

/-! ### Steps of the machine -/

theorem run_core_succ {s t : State} (h : step s = .next t) (k : Nat) :
    Host.Core.run core (k + 1) s = Host.Core.run core k t := by
  have hstep : core.step s = .next t := h
  simp only [Host.Core.run, hstep]

theorem run_core_turn {s t : State} (h : engineTurn s = .next t) (hin : s.inputs = []) (k : Nat) :
    Host.Core.run core (k + 1) s = Host.Core.run core k t :=
  run_core_succ ((step_of_no_input hin).trans h) k

/-- The START step of an ENCODE or DECODE whose checks pass (R98). -/
theorem step_start_passes {s : State} {op : EngOp} {v : Variant} {simd : Bool} (hin : s.inputs = [])
    (hp : s.eng.phase = .start) (hrow : (decodeCmd s.eng.w, op, v, simd) ∈ codecRows)
    (hpass : startPasses s op v simd) :
    step s = .next { loaded s.tick op v simd with eng := { (loaded s.tick op v simd).eng with phase := .run } } :=
  (step_start hin hp).trans (exec_start_passes (s := s.tick) hrow hp hpass)

/-! ### ENCODE (R104) -/

/-- `s` in its RUN steps as an ENCODE: the stream bytes `written` stand at the front of BB, from `i` values. -/
def State.encoding (s : State) (v : Variant) (written : List Byte) (i d : Nat) : State :=
  { s with
    mem := Memory.writeBytes s.mem s.byteBase.toNat written
    eng := { s.eng with
      phase := .run, op := .encode, variant := v, simd := v == .tableNib, i := i, p := written.length }
    draws := d }

section
variable {s : State} {v : Variant} {written : List Byte} {i d : Nat}

/-- What ENCODE has written is in BB, so the values left are those at acceptance. -/
theorem State.nextValues_encoding (hrace : s.race = []) (hover : ¬Claims.overlap s)
    (hcap : written.length ≤ s.byteCap.toNat) :
    (s.encoding v written i d).nextValues = ((valueWords s).drop i).take 4 := by
  rw [State.nextValues_of_race_nil (s := s.encoding v written i d) hrace, take_four_drop_valueWords]
  refine List.map_congr_left fun k hk => congrArg leValue
    (Memory.readBytes_congr fun a hlo hhi => Memory.read_writeBytes_outside ?_)
  have hk : k < min 4 (s.valCount.toNat - i) := List.mem_range.1 hk
  rw [Claims.overlap] at hover
  simp only [State.encoding] at hlo hhi
  omega

/-- A block that the encoder answers on the values left, and that fits, joins the stream (R99). -/
theorem State.Inv.turn_encoding_block (h : (s.encoding v written i d).Inv) (hrace : s.race = [])
    (hover : ¬Claims.overlap s) {block : List Byte} {k : Nat} (hi : i < s.n)
    (hb : encBlock s.cfg.ffPolicy v ((valueWords s).drop i) = .ok (block, k))
    (hfit : written.length + block.length ≤ s.byteCap.toNat) :
    engineTurn (s.encoding v written i d) = .next (s.encoding v (written ++ block) (i + k) (d + 1)) := by
  have hvals : encBlock s.cfg.ffPolicy v (s.encoding v written i (d + 1)).nextValues = .ok (block, k) := by
    rw [State.nextValues_encoding hrace hover (by omega), encoderLooksAtFourValues, hb]
  rw [h.engineTurn_encode rfl rfl]
  refine congrArg Host.Outcome.next ((encodeRun_block (s := s.encoding v written i (d + 1)) hi hvals hfit).trans ?_)
  rw [State.putBlock_of_race_nil (s := s.encoding v written i (d + 1)) hrace, State.encoding, State.encoding,
    Memory.writeBytes_append, List.length_append]
  rfl

end

/-- The encoder's blocks of `vs`: none, or the block of its front and the blocks of the rest. -/
theorem encodeBlocks_cases {policy : FFPolicy} {v : Variant} {fuel : Nat} {vs : List Word} {blocks : List (List Byte)}
    (hfuel : vs.length ≤ fuel) (h : encodeBlocks policy v fuel vs = .ok blocks) :
    (vs = [] ∧ blocks = []) ∨ ∃ fuel' block k rest, fuel = fuel' + 1 ∧ 0 < vs.length ∧ blocks = block :: rest ∧
      encBlock policy v vs = .ok (block, k) ∧ 1 ≤ k ∧ encodeBlocks policy v fuel' (vs.drop k) = .ok rest := by
  cases vs with
  | nil => cases fuel <;> cases h <;> exact .inl ⟨rfl, rfl⟩
  | cons x xs =>
    obtain ⟨fuel, rfl⟩ := Nat.exists_eq_succ_of_ne_zero (n := fuel) (by rw [List.length_cons] at hfuel; omega)
    rw [encodeBlocks] at h
    split at h
    · cases h
    · rename_i block k hb
      split at h
      · cases h
      · rename_i rest hrest
        cases h
        exact .inr ⟨fuel, block, k, rest, rfl, Nat.succ_pos _, rfl, hb,
          (encBlock_bounds (List.cons_ne_nil x xs) hb).1, hrest⟩

/-- From its RUN steps on an ENCODE writes the blocks of the values left and completes. -/
theorem run_encoding {s : State} {v : Variant} (hin : s.inputs = []) (hrace : s.race = [])
    (hover : ¬Claims.overlap s) {fuel : Nat} {written : List Byte} {i d : Nat} {rest : List (List Byte)}
    (h : (s.encoding v written i d).Inv) (hfuel : s.n - i ≤ fuel)
    (hblocks : encodeBlocks s.cfg.ffPolicy v fuel ((valueWords s).drop i) = .ok rest)
    (hfit : (written ++ rest.flatten).length ≤ s.byteCap.toNat) :
    ∃ k d', k ≤ fuel + 1 ∧ Host.Core.run core k (s.encoding v written i d) =
      .next ((s.encoding v (written ++ rest.flatten) s.n d').complete .none) := by
  induction fuel using Nat.strong_induction_on generalizing written i d rest with
  | _ fuel ih =>
    have hleft : ((valueWords s).drop i).length = s.n - i := by rw [List.length_drop, length_valueWords]
    rcases encodeBlocks_cases (hleft ▸ hfuel) hblocks with
      ⟨hnil, rfl⟩ | ⟨fuel', block, k, rest, rfl, hpos, rfl, hb, hk, hrest⟩
    · obtain ⟨-, -, -, -, -, -, -, -, hi, -⟩ := h.running rfl
      have hi : i = s.n := by
        rw [hnil] at hleft
        exact Nat.le_antisymm hi (Nat.le_of_sub_eq_zero hleft.symm)
      subst hi
      have hturn := (h.engineTurn_encode rfl rfl).trans (congrArg Host.Outcome.next (encodeRun_done rfl))
      rw [List.flatten_nil, List.append_nil]
      exact ⟨1, d + 1, Nat.le_add_left 1 fuel, run_core_turn hturn hin 0⟩
    · rw [List.flatten_cons, ← List.append_assoc] at hfit ⊢
      have hturn := h.turn_encoding_block hrace hover (by omega) hb
        (by rw [List.length_append, List.length_append] at hfit; omega)
      rw [List.drop_drop] at hrest
      obtain ⟨j, d', hj, hrun⟩ := ih fuel' (Nat.lt_succ_self _) (engineTurn_keepsInv h hturn) (by omega) hrest hfit
      exact ⟨j + 1, d', by omega, (run_core_turn hturn hin j).trans hrun⟩

/-- ENCODE takes no table, so its checks do not look at ENG.simd (R98). -/
theorem startPasses_encode {s : State} {v : Variant} {b : Bool} (h : startPasses s .encode v b) (b' : Bool) :
    startPasses s .encode v b' := by
  obtain ⟨hal, hr, ho, -⟩ := h
  exact ⟨hal, hr, ho, fun ⟨hop, _⟩ => by cases hop⟩

/-- Settles O43: the START step, then a step for each block of the stream, and the one that completes. -/
theorem encodeCommandWritesTheStream : Obligations.EncodeCommandWritesTheStream := by
  intro row hrow s h hin hp hrace hw hpass blocks hblocks hfit
  have hcodec : (decodeCmd s.eng.w, EngOp.encode, row.2, row.2 == .tableNib) ∈ codecRows :=
    (codecRow_iff _ _ _ _).2 ⟨false, hw ▸ codecOp_encodeRow row hrow, rfl⟩
  have hstart : step s = .next (s.encoding row.2 [] 0 (s.draws + 1)) :=
    step_start_passes hin hp hcodec (startPasses_encode hpass _)
  have hinv := everyStepKeepsTheInvariant _ _ h hstart
  obtain ⟨-, -, hover, -⟩ := hpass
  rw [encodeAll, length_valueWords] at hblocks
  obtain ⟨k, d, hk, hrun⟩ := run_encoding hin hrace hover hinv (Nat.le_refl _) hblocks hfit
  rw [List.nil_append] at hrun
  obtain ⟨hresult, hvdone⟩ := toNat_complete_cursors (s := s.encoding row.2 blocks.flatten s.n d) (.inl rfl)
    (lt_of_le_of_lt hfit s.byteCap.isLt) s.valCount.isLt .none
  exact ⟨k + 1, _, Nat.succ_le_succ hk, (run_core_succ hstart k).trans hrun, rfl, rfl, hresult,
    BitVec.eq_of_toNat_eq hvdone, Memory.readBytes_writeBytes _ _ h.memWf,
    fun a ha => Memory.read_writeBytes_outside ha⟩

/-! ### DECODE (R105) -/

/-- `s` in its RUN steps as a DECODE: the values `produced` stand at the front of VB, from `p` bytes. -/
def State.decoding (s : State) (v : Variant) (simd : Bool) (produced : List Word) (p d : Nat) : State :=
  { s with
    mem := Memory.writeBytes s.mem s.valBase.toNat (produced.flatMap fun x => leBytes x 4)
    eng := { s.eng with phase := .run, op := .decode, variant := v, simd := simd, i := produced.length, p := p }
    draws := d }

section
variable {s : State} {v : Variant} {simd : Bool} {produced : List Word} {p d : Nat}

/-- What DECODE has written is in VB, so the bytes left are those at acceptance. -/
theorem streamBytes_decoding (hover : ¬overlap s) (hi : produced.length ≤ s.n) :
    streamBytes (s.decoding v simd produced p d) =
      (Memory.readBytes s.mem s.byteBase.toNat s.byteCap.toNat).drop p := by
  rw [Memory.drop_readBytes]
  refine Memory.readBytes_congr fun a hlo hhi => Memory.read_writeBytes_outside ?_
  rw [overlap] at hover
  rw [State.n] at hi
  rw [length_flatMap_leBytes4]
  simp only [State.decoding] at hlo hhi
  omega

/-- A block that the block function answers on the bytes left gives its values to the front of VB (R100). -/
theorem State.Inv.turn_decoding_block (h : (s.decoding v simd produced p d).Inv) (hrace : s.race = [])
    (hover : ¬Claims.overlap s) {values : List Word} {len : Nat} (hi : produced.length < s.n)
    (hd : decBlock v ((Memory.readBytes s.mem s.byteBase.toNat s.byteCap.toNat).drop p) (s.n - produced.length) =
      .ok (values, len)) :
    engineTurn (s.decoding v simd produced p d) =
      .next (s.decoding v simd (produced ++ values) (p + len) (d + 1)) := by
  have hblock : (s.decoding v simd produced p (d + 1)).blockDecoder (s.decoding v simd produced p (d + 1)).stream
      (s.decoding v simd produced p (d + 1)).rem = .ok (values, len) := by
    have hdecoder : (s.decoding v simd produced p (d + 1)).blockDecoder = decBlock v := h.tick.blockDecoder_eq rfl rfl
    rw [hdecoder, State.stream_of_race_nil (s := s.decoding v simd produced p (d + 1)) hrace,
      decBlock_take, streamBytes_decoding hover (Nat.le_of_lt hi)]
    exact hd
  rw [h.engineTurn_decode rfl rfl]
  refine congrArg Host.Outcome.next ((decodeRun_block (s := s.decoding v simd produced p (d + 1)) hi hblock).trans ?_)
  rw [State.putValues_of_race_nil (s := s.decoding v simd produced p (d + 1)) hrace, State.decoding, State.decoding,
    List.flatMap_append, Memory.writeBytes_append, length_flatMap_leBytes4, List.length_append]
  rfl

end

/-- A decoded stream of `n` values: none, or a block and the stream after it. -/
theorem decodeBlocks_cases {dec : List Byte → Nat → Except ErrCode (List Word × Nat)} {fuel n len : Nat}
    {S : List Byte} {values : List Word} (hfuel : n ≤ fuel) (h : decodeBlocks dec fuel S n = .ok (values, len)) :
    (n = 0 ∧ values = [] ∧ len = 0) ∨ ∃ fuel' front l rest l', fuel = fuel' + 1 ∧ 0 < n ∧
      dec S n = .ok (front, l) ∧ decodeBlocks dec fuel' (S.drop l) (n - front.length) = .ok (rest, l') ∧
      values = front ++ rest ∧ len = l + l' := by
  cases n with
  | zero => cases fuel <;> cases h <;> exact .inl ⟨rfl, rfl, rfl⟩
  | succ n =>
    obtain ⟨fuel, rfl⟩ := Nat.exists_eq_succ_of_ne_zero (n := fuel) (by omega)
    rw [decodeBlocks] at h
    split at h
    · cases h
    · rename_i front l hd
      split at h
      · cases h
      · rename_i rest l' hrest
        cases h
        exact .inr ⟨fuel, front, l, rest, l', rfl, Nat.succ_pos _, hd, hrest, rfl, rfl⟩

/-- From its RUN steps on a DECODE writes the values of the bytes left and completes, all n values written. -/
theorem run_decoding {s : State} {v : Variant} {simd : Bool} (hin : s.inputs = []) (hrace : s.race = [])
    (hover : ¬overlap s) {fuel : Nat} {produced values : List Word} {p d len : Nat}
    (h : (s.decoding v simd produced p d).Inv) (hfuel : s.n - produced.length ≤ fuel)
    (hdec : decodeBlocks (decBlock v) fuel ((Memory.readBytes s.mem s.byteBase.toNat s.byteCap.toNat).drop p)
      (s.n - produced.length) = .ok (values, len)) :
    ∃ k d', k ≤ fuel + 1 ∧ Host.Core.run core k (s.decoding v simd produced p d) =
        .next ((s.decoding v simd (produced ++ values) (p + len) d').complete .none) ∧
      (produced ++ values).length = s.n ∧ p + len ≤ s.byteCap.toNat := by
  induction fuel using Nat.strong_induction_on generalizing produced values p d len with
  | _ fuel ih =>
    rcases decodeBlocks_cases hfuel hdec with
      ⟨hnone, rfl, rfl⟩ | ⟨fuel', front, l, rest, l', rfl, hpos, hd, hrest, rfl, rfl⟩
    · obtain ⟨-, -, -, -, -, -, -, -, hi, hcap⟩ := h.running rfl
      have hi : produced.length = s.n := Nat.le_antisymm hi (Nat.le_of_sub_eq_zero hnone)
      have hturn := (h.engineTurn_decode rfl rfl).trans (congrArg Host.Outcome.next (decodeRun_done hi))
      rw [List.append_nil, Nat.add_zero]
      exact ⟨1, d + 1, Nat.le_add_left 1 fuel, run_core_turn hturn hin 0, hi, hcap⟩
    · have hturn := h.turn_decoding_block hrace hover (by omega) hd
      obtain ⟨hfront, -⟩ := decBlock_within v _ hpos front l hd
      rw [List.drop_drop, Nat.sub_sub, ← List.length_append] at hrest
      obtain ⟨j, d', hj, hrun, hdone⟩ := ih fuel' (Nat.lt_succ_self _) (engineTurn_keepsInv h hturn)
        (by rw [List.length_append]; omega) hrest
      rw [← List.append_assoc, ← Nat.add_assoc]
      exact ⟨j + 1, d', by omega, (run_core_turn hturn hin j).trans hrun, hdone⟩

/-- The value words after all of them have been produced (R40). -/
theorem valueWords_decoding {s : State} (hwf : Memory.wf s.mem = true) {values : List Word}
    (hlen : values.length = s.n) (v : Variant) (simd : Bool) (p d : Nat) :
    valueWords (s.decoding v simd values p d) = values := by
  refine List.ext_getElem ((length_valueWords _).trans hlen.symm) fun k _ hk => ?_
  simp only [valueWords, List.getElem_map, List.getElem_range]
  exact Memory.read32_writeBytes_words hwf s.valBase.toNat hk

/-- Settles O44: the START step, then a step for each block of the stream, and the one that completes. -/
theorem decodeCommandWritesTheValues : Obligations.DecodeCommandWritesTheValues := by
  intro row hrow s h hin hp hrace hw hpass values len hdec
  obtain ⟨b, hc, hsimd⟩ := codecOp_decodeRow row hrow
  have hcodec : (decodeCmd s.eng.w, EngOp.decode, row.2.1, row.2.2) ∈ codecRows :=
    (codecRow_iff _ _ _ _).2 ⟨b, hw ▸ hc, hsimd⟩
  have hstart : step s = .next (s.decoding row.2.1 row.2.2 [] 0 (s.draws + 1)) :=
    step_start_passes hin hp hcodec hpass
  have hinv := everyStepKeepsTheInvariant _ _ h hstart
  obtain ⟨-, -, hover, -⟩ := hpass
  obtain ⟨k, d, hk, hrun, hlen, hcap⟩ := run_decoding hin hrace hover hinv (Nat.le_refl _) hdec
  rw [List.nil_append] at hrun hlen
  rw [Nat.zero_add] at hrun hcap
  obtain ⟨hresult, hvdone⟩ := toNat_complete_cursors (s := s.decoding row.2.1 row.2.2 values len d) (.inr rfl)
    (lt_of_le_of_lt hcap s.byteCap.isLt) (lt_of_eq_of_lt hlen s.valCount.isLt) .none
  refine ⟨k + 1, _, Nat.succ_le_succ hk, (run_core_succ hstart k).trans hrun, rfl, rfl, hresult,
    BitVec.eq_of_toNat_eq (hvdone.trans hlen), valueWords_decoding h.memWf hlen row.2.1 row.2.2 len d, fun a ha => ?_⟩
  refine Memory.read_writeBytes_outside ?_
  rw [length_flatMap_leBytes4, hlen]
  exact ha

end Sys2Proof.Machine
end

