-- ==== Sys2Proof/Proofs/ShuffleTable.lean ====
section
/-! The shuffle table by its lanes (45_simd.md R108 to R115): what a built entry holds, that its offsets stay inside the
payload of its LengthCodes, so the gather reads no other byte, and that TABLE_INIT builds every entry. -/

namespace Sys2Proof.Machine

open Sys2Proof.Laws Sys2Proof.Claims

/-! ### The lanes of a built entry (R108) -/

theorem payloadLen_eq_payloadOffset (codes : List LengthCode) :
    payloadLen codes = payloadOffset codes codes.length := by
  rw [← payloadLen_take, List.take_length]

/-- Lane 4k + b of slot k: the offset o_k + b for the bytes of the slot, ZERO_MARK past them and in an absent slot. -/
theorem patternByte_slot (codes : List LengthCode) (k : Nat) {b : Nat} (hb : b < 4) :
    patternByte codes (4 * k + b) =
      if k < codes.length ∧ b ≤ (codes.getD k 0).toNat then BitVec.ofNat 8 (payloadOffset codes k + b) else 0x80 := by
  rw [patternByte, show (4 * k + b) / 4 = k by omega, show (4 * k + b) % 4 = b by omega, slotOffset_eq_payloadOffset]
  by_cases hk : k < codes.length
  · rw [List.getElem?_eq_getElem hk, List.getD_eq_getElem _ _ hk]
    simp only [hk, true_and]
    rfl
  · rw [List.getElem?_eq_none (Nat.le_of_not_lt hk), if_neg fun h => hk h.1]
    rfl

theorem getElem?_pat_validEntry (codes : List LengthCode) {k b : Nat} (hk : k < 4) (hb : b < 4) :
    (validEntry codes).pat.toList[4 * k + b]? = some
      (if k < codes.length ∧ b ≤ (codes.getD k 0).toNat then BitVec.ofNat 8 (payloadOffset codes k + b) else 0x80) := by
  have hlane : 4 * k + b < 16 := by omega
  rw [← patternByte_slot codes k hb, ← lane_validEntry codes hlane, Entry.lane_of_lt _ hlane, Vector.getElem?_toList,
    Vector.getElem?_eq_getElem hlane]

theorem buildEntry_two_of_legal {d : Byte} (h : d &&& 0xCC = 0) : buildEntry 2 d = validEntry (codesNib d) := by
  rw [buildEntry, if_neg (by decide), if_pos h]

theorem buildEntry_two_of_illegal {d : Byte} (h : d &&& 0xCC ≠ 0) : buildEntry 2 d = invalidEntry := by
  rw [buildEntry, if_neg (by decide), if_neg h]

/-- Settles O35: both widths build the entry of a list of LengthCodes, whose lanes `getElem?_pat_validEntry` gives. -/
theorem builtEntriesHoldTheirLanes : Obligations.BuiltEntriesHoldTheirLanes := by
  refine fun d => ⟨?_, fun hlegal => ?_, buildEntry_two_of_illegal⟩
  · rintro codes rfl
    refine ⟨rfl, payloadLen_eq_payloadOffset _, fun k hk b hb => ?_⟩
    have hlane := getElem?_pat_validEntry (codesB4 d) hk hb
    simp only [show (codesB4 d).length = 4 from rfl, hk, true_and] at hlane
    exact hlane
  · rintro codes rfl
    rw [buildEntry_two_of_legal hlegal]
    exact ⟨rfl, payloadLen_eq_payloadOffset _, fun k hk b hb => getElem?_pat_validEntry (codesNib d) hk hb⟩

/-! ### The bytes of a gathered value (R112) -/

theorem extractLsb'_leValue_four (lane : Nat → Byte) {b : Nat} (hb : b < 4) :
    (leValue [lane 0, lane 1, lane 2, lane 3]).extractLsb' (8 * b) 8 = lane b := by
  obtain ⟨h0, h1, h2, h3⟩ := extractLsb'_leValue (lane 0) (lane 1) (lane 2) (lane 3)
  match b, hb with
  | 0, _ => exact h0
  | 1, _ => exact h1
  | 2, _ => exact h2
  | 3, _ => exact h3

theorem extractLsb'_gatherValue (e : Entry) (Q : List Byte) {k b : Nat} (hk : k < 4) (hb : b < 4) :
    (gatherValue e Q k).extractLsb' (8 * b) 8 = gatherByte e.pat[4 * k + b] Q := by
  rw [← e.lane_of_lt (by omega)]
  exact extractLsb'_leValue_four (fun j => gatherByte (e.lane (4 * k + j)) Q) hb

theorem length_gather (e : Entry) (Q : List Byte) (g : Nat) : (gather e Q g).length = g := by simp [gather]

theorem getElem?_gather (e : Entry) (Q : List Byte) {g k : Nat} (hk : k < g) :
    (gather e Q g)[k]? = some (gatherValue e Q k) := by simp [gather, hk]

/-! ### The offsets of a valid entry (R112) -/

/-- A lane that is no zero marker holds an offset below LEN. -/
theorem patternByte_cases (codes : List LengthCode) (lane : Nat) :
    patternByte codes lane = 0x80 ∨ ∃ o < payloadLen codes, patternByte codes lane = BitVec.ofNat 8 o := by
  unfold patternByte
  split
  · exact .inl rfl
  · rename_i c hc
    split
    · have hfit := slotOffset_add_codeBytes_le hc
      rw [codeBytes] at hfit
      exact .inr ⟨_, by omega, rfl⟩
    · exact .inl rfl

/-- Four LengthCodes give offsets below 16, which fit in bits [3:0] of a pattern byte (R107). -/
theorem offset_fields : ∀ o < 16,
    ((BitVec.ofNat 8 o).extractLsb' 0 4).toNat = o ∧ (BitVec.ofNat 8 o).extractLsb' 4 3 = 0 := by decide

theorem offset_of_mem_pat_validEntry {codes : List LengthCode} (hlen : codes.length ≤ 4) {x : Byte}
    (hx : x ∈ (validEntry codes).pat.toList) (hbit : x.getLsbD 7 = false) :
    (x.extractLsb' 0 4).toNat < (validEntry codes).len ∧ x.extractLsb' 4 3 = 0 := by
  obtain ⟨lane, hlane, rfl⟩ := Vector.getElem_of_mem (Vector.mem_toList_iff.1 hx)
  rw [← Entry.lane_of_lt _ hlane, lane_validEntry codes hlane] at hbit ⊢
  rcases patternByte_cases codes lane with hzero | ⟨o, ho, hoff⟩
  · rw [hzero] at hbit
    exact absurd hbit (by decide)
  · have hmax := payloadLen_le codes
    obtain ⟨hlow, hhigh⟩ := offset_fields o (by omega)
    rw [hoff, hlow]
    exact ⟨ho, hhigh⟩

/-- A valid entry of either group width is that of at most four LengthCodes (R108). -/
theorem exists_codes_of_evalid {g : Nat} {d : Byte} (hg : g = 4 ∨ g = 2) (hvalid : (buildEntry g d).evalid = true) :
    ∃ codes : List LengthCode, codes.length ≤ 4 ∧ buildEntry g d = validEntry codes := by
  rcases hg with rfl | rfl
  · exact ⟨codesB4 d, Nat.le_refl 4, rfl⟩
  · by_cases hlegal : d &&& 0xCC = 0
    · exact ⟨codesNib d, by simp [codesNib], buildEntry_two_of_legal hlegal⟩
    · rw [buildEntry_two_of_illegal hlegal] at hvalid
      exact absurd hvalid Bool.false_ne_true

theorem gatherByte_take {x : Byte} {n : Nat} (h : x.getLsbD 7 = false → (x.extractLsb' 0 4).toNat < n) (Q : List Byte) :
    gatherByte x (Q.take n) = gatherByte x Q := by
  unfold gatherByte
  split
  · rfl
  · rename_i hbit
    rw [List.getD_eq_getElem?_getD, List.getD_eq_getElem?_getD,
      List.getElem?_take_of_lt (h (Bool.eq_false_of_not_eq_true hbit))]

/-- An entry whose offsets lie below `n` gathers from the first `n` bytes alone. -/
theorem gather_take {e : Entry} {n : Nat}
    (hoff : ∀ x : Byte, x ∈ e.pat.toList → x.getLsbD 7 = false → (x.extractLsb' 0 4).toNat < n) {g : Nat} (hg : g ≤ 4)
    (Q : List Byte) : gather e (Q.take n) g = gather e Q g := by
  refine List.map_congr_left fun k hk => ?_
  have hk : k < g := List.mem_range.1 hk
  have lane (j : Nat) (hj : j < 16) : gatherByte (e.lane j) (Q.take n) = gatherByte (e.lane j) Q := by
    rw [e.lane_of_lt hj]
    exact gatherByte_take (hoff _ (Vector.mem_toList_iff.2 (Vector.getElem_mem hj))) Q
  rw [gatherValue, gatherValue, lane (4 * k) (by omega), lane (4 * k + 1) (by omega), lane (4 * k + 2) (by omega),
    lane (4 * k + 3) (by omega)]

/-- Settles O36: the gathered bytes by lane, and a valid entry's offsets by those of its LengthCodes. -/
theorem gatherReadsOnlyThePayload : Obligations.GatherReadsOnlyThePayload := by
  refine ⟨fun e Q g _ => ⟨length_gather e Q g, fun k hk hkg => ⟨_, getElem?_gather e Q hkg,
    fun b hb => extractLsb'_gatherValue e Q hk hb⟩⟩, fun g d hg hvalid => ?_⟩
  obtain ⟨codes, hlen, hentry⟩ := exists_codes_of_evalid hg hvalid
  rw [hentry]
  have hoff := fun x hx hbit => offset_of_mem_pat_validEntry (x := x) hlen hx hbit
  exact ⟨hoff, gather_take (fun x hx hbit => (hoff x hx hbit).1) (by omega)⟩

/-- Settles O37: the scalar rule and the table agree, also with no value left, so the bound on `rem` is not used. -/
theorem simdDecodeEqualsScalarDecode : Obligations.SimdDecodeEqualsScalarDecode :=
  fun v S rem _ => decBlockSimd_buildTable v S rem

/-! ### TABLE_INIT (R109) -/

theorem tableInitRow_fields : ∀ row ∈ tableInitRows,
    row.2.2 = row.2.1.group ∧ decide (row.1 = .tableInitTn) = (row.2.1 == .tableNib) := by decide

/-- The START step of TABLE_INIT. -/
theorem exec_tableInit_start {row : Instr × Variant × Nat} (hrow : row ∈ tableInitRows) {s : State}
    (hp : s.eng.phase = .start) : exec row.1 s = .next (State.complete .none
      { s.load .tableInit row.2.1 false with
        table := buildTable row.2.1.group
        status := { s.status with tableG2 := decide (row.2.1.group = 2), tableValid := true } }) := by
  rw [exec_tableInit hrow, tableInitCommand, runCommand_start hp]
  rfl

/-- The TABLE_INIT words leave the SIMD bit and the reserved bits clear, so no other word with OP = 4 is legal (R58). -/
theorem decodeCmd_illegal_of_op_four {w : Word} (hop : w.extractLsb' 0 4 = 4)
    (hbits : w.getLsbD 6 = true ∨ w.extractLsb' 7 25 ≠ 0) : decodeCmd w = .illegal w := by
  have hclear : ∀ x ∈ legalWords, x.extractLsb' 0 4 = 4 → ¬(x.getLsbD 6 = true ∨ x.extractLsb' 7 25 ≠ 0) :=
    forall_legalWords (by decide)
  exact (decodeCmd_eq_illegal_iff w).2 fun hmem => hclear w hmem hop hbits

/-- Settles O21: the START step of a TABLE_INIT row, and that of ILLEGAL for the other words with OP = 4. -/
theorem tableInitBuildsEveryEntry : Obligations.TableInitBuildsEveryEntry := by
  intro row hrow s hp
  refine ⟨?_, fun w hop hbits => ?_⟩
  · obtain ⟨hgroup, hsimd⟩ := tableInitRow_fields row hrow
    rw [hgroup, hsimd]
    exact ⟨_, exec_tableInit_start hrow hp, fun d h => getElem_buildTable _ h, rfl⟩
  · rw [decodeCmd_illegal_of_op_four hop hbits, exec_illegal_start w hp]
    exact ⟨_, rfl, rfl, rfl, rfl, rfl⟩

end Sys2Proof.Machine
end

