-- ==== Sys2Proof/Proofs/NoStop.lean ====
section
/-! No instruction stops the machine (60_exceptions.md R117, R121): a command word is one engine command and a header is
one DECODE block step, and both answer a next state. -/

namespace Sys2Proof.Machine

/-- An instruction encoded as a command word is a START step and a RUN step (R98 to R100, R130). -/
theorem exec_eq_runCommand {i : Instr} {w : Word} (h : encode i = .cmd w) :
    ∃ start run, exec i = runCommand start run := by
  cases i with
  | encodeB4 | encodeHn | encodeSn | encodeTn | decodeB4 | decodeB4Simd | decodeHn | decodeHnSimd | decodeSn
  | decodeSnSimd | decodeTn | decodeTnSimd | classify | tableInitB4 | tableInitHn | tableInitSn | tableInitTn
  | illegal => exact ⟨_, _, rfl⟩
  | b4Raw | b4Coded | hnRawLo | hnRawHi | hnCoded | hnMalformed | snRaw | snCoded | snMalformed | tnRaw | tnCoded
  | tnMalformed => cases h

/-- An instruction encoded as a header byte, well-formed or not, is one DECODE block step (R100). -/
theorem exec_eq_decodeBlock {i : Instr} {v : Variant} {b : Byte} (h : encode i = .hdr v b) (s : State) :
    ∃ dec, exec i s = .next (decodeBlock dec s) := by
  cases i with
  | b4Raw | b4Coded | hnRawLo | hnRawHi | hnCoded | hnMalformed | snRaw | snCoded | snMalformed | tnRaw | tnCoded
  | tnMalformed => exact ⟨_, rfl⟩
  | encodeB4 | encodeHn | encodeSn | encodeTn | decodeB4 | decodeB4Simd | decodeHn | decodeHnSimd | decodeSn
  | decodeSnSimd | decodeTn | decodeTnSimd | classify | tableInitB4 | tableInitHn | tableInitSn | tableInitTn
  | illegal => cases h

/-- Settles O9: by the instruction's code, a command word or a header byte. -/
theorem everyInstructionAnswersANextState : Obligations.EveryInstructionAnswersANextState := by
  intro i s
  cases h : encode i with
  | cmd w =>
    obtain ⟨start, run, hexec⟩ := exec_eq_runCommand h
    rw [hexec]
    exact runCommand_next start run s
  | hdr v b =>
    obtain ⟨dec, hexec⟩ := exec_eq_decodeBlock h s
    exact ⟨_, hexec⟩

end Sys2Proof.Machine
end

