-- ==== Sys2Proof/Proofs/Reset.lean ====
section
/-! The reset input (70_reset_and_hazards.md R131): the registers read as after power-up, and the only bytes it leaves open
are those the command it cuts off would have written by its end (20_memory.md R45). -/

namespace Sys2Proof.Machine

open Sys2Proof.Claims

/-- Settles O47: nothing runs, no table is valid and no byte of `Mem` is written. -/
theorem invariantHoldsAtReset : Obligations.InvariantHoldsAtReset where
  memWf := rfl
  memInSpace := rfl
  busyIffRunning := by decide
  notBusyAndDone := by decide
  errIffErrcode := by decide
  raceOnlyWhileBusy := fun _ => rfl
  running := fun hrun => absurd hrun (by decide)
  tableBuilt := fun hvalid => absurd hvalid (by decide)
  beforeKept := fun _ _ _ _ _ => rfl

/-- A register reads after a reset pulse what it reads at `State.reset`. -/
theorem readReg_of_hostReset {s t : State} (h : hostReset s = .next t) (r : Reg) : t.readReg r = State.reset.readReg r := by
  cases h
  cases r <;> rfl

theorem State.couldWrite_idle {s : State} (hb : s.status.busy = false) : s.couldWrite = (0, 0) := by
  rcases s.couldWrite_cases with hw | ⟨hbusy, -⟩
  · exact hw
  · exact absurd (hb.symm.trans hbusy) (by decide)

/-- What the command has not written at the end of the look-ahead lies outside the bytes a reset leaves open. -/
theorem State.read_scramble_couldWrite (s : State) {a : Nat}
    (ha : ¬writtenAt s (s.outlook (Config.freeRun s.draws 0)) a) (d : Nat) (m : Memory) :
    Memory.read (Memory.scramble d m s.couldWrite.1 s.couldWrite.2) a = Memory.read m a := by
  refine Memory.read_scramble_outside d ?_
  rcases s.couldWrite_cases with hw | ⟨-, op, v, b, hc, ⟨rfl, hw⟩ | ⟨rfl, hw⟩⟩ <;> rw [hw]
  · exact .inr (Nat.zero_le a)
  · rw [writtenAt_iff hc, if_pos rfl] at ha
    omega
  · rw [writtenAt_iff hc, if_neg (by decide)] at ha
    omega

/-- Settles O16: a reset in a command leaves open what lies below the cursor of `State.outlook`, which is where the command
would have ended. -/
theorem resetInputResetsTheBlock : Obligations.ResetInputResetsTheBlock := by
  intro s rest hin
  obtain ⟨hzero, hid, hversion, -⟩ := resetRegistersReadAsTheMapSays
  have hread := readReg_of_hostReset (s := (s.pop rest).tick) rfl
  refine ⟨_, step_of_reset hin, rfl, rfl, rfl, fun r hr => (hread r).trans (hzero r hr), (hread .id).trans hid,
    (hread .version).trans hversion, fun hidle => ?_, fun h hbusy => ?_⟩
  · change Memory.scramble _ s.mem _ _ = s.mem
    rw [State.couldWrite_idle (s := (s.pop rest).tick) hidle]
    rfl
  · exact ⟨_, _, h.endsIn_outlook (Config.freeRun (s.draws + 1) 0),
      fun a ha => (s.pop rest).tick.read_scramble_couldWrite ha _ s.mem⟩

end Sys2Proof.Machine
end

