-- ==== Sys2Proof/Proofs/SampleWords.lean ====
section
/-! Words and headers of the opcode table, decoded (30_encoding.md R58, R65; 95_test_vectors.md V-B4, V-SN, V-ENG). -/

namespace Sys2Proof.Machine

/-- Settles O5: each word and header is the code of its instruction, so decode of encode gives it back. -/
theorem sampleWordsDecode : Obligations.SampleWordsDecode := by
  have back := decodeOfEncodeGivesTheInstruction
  exact ⟨congrArg some (back .encodeSn rfl), congrArg some (back .decodeTnSimd rfl), congrArg some (back .classify rfl),
    congrArg some (back .tableInitHn rfl), congrArg some (back (.illegal 0x82) rfl), back (.b4Coded 1 0 2 3) rfl,
    back (.hnRawLo 0) rfl, back (.snCoded 2 1) rfl, back (.tnMalformed 0xF1) rfl⟩

end Sys2Proof.Machine
end
